-- ==== Sys2Proof/Word.lean ====
section
/-! DEFINITION. The two word sizes of CMAC: 32-bit registers and command words (10_state.md section 2,
30_encoding.md R80) and bytes (symbols, coded bytes). -/

namespace Sys2Proof

/-- A 32-bit register value or command word (10_state.md section 2). -/
abbrev Word := BitVec 32

/-- A byte: a symbol 0..255 or one byte of the coded stream (30_encoding.md R81, 20_memory.md R62). -/
abbrev Byte := BitVec 8

end Sys2Proof
end

