-- ==== Sys2Proof/Config.lean ====
section
/-! DEFINITION. The fixed constants of CMAC (00_scope.md R7), the identification constants (10_state.md R22), the
platform's open placement parameter, and the one free value of the spec (70_reset_and_hazards.md R255). -/

namespace Sys2Proof.Config

/-- HALF = 2^31, the midpoint of the coder's range (R7). -/
def half : Nat := 0x80000000

/-- QUARTER = 2^30 (R7). -/
def quarter : Nat := 0x40000000

/-- THREEQ = 3 · 2^30, the start of the fourth quarter (R7). -/
def threeq : Nat := 0xC0000000

/-- TOP = 2^32 - 1, the largest coder value (R7). -/
def top : Word := 0xFFFFFFFF#32

/-- PMIN and PMAX bound a quantized probability (R7). -/
def pmin : Nat := 1

/-- See `pmin`. -/
def pmax : Nat := 255

/-- PINIT, the probability of an entry never refreshed (R7). -/
def pinit : Byte := 128#8

/-- PHANTOM_MAX, the zero bits the decoder may read past the end of input in one stream (R7). -/
def phantomMax : Nat := 30

/-- HASH_MUL, the multiplier of the context fold (R7, 40_predictor.md R100). -/
def hashMul : Word := 0x01000193#32

/-- GOLD, the dispersion multiplier (R7, 40_predictor.md R101). -/
def gold : Word := 0x9E3779B9#32

/-- Bound on the passes of the renormalization loop (41_encoder.md R134, 42_decoder.md R155, R156), which this model
writes as a recursion on a number of passes. From ANY pair of 32-bit bounds the loop stops within 33 passes, since each
pass shifts a 0 into LOW and a 1 into HIGH, so the bound cuts nothing off (DEDUCED, safe; assumption 10). -/
def renormPasses : Nat := 34

/-- The value of the ID register, the ASCII text CMAC (10_state.md R22). -/
def idValue : Word := 0x434D4143#32

/-- The value of the VERSION register, CMAC-CS1 1.0 (10_state.md R22). -/
def versionValue : Word := 0x00010000#32

/-- MAX_ORDERS, the number of context-order slots, as PARAM reports it (R7, 10_state.md R22). -/
def maxOrders : Nat := 8

/-- CMAC_BASE, where the platform places the window: OPEN (20_memory.md R60). Nothing in the block depends on it
(assumption 19). -/
opaque windowBase : Nat

/-- The effective bus address of a register offset (44_host_access.md R190). -/
def busAddress (off : BitVec 12) : Nat := windowBase + off.toNat

/-- The n-th unspecified 32-bit value: what a read of a register that the pending command may write returns
(70_reset_and_hazards.md R255: a free value, "a draw"; assumption 3). It has no body, so no proof can use a value of
it. -/
opaque freeWord : Nat → Word

end Sys2Proof.Config
end

