-- ==== Sys2Proof/Syntax.lean ====
section
/-! DEFINITION. The operations of CMAC as syntax: the 14 command words (30_encoding.md R83) and the host register
accesses (30_encoding.md R90), one constructor per row of the opcode table; the register names of the window
(10_state.md section 2); and the packets that carry an operation to the block, a command word or a bus access. -/

namespace Sys2Proof

/-- The kind of a host access: a read, or a write of a 32-bit value (44_host_access.md R190). -/
inductive AccessKind where
  | read
  | write (v : Word)
deriving DecidableEq, Repr

/-- A bus access of the host as the block sees it: kind, byte offset in the 4 KiB window, and width in bytes. Widths
other than 4 and offsets not a multiple of 4 are inadmissible (20_memory.md R63), and are kept here so that they can be
refused by name. -/
structure Access where
  kind  : AccessKind
  off   : BitVec 12
  bytes : Nat
deriving DecidableEq, Repr

/-- What reaches the block's decoders: a command word, held in PEND, or a bus access of the host. -/
inductive Packet where
  | command (w : Word)
  | access (a : Access)
deriving DecidableEq, Repr

/-- The registers and register groups of the window (10_state.md section 2), an index k or j being 0..7. -/
inductive Reg where
  | id
  | version
  | param
  | cmd
  | status
  | err
  | intStatus
  | intEnable
  | din
  | eoi
  | dout
  | result
  | total
  | symcnt
  | streamSyms
  | bitcnt
  | low
  | high
  | code
  | pending
  | histValid
  | phantom
  | cfgNord
  | cfgCeil
  | cfgRint
  | scoreIdx
  | scoreData
  | diagSel
  | diagData
  | diagTotal
  | order (k : Fin 8)
  | weight (k : Fin 8)
  | hist (j : Fin 8)
  | idx (k : Fin 8)
deriving DecidableEq, Repr

/-- Why a packet is no operation. The first three are the illegal command words of 30_encoding.md R84; the last two
are the inadmissible accesses of 20_memory.md R63. -/
inductive DecodeError where
  | undefinedOpcode
  | reservedNonzero
  | symNonzero
  | badWidth
  | misaligned
deriving DecidableEq, Repr

/-- The operations, one constructor per row of the opcode table: 14 commands, a read and a write of each register or
register group, and the row of the unmapped offsets. -/
inductive Instr where
  -- commands (30_encoding.md R83)
  | nop
  | softReset
  | tblClear
  | ctxClear
  | refresh
  | abort
  | predict
  | learn (sym : Byte)
  | encStart
  | encSym (sym : Byte)
  | encFlush
  | decStart
  | decSym
  | decEnd
  -- host accesses (30_encoding.md R90); a write carries its 32-bit value
  | rdId
  | wrId (v : Word)
  | rdVersion
  | wrVersion (v : Word)
  | rdParam
  | wrParam (v : Word)
  | rdCmd
  | wrCmd (v : Word)
  | rdStatus
  | wrStatus (v : Word)
  | rdErr
  | wrErr (v : Word)
  | rdIntStatus
  | wrIntStatus (v : Word)
  | rdIntEnable
  | wrIntEnable (v : Word)
  | rdDin
  | wrDin (v : Word)
  | rdEoi
  | wrEoi (v : Word)
  | rdDout
  | wrDout (v : Word)
  | rdResult
  | wrResult (v : Word)
  | rdTotal
  | wrTotal (v : Word)
  | rdSymcnt
  | wrSymcnt (v : Word)
  | rdStreamSyms
  | wrStreamSyms (v : Word)
  | rdBitcnt
  | wrBitcnt (v : Word)
  | rdLow
  | wrLow (v : Word)
  | rdHigh
  | wrHigh (v : Word)
  | rdCode
  | wrCode (v : Word)
  | rdPending
  | wrPending (v : Word)
  | rdHistValid
  | wrHistValid (v : Word)
  | rdPhantom
  | wrPhantom (v : Word)
  | rdCfgNord
  | wrCfgNord (v : Word)
  | rdCfgCeil
  | wrCfgCeil (v : Word)
  | rdCfgRint
  | wrCfgRint (v : Word)
  | rdScoreIdx
  | wrScoreIdx (v : Word)
  | rdScoreData
  | wrScoreData (v : Word)
  | rdDiagSel
  | wrDiagSel (v : Word)
  | rdDiagData
  | wrDiagData (v : Word)
  | rdDiagTotal
  | wrDiagTotal (v : Word)
  | rdOrder (k : Fin 8)
  | wrOrder (k : Fin 8) (v : Word)
  | rdWeight (k : Fin 8)
  | wrWeight (k : Fin 8) (v : Word)
  | rdHist (j : Fin 8)
  | wrHist (j : Fin 8) (v : Word)
  | rdIdx (k : Fin 8)
  | wrIdx (k : Fin 8) (v : Word)
  | unmapped (off : BitVec 12) (kind : AccessKind)
deriving DecidableEq, Repr

end Sys2Proof
end

