-- ==== Sys2Proof/WellFormed.lean ====
section
/-! DEFINITION. Well-formed operations. Every operand but one is exactly as wide as its field, so the type admits no
ill-formed value; the row of the unmapped offsets takes only an aligned offset that no register owns
(20_memory.md R66, 30_encoding.md R90). -/

namespace Sys2Proof

/-- The offset lies in one of the register ranges of 10_state.md section 2 (for aligned offsets: it is a register). -/
def mappedOffset (off : BitVec 12) : Bool :=
  let a := off.toNat
  a < 0x058 || (0x080 ≤ a && a < 0x08C) || (0x0A0 ≤ a && a < 0x0E0) || (0x100 ≤ a && a < 0x108) ||
    (0x110 ≤ a && a < 0x11C) || (0x140 ≤ a && a < 0x180)

/-- The unmapped row's offset is a multiple of 4 that no register owns. -/
def WellFormed : Instr → Bool
  | .unmapped off _ => off.toNat % 4 == 0 && !mappedOffset off
  | _ => true

end Sys2Proof
end

