-- ==== Sys2Proof/Decode.lean ====
section
/-! DEFINITION. The decoders, total on every command word and every bus access, rejecting by name; then the encoder.
Command words: 30_encoding.md R80 to R85. Host accesses: 30_encoding.md R90, 10_state.md section 2, 20_memory.md R63
and R66. -/

namespace Sys2Proof

/-! ## Command words -/

/-- OP, bits 31:24 of a command word (R80). -/
def opField (w : Word) : BitVec 8 := w.extractLsb' 24 8

/-- RSV, bits 23:8 of a command word (R80). -/
def rsvField (w : Word) : BitVec 16 := w.extractLsb' 8 16

/-- SYM, bits 7:0 of a command word (R80, R81). -/
def symField (w : Word) : Byte := w.extractLsb' 0 8

/-- An opcode row: a command without operand, whose SYM field must be 0, or one that takes SYM (R80, R83). -/
inductive CmdForm where
  | plain (i : Instr)
  | withSym (f : Byte → Instr)

/-- The opcode map of R83; every other opcode is undefined (R84, R85). -/
def cmdForm (op : BitVec 8) : Option CmdForm :=
  match op.toNat with
  | 0x00 => some (.plain .nop)
  | 0x01 => some (.plain .softReset)
  | 0x02 => some (.plain .tblClear)
  | 0x03 => some (.plain .ctxClear)
  | 0x04 => some (.plain .refresh)
  | 0x05 => some (.plain .abort)
  | 0x06 => some (.plain .predict)
  | 0x07 => some (.withSym .learn)
  | 0x10 => some (.plain .encStart)
  | 0x11 => some (.withSym .encSym)
  | 0x12 => some (.plain .encFlush)
  | 0x20 => some (.plain .decStart)
  | 0x21 => some (.plain .decSym)
  | 0x22 => some (.plain .decEnd)
  | _ => none

/-- Decoding of a command word (R80 to R85). An error is exactly an illegal word of R84. -/
def decodeCmd (w : Word) : Except DecodeError Instr :=
  match cmdForm (opField w) with
  | none => .error .undefinedOpcode
  | some form =>
    if rsvField w ≠ 0 then .error .reservedNonzero
    else match form with
      | .plain i => if symField w = 0 then .ok i else .error .symNonzero
      | .withSym f => .ok (f (symField w))

/-! ## Host accesses -/

/-- The byte offset of a register (10_state.md section 2). -/
def Reg.offset : Reg → Nat
  | .id => 0x000
  | .version => 0x004
  | .param => 0x008
  | .cmd => 0x00C
  | .status => 0x010
  | .err => 0x014
  | .intStatus => 0x018
  | .intEnable => 0x01C
  | .din => 0x020
  | .eoi => 0x024
  | .dout => 0x028
  | .result => 0x02C
  | .total => 0x030
  | .symcnt => 0x034
  | .streamSyms => 0x038
  | .bitcnt => 0x03C
  | .low => 0x040
  | .high => 0x044
  | .code => 0x048
  | .pending => 0x04C
  | .histValid => 0x050
  | .phantom => 0x054
  | .cfgNord => 0x080
  | .cfgCeil => 0x084
  | .cfgRint => 0x088
  | .scoreIdx => 0x100
  | .scoreData => 0x104
  | .diagSel => 0x110
  | .diagData => 0x114
  | .diagTotal => 0x118
  | .order k => 0x0A0 + 4 * k.val
  | .weight k => 0x0C0 + 4 * k.val
  | .hist k => 0x140 + 4 * k.val
  | .idx k => 0x160 + 4 * k.val

/-- The eight values of an index field. -/
def indexValues : List (Fin 8) := [0, 1, 2, 3, 4, 5, 6, 7]

/-- Every register of the window. -/
def Reg.all : List Reg :=
  [.id, .version, .param, .cmd, .status, .err,
   .intStatus, .intEnable, .din, .eoi, .dout, .result,
   .total, .symcnt, .streamSyms, .bitcnt, .low, .high,
   .code, .pending, .histValid, .phantom, .cfgNord, .cfgCeil,
   .cfgRint, .scoreIdx, .scoreData, .diagSel, .diagData, .diagTotal]
  ++ indexValues.map Reg.order ++ indexValues.map Reg.weight ++ indexValues.map Reg.hist ++ indexValues.map Reg.idx

/-- The register at an offset, if the offset is mapped. -/
def regAt (off : BitVec 12) : Option Reg := Reg.all.find? (fun r => r.offset == off.toNat)

/-- The operation that reads a register. -/
def readOf : Reg → Instr
  | .id => .rdId
  | .version => .rdVersion
  | .param => .rdParam
  | .cmd => .rdCmd
  | .status => .rdStatus
  | .err => .rdErr
  | .intStatus => .rdIntStatus
  | .intEnable => .rdIntEnable
  | .din => .rdDin
  | .eoi => .rdEoi
  | .dout => .rdDout
  | .result => .rdResult
  | .total => .rdTotal
  | .symcnt => .rdSymcnt
  | .streamSyms => .rdStreamSyms
  | .bitcnt => .rdBitcnt
  | .low => .rdLow
  | .high => .rdHigh
  | .code => .rdCode
  | .pending => .rdPending
  | .histValid => .rdHistValid
  | .phantom => .rdPhantom
  | .cfgNord => .rdCfgNord
  | .cfgCeil => .rdCfgCeil
  | .cfgRint => .rdCfgRint
  | .scoreIdx => .rdScoreIdx
  | .scoreData => .rdScoreData
  | .diagSel => .rdDiagSel
  | .diagData => .rdDiagData
  | .diagTotal => .rdDiagTotal
  | .order k => .rdOrder k
  | .weight k => .rdWeight k
  | .hist k => .rdHist k
  | .idx k => .rdIdx k

/-- The operation that writes a register. -/
def writeOf (v : Word) : Reg → Instr
  | .id => .wrId v
  | .version => .wrVersion v
  | .param => .wrParam v
  | .cmd => .wrCmd v
  | .status => .wrStatus v
  | .err => .wrErr v
  | .intStatus => .wrIntStatus v
  | .intEnable => .wrIntEnable v
  | .din => .wrDin v
  | .eoi => .wrEoi v
  | .dout => .wrDout v
  | .result => .wrResult v
  | .total => .wrTotal v
  | .symcnt => .wrSymcnt v
  | .streamSyms => .wrStreamSyms v
  | .bitcnt => .wrBitcnt v
  | .low => .wrLow v
  | .high => .wrHigh v
  | .code => .wrCode v
  | .pending => .wrPending v
  | .histValid => .wrHistValid v
  | .phantom => .wrPhantom v
  | .cfgNord => .wrCfgNord v
  | .cfgCeil => .wrCfgCeil v
  | .cfgRint => .wrCfgRint v
  | .scoreIdx => .wrScoreIdx v
  | .scoreData => .wrScoreData v
  | .diagSel => .wrDiagSel v
  | .diagData => .wrDiagData v
  | .diagTotal => .wrDiagTotal v
  | .order k => .wrOrder k v
  | .weight k => .wrWeight k v
  | .hist k => .wrHist k v
  | .idx k => .wrIdx k v

/-- Decoding of a bus access: only a 32-bit access at a multiple of 4 is admitted (20_memory.md R63); a mapped offset
selects its register's row and any other offset the unmapped row (30_encoding.md R90). -/
def decodeAccess (a : Access) : Except DecodeError Instr :=
  if a.bytes ≠ 4 then .error .badWidth
  else if a.off.toNat % 4 ≠ 0 then .error .misaligned
  else match regAt a.off, a.kind with
    | some r, .read => .ok (readOf r)
    | some r, .write v => .ok (writeOf v r)
    | none, k => .ok (.unmapped a.off k)

/-- Decoding of what reaches the block. -/
def decode : Packet → Except DecodeError Instr
  | .command w => decodeCmd w
  | .access a => decodeAccess a

/-! ## The opcode table's numbering of bits

A CMD32 row is one 32-bit word. The table gives an MMIO32 row the 12 bits of its offset and nothing more; this model
numbers a host access as a 16-bit selection word, offset in bits 11:0, kind in bit 12 (0 a read, 1 a write) and bits
15:13 zero, followed by the 32-bit value written (DESIGN CHOICE, safe; assumption 12). -/

/-- The access that the bits of an MMIO32 row stand for; bits 15:13 are not looked at here. -/
def accessOfBits (w : Nat) : Access :=
  { kind := if w.testBit 12 then .write (BitVec.ofNat 32 (w / 2 ^ 16)) else .read
    off := BitVec.ofNat 12 w
    bytes := 4 }

/-- The operation the decoder reads from a row's bits. -/
def decodeTableWord (nbits w : Nat) : Option Instr :=
  if nbits = 32 then (decodeCmd (BitVec.ofNat 32 w)).toOption
  else if w / 2 ^ 13 % 8 ≠ 0 then none
  else (decodeAccess (accessOfBits w)).toOption

/-! ## The encoder -/

/-- A command word from its opcode and SYM, RSV being 0 (R80). -/
def cmdWord (op : BitVec 8) (sym : Byte) : Word := op ++ (0#16 ++ sym)

/-- An admitted read of a register. -/
def readAccess (r : Reg) : Packet := .access { kind := .read, off := BitVec.ofNat 12 r.offset, bytes := 4 }

/-- An admitted write of a register. -/
def writeAccess (r : Reg) (v : Word) : Packet :=
  .access { kind := .write v, off := BitVec.ofNat 12 r.offset, bytes := 4 }

/-- The packet of a well-formed operation: the command word of R83, or the bus access of R90. -/
def encode : Instr → Packet
  | .nop => .command (cmdWord 0x00 0)
  | .softReset => .command (cmdWord 0x01 0)
  | .tblClear => .command (cmdWord 0x02 0)
  | .ctxClear => .command (cmdWord 0x03 0)
  | .refresh => .command (cmdWord 0x04 0)
  | .abort => .command (cmdWord 0x05 0)
  | .predict => .command (cmdWord 0x06 0)
  | .learn sym => .command (cmdWord 0x07 sym)
  | .encStart => .command (cmdWord 0x10 0)
  | .encSym sym => .command (cmdWord 0x11 sym)
  | .encFlush => .command (cmdWord 0x12 0)
  | .decStart => .command (cmdWord 0x20 0)
  | .decSym => .command (cmdWord 0x21 0)
  | .decEnd => .command (cmdWord 0x22 0)
  | .rdId => readAccess .id
  | .wrId v => writeAccess .id v
  | .rdVersion => readAccess .version
  | .wrVersion v => writeAccess .version v
  | .rdParam => readAccess .param
  | .wrParam v => writeAccess .param v
  | .rdCmd => readAccess .cmd
  | .wrCmd v => writeAccess .cmd v
  | .rdStatus => readAccess .status
  | .wrStatus v => writeAccess .status v
  | .rdErr => readAccess .err
  | .wrErr v => writeAccess .err v
  | .rdIntStatus => readAccess .intStatus
  | .wrIntStatus v => writeAccess .intStatus v
  | .rdIntEnable => readAccess .intEnable
  | .wrIntEnable v => writeAccess .intEnable v
  | .rdDin => readAccess .din
  | .wrDin v => writeAccess .din v
  | .rdEoi => readAccess .eoi
  | .wrEoi v => writeAccess .eoi v
  | .rdDout => readAccess .dout
  | .wrDout v => writeAccess .dout v
  | .rdResult => readAccess .result
  | .wrResult v => writeAccess .result v
  | .rdTotal => readAccess .total
  | .wrTotal v => writeAccess .total v
  | .rdSymcnt => readAccess .symcnt
  | .wrSymcnt v => writeAccess .symcnt v
  | .rdStreamSyms => readAccess .streamSyms
  | .wrStreamSyms v => writeAccess .streamSyms v
  | .rdBitcnt => readAccess .bitcnt
  | .wrBitcnt v => writeAccess .bitcnt v
  | .rdLow => readAccess .low
  | .wrLow v => writeAccess .low v
  | .rdHigh => readAccess .high
  | .wrHigh v => writeAccess .high v
  | .rdCode => readAccess .code
  | .wrCode v => writeAccess .code v
  | .rdPending => readAccess .pending
  | .wrPending v => writeAccess .pending v
  | .rdHistValid => readAccess .histValid
  | .wrHistValid v => writeAccess .histValid v
  | .rdPhantom => readAccess .phantom
  | .wrPhantom v => writeAccess .phantom v
  | .rdCfgNord => readAccess .cfgNord
  | .wrCfgNord v => writeAccess .cfgNord v
  | .rdCfgCeil => readAccess .cfgCeil
  | .wrCfgCeil v => writeAccess .cfgCeil v
  | .rdCfgRint => readAccess .cfgRint
  | .wrCfgRint v => writeAccess .cfgRint v
  | .rdScoreIdx => readAccess .scoreIdx
  | .wrScoreIdx v => writeAccess .scoreIdx v
  | .rdScoreData => readAccess .scoreData
  | .wrScoreData v => writeAccess .scoreData v
  | .rdDiagSel => readAccess .diagSel
  | .wrDiagSel v => writeAccess .diagSel v
  | .rdDiagData => readAccess .diagData
  | .wrDiagData v => writeAccess .diagData v
  | .rdDiagTotal => readAccess .diagTotal
  | .wrDiagTotal v => writeAccess .diagTotal v
  | .rdOrder k => readAccess (.order k)
  | .wrOrder k v => writeAccess (.order k) v
  | .rdWeight k => readAccess (.weight k)
  | .wrWeight k v => writeAccess (.weight k) v
  | .rdHist k => readAccess (.hist k)
  | .wrHist k v => writeAccess (.hist k) v
  | .rdIdx k => readAccess (.idx k)
  | .wrIdx k v => writeAccess (.idx k) v
  | .unmapped off kind => .access { kind := kind, off := off, bytes := 4 }

end Sys2Proof
end

