-- ==== Sys2Proof/Machine/State.lean ====
section
/-! DEFINITION. The state of CMAC as plain data (10_state.md), the two ways the model stops, and the state after reset
(10_state.md R54). Every state element of the spec is a field under its own name; the last three fields of `State` are
the model's own (assumptions 2 and 3). -/

namespace Sys2Proof.Machine

/-- MODE (10_state.md R35). -/
inductive Mode where
  | idle
  | enc
  | dec
  | fault
deriving DecidableEq, Repr

/-- The error causes, one ERR bit each (10_state.md R24, 60_exceptions.md R220). -/
inductive ErrCause where
  | illegalCmd
  | modeErr
  | cmdOverrun
  | cfgErr
  | invalidDist
  | truncated
  | pendingOvf
  | dinOvf
  | dinAfterEoi
deriving DecidableEq, Repr

/-- One entry T[k][i] of the table memory (10_state.md R40). -/
structure Entry where
  hot  : Bool
  tot  : BitVec 16
  cnt  : Vector (BitVec 16) 256
  prob : Vector Byte 256
deriving DecidableEq, Repr

/-- The table memory: the entries that differ from the initial entry, keyed by slot and index, keys strictly rising
(assumption 9). -/
abbrev Memory := List (Nat × Entry)

/-- The synthesis parameters (00_scope.md R8), constant for a built block (assumption 4). -/
structure Params where
  tableBits : Nat
  inDepth   : Nat
  outDepth  : Nat
deriving DecidableEq, Repr

/-- The default synthesis parameters (00_scope.md R8). -/
def Params.default : Params := { tableBits := 10, inDepth := 16, outDepth := 16 }

/-- What the outside world can do: a bus access, or a change of the hardware reset input
(70_reset_and_hazards.md R250). -/
inductive HostAct where
  | access (a : Access)
  | assertReset
  | releaseReset
deriving DecidableEq, Repr

/-- A host event still to come. `early` says that it comes before the step of a command that is enabled in PEND: the
order of host events and block steps is the environment's (43_control.md R176; assumption 1). -/
structure HostEvent where
  early : Bool
  act   : HostAct
deriving DecidableEq, Repr

/-- The state of the block, its parameters and its environment. -/
structure State where
  /-- the synthesis parameters (00_scope.md R8) -/
  params : Params
  /-- the level of the hardware reset input (70_reset_and_hazards.md R250) -/
  resetPin : Bool
  /-- MODE (R35) -/
  mode : Mode
  /-- PEND: empty, or the accepted command word (R50) -/
  pend : Option Word
  /-- LOW, HIGH, CODE and PENDING (R37) -/
  low : Word
  high : Word
  code : Word
  pending : Word
  /-- the encoder's bit packer OBUF and OCNT (R38) -/
  obuf : Byte
  ocnt : BitVec 3
  /-- the decoder's bit reader RBUF and RCNT (R38) -/
  rbuf : Byte
  rcnt : BitVec 4
  /-- PHANTOM (R38) -/
  phantom : BitVec 5
  /-- SYMCNT, STREAM_SYMS and BITCNT (R39) -/
  symcnt : BitVec 16
  streamSyms : Word
  bitcnt : Word
  /-- HIST and HIST_VALID (R36) -/
  hist : Vector Byte 32
  histValid : BitVec 6
  /-- CFG_NORD, CFG_CEIL, CFG_RINT, ORDER[k] and WEIGHT[k] (R30 to R34) -/
  nord : BitVec 4
  ceil : BitVec 15
  rint : BitVec 16
  order : Vector (BitVec 6) 8
  weight : Vector (BitVec 11) 8
  /-- the table memory (R40) -/
  mem : Memory
  /-- SCORE, TOTAL and SCORE_IDX (R41) -/
  score : Vector (BitVec 22) 256
  total : BitVec 30
  scoreIdx : BitVec 8
  /-- RSYM and RVALID (R42) -/
  rsym : Byte
  rvalid : Bool
  /-- DIAG_SEL as stored (R43) -/
  diagSel : Word
  /-- INQ, oldest byte first, and EOI (R45) -/
  inq : List Byte
  eoi : Bool
  /-- OUTQ, oldest byte first (R46) -/
  outq : List Byte
  /-- ERR (R24) -/
  err : BitVec 9
  /-- INT_STATUS.DONE and INT_STATUS.ERROR (R25) -/
  done : Bool
  error : Bool
  /-- INT_ENABLE (R26) -/
  intEnable : BitVec 3
  /-- model's own: the host events still to come, oldest first -/
  hostq : List HostEvent
  /-- model's own: the values the host's reads returned, newest first -/
  reads : List Word
  /-- model's own: the number of free values drawn -/
  draws : Nat
deriving DecidableEq, Repr

/-- The state after reset of a block with the given parameters: 10_state.md R54, every element of which has a value
there. The reset input is released, and the model's own fields are empty (assumptions 2, 3, 7). -/
def State.resetWith (p : Params) : State where
  params := p
  resetPin := false
  mode := .idle
  pend := none
  low := 0
  high := 0xFFFFFFFF#32
  code := 0
  pending := 0
  obuf := 0
  ocnt := 0
  rbuf := 0
  rcnt := 0
  phantom := 0
  symcnt := 0
  streamSyms := 0
  bitcnt := 0
  hist := Vector.replicate 32 0
  histValid := 0
  nord := 7
  ceil := 1024
  rint := 233
  order := #v[1, 2, 3, 5, 8, 13, 21, 32]
  weight := #v[6, 9, 15, 24, 39, 62, 101, 0]
  mem := []
  score := Vector.replicate 256 0
  total := 0
  scoreIdx := 0
  rsym := 0
  rvalid := false
  diagSel := 0
  inq := []
  eoi := false
  outq := []
  err := 0
  done := false
  error := false
  intEnable := 0
  hostq := []
  reads := []
  draws := 0

/-- The state after reset with the default parameters (10_state.md R54, 00_scope.md R8). -/
def State.reset : State := State.resetWith Params.default

/-- Why the machine stops with a fault. The spec's own faults are not here: they are next states with MODE = FAULT
(60_exceptions.md R226). -/
inductive Fault where
  /-- Raised by `fetch` when PEND holds a word that is no command. Acceptance admits only legal words
  (43_control.md R170), so no run from reset reaches this: safe (assumption 8). -/
  | pendNotACommand
deriving DecidableEq, Repr

/-- Why the machine has no next state. -/
inductive Refusal where
  /-- Raised by an arm of `exec` that has no meaning yet, with its mnemonic: safe. -/
  | notModelled (mnemonic : String)
  /-- Raised by `fetch` for a bus access that is not 32 bits wide or not at a multiple of 4: the block changes nothing
  and the platform's bus error is open (20_memory.md R63): safe (assumption 6). -/
  | busError (e : DecodeError)
  /-- Raised by `fetch` for a bus access while the reset input is asserted: open (70_reset_and_hazards.md R250): safe
  (assumption 7). -/
  | accessDuringReset
deriving DecidableEq, Repr

/-- What one step of the model answers. -/
abbrev Result := Host.Outcome State Fault Refusal

end Sys2Proof.Machine
end

