-- ==== Sys2Proof/Machine/Ops.lean ====
section
/-! DEFINITION. The shared operations: the table memory, BUSY and the completion of a command, raising a stream fault
and leaving it, and rejecting a host access. -/

namespace Sys2Proof.Machine

/-! ## Vectors and fields -/

/-- The vector whose element j is `f j`. -/
def tabulate {α : Type} (n : Nat) (f : Nat → α) : Vector α n := ⟨((List.range n).map f).toArray, by simp⟩

/-- Apply a function to every element. -/
def mapVec {α β : Type} {n : Nat} (f : α → β) (v : Vector α n) : Vector β n := ⟨(v.toList.map f).toArray, by simp⟩

/-- Combine two vectors element by element. -/
def zipVec {α β γ : Type} {n : Nat} (f : α → β → γ) (v : Vector α n) (w : Vector β n) : Vector γ n :=
  ⟨(List.zipWith f v.toList w.toList).toArray, by simp⟩

/-- zext_32 (00_scope.md section 5). -/
def zext32 {n : Nat} (v : BitVec n) : Word := v.setWidth 32

/-- The low n bits of a 32-bit value, the others 0. -/
def lowBits (n : Nat) (v : Word) : Word := BitVec.ofNat 32 (v.toNat % 2 ^ n)

/-! ## The table memory (10_state.md R40) -/

/-- The content of an entry at reset and after TBL_CLEAR (R40, R54, 40_predictor.md R114). -/
def Entry.initial : Entry :=
  { hot := false, tot := 0, cnt := Vector.replicate 256 0, prob := Vector.replicate 256 Config.pinit }

/-- The key of entry i of slot k, one key per entry: i is at most 20 bits wide (00_scope.md R8). -/
def entryKey (k i : Nat) : Nat := k * 2 ^ 20 + i

/-- The entry at a key: the listed one, or the initial entry. -/
def Memory.get (m : Memory) (a : Nat) : Entry :=
  match m.find? (fun c => c.1 == a) with
  | some c => c.2
  | none => Entry.initial

/-- Write an entry, keeping the canonical form: an initial entry is not listed. -/
def Memory.put (m : Memory) (a : Nat) (e : Entry) : Memory :=
  m.filter (fun c => c.1 < a) ++ (if e = Entry.initial then [] else [(a, e)]) ++ m.filter (fun c => a < c.1)

/-- Apply a function that keeps the initial entry to every entry, keeping the canonical form. -/
def Memory.mapEntries (f : Entry → Entry) (m : Memory) : Memory :=
  (m.map (fun c => (c.1, f c.2))).filter (fun c => c.2 ≠ Entry.initial)

/-- The canonical form: keys strictly rising, no initial entry listed. -/
abbrev Memory.wf (m : Memory) : Prop :=
  m.Pairwise (fun a b => a.1 < b.1) ∧ ∀ c ∈ m, c.2 ≠ Entry.initial

/-- T[k][i] (R40). -/
def State.entry (s : State) (k i : Nat) : Entry := s.mem.get (entryKey k i)

/-! ## Busy and completion -/

/-- BUSY (10_state.md R47): a command in PEND, or output beyond the physical FIFO. -/
def busy (s : State) : Bool := s.pend.isSome || decide (s.params.outDepth < s.outq.length)

/-- The end of a block step (43_control.md R171, R176): PEND becomes empty, and DONE is set if BUSY is then 0. -/
def complete (s : State) : State :=
  let t := { s with pend := none }
  { t with done := t.done || !busy t }

/-! ## Errors (60_exceptions.md) -/

/-- The ERR bit number of a cause (R220). -/
def ErrCause.code : ErrCause → Nat
  | .illegalCmd => 0
  | .modeErr => 1
  | .cmdOverrun => 2
  | .cfgErr => 3
  | .invalidDist => 4
  | .truncated => 5
  | .pendingOvf => 6
  | .dinOvf => 7
  | .dinAfterEoi => 8

/-- Reject(e) (R227): ERR[e] and INT_STATUS.ERROR are set, nothing else. -/
def reject (e : ErrCause) (s : State) : State :=
  { s with err := s.err ||| BitVec.twoPow 9 e.code, error := true }

/-- Fault(e) (R226), this block's way of taking an exception: ERR[e] and INT_STATUS.ERROR are set and MODE becomes
FAULT. No return address is saved and no vector is taken (R230). -/
def raiseFault (e : ErrCause) (s : State) : State := { reject e s with mode := .fault }

/-- The end of a decode stream, which is also the return from FAULT through ABORT (42_decoder.md R160, 43_control.md
R174, 60_exceptions.md R231): the input side is cleared and MODE becomes IDLE. ERR and INT_STATUS.ERROR are kept. -/
def leaveStream (s : State) : State :=
  { s with mode := .idle, inq := [], eoi := false, rbuf := 0, rcnt := 0, phantom := 0 }

/-- Every state element of the block takes its reset value (43_control.md R173, 70_reset_and_hazards.md R250). The
synthesis parameters and the model's own fields, which are not state of the block, stay. -/
def resetBlock (s : State) : State :=
  { State.resetWith s.params with
    resetPin := s.resetPin, hostq := s.hostq, reads := s.reads, draws := s.draws }

end Sys2Proof.Machine
end

