-- ==== Sys2Proof/Machine/Predictor.lean ====
section
/-! DEFINITION. The context-mixing predictor (40_predictor.md): its shared functions R100 to R110, then the meanings of
TBL_CLEAR, CTX_CLEAR, REFRESH, PREDICT and LEARN. -/

namespace Sys2Proof.Machine

/-! ## Hashing and indexing -/

/-- HIST[j], the symbol processed j symbols before the newest one (10_state.md R36); 0 beyond the register. -/
def histByte (s : State) (j : Nat) : Byte := s.hist[j]?.getD 0

/-- CtxHash(k) (R100): 0 while the window is not yet full, else the fold of the window's bytes, oldest first. -/
def ctxHash (s : State) (k : Fin 8) : Word :=
  let o := s.order[k].toNat
  if s.histValid.toNat < o then 0
  else (List.range o).reverse.foldl (fun h j => (h * Config.hashMul) ^^^ zext32 (histByte s j)) 0

/-- IndexOf(k) (R101): the top TABLE_BITS bits of the dispersed hash. -/
def indexOf (s : State) (k : Fin 8) : Nat :=
  ((ctxHash s k * Config.gold) >>> (32 - s.params.tableBits)).toNat

/-- The key of the entry slot k uses for the next symbol (R101, R102). -/
def slotKey (s : State) (k : Fin 8) : Nat := entryKey k.val (indexOf s k)

/-- The active slots k < NORD, in order (10_state.md R30). -/
def activeSlots (s : State) : List (Fin 8) := indexValues.filter (fun k => k.val < s.nord.toNat)

/-! ## Mixing -/

/-- The weight and the entry of each active slot for the next symbol (R103). -/
def mixRows (s : State) : List (Nat × Entry) :=
  (activeSlots s).map (fun k => (s.weight[k].toNat, s.mem.get (slotKey s k)))

/-- The scores before they are stored: at every symbol, the sum over the active slots of weight times quantized
probability (R103). -/
def mix (rows : List (Nat × Entry)) : Vector Nat 256 :=
  rows.foldl (fun acc r => zipVec (fun a p => a + r.1 * p.toNat) acc r.2.prob) (Vector.replicate 256 0)

/-- The sum of a list of scores. -/
def scoreSum (l : List (BitVec 22)) : Nat := (l.map BitVec.toNat).sum

/-- Predict() (R103): it writes SCORE and TOTAL and nothing else. -/
def predict (s : State) : State :=
  let sc := mapVec (BitVec.ofNat 22) (mix (mixRows s))
  { s with score := sc, total := BitVec.ofNat 30 (scoreSum sc.toList) }

/-- Freq(s) = SCORE[s] (R104). -/
def freq (s : State) (sym : Byte) : Nat := (s.score[sym.toNat]?.getD 0).toNat

/-- Cum(s), the sum of the scores of the symbols below s, in ascending byte value (R104). -/
def cum (s : State) (sym : Byte) : Nat := scoreSum (s.score.toList.take sym.toNat)

/-! ## Update, decay and refresh -/

/-- Decay(e) (R106): above CEIL, every count and the total are halved once, with floor. -/
def decay (ceil : BitVec 15) (e : Entry) : Entry :=
  if ceil.toNat < e.tot.toNat then { e with cnt := mapVec (fun c => c / 2) e.cnt, tot := e.tot / 2 } else e

/-- The update of one entry by one symbol (R105). -/
def touch (ceil : BitVec 15) (sym : Byte) (e : Entry) : Entry :=
  decay ceil
    { e with
      cnt := e.cnt.set sym.toNat (e.cnt[sym.toNat] + 1)
      tot := e.tot + 1
      hot := true }

/-- Update(sym) (R105): the entry of every active slot at its index before any change (R102). -/
def update (s : State) (sym : Byte) : State :=
  { s with mem := (activeSlots s).foldl (fun m k => m.put (slotKey s k) (touch s.ceil sym (m.get (slotKey s k)))) s.mem }

/-- Quant(c, t) (R107): the rounded, clamped probability of a count. -/
def quant (c t : Nat) : Nat :=
  min (max (((2 * c + 1) * 255 + (t + 1)) / (2 * (t + 1))) Config.pmin) Config.pmax

/-- Requantization of an entry if it is hot (R108). -/
def requant (e : Entry) : Entry :=
  if e.hot then { e with prob := mapVec (fun c => BitVec.ofNat 8 (quant c.toNat e.tot.toNat)) e.cnt, hot := false } else e

/-- Refresh() (R108): every hot entry of every slot, active or not (20_memory.md R76); SYMCNT becomes 0. -/
def refresh (s : State) : State := { s with mem := s.mem.mapEntries requant, symcnt := 0 }

/-- HistShift(sym) (R109). -/
def histShift (s : State) (sym : Byte) : State :=
  { s with
    hist := tabulate 32 (fun j => if j = 0 then sym else histByte s (j - 1))
    histValid := BitVec.ofNat 6 (min (s.histValid.toNat + 1) 32) }

/-- SYMCNT counts the symbol, and reaching RINT refreshes (the last two lines of R110). -/
def countSymbol (s : State) : State :=
  let n := s.symcnt + 1
  let due := decide (s.rint ≤ n)
  { s with mem := if due then (refresh s).mem else s.mem, symcnt := if due then (refresh s).symcnt else n }

/-- Tail(sym) (R110): the work after a symbol, shared by LEARN, ENC_SYM and DEC_SYM. -/
def tail (s : State) (sym : Byte) : State := countSymbol (histShift (update s sym) sym)

/-! ## The predictor commands -/

/-- TBL_CLEAR (R114): every entry returns to its initial content. -/
def execTblClear (s : State) : Result := .next (complete { s with mem := [] })

/-- CTX_CLEAR (R115): the history is emptied. -/
def execCtxClear (s : State) : Result :=
  .next (complete { s with hist := Vector.replicate 32 0, histValid := 0 })

/-- REFRESH (R113). -/
def execRefresh (s : State) : Result := .next (complete (refresh s))

/-- PREDICT (R111). It raises no fault, even when TOTAL = 0. -/
def execPredict (s : State) : Result := .next (complete (predict s))

/-- LEARN sym (R112). -/
def execLearn (sym : Byte) (s : State) : Result := .next (complete (tail s sym))

end Sys2Proof.Machine
end

