-- ==== Sys2Proof/Machine/Encoder.lean ====
section
/-! DEFINITION. The arithmetic encoder (41_encoder.md): its shared functions R130 to R135, then the meanings of
ENC_START, ENC_SYM and ENC_FLUSH. `renormCase` and `shiftBounds` are shared with the decoder. -/

namespace Sys2Proof.Machine

/-! ## Bit output -/

/-- EmitBit(b) (R131): the first bit of a byte is its bit 7. The eighth bit completes the byte, and OCNT, 0..7, wraps
to 0. -/
def emitBit (b : Bool) (s : State) : State :=
  let o : Byte := s.obuf <<< 1 ||| (if b then 1 else 0)
  let full := s.ocnt == 7
  { s with
    obuf := if full then 0 else o
    ocnt := s.ocnt + 1
    bitcnt := s.bitcnt + 1
    outq := if full then s.outq ++ [o] else s.outq }

/-- `EmitBit(b)` n times. -/
def emitMany (b : Bool) : Nat → State → State
  | 0, s => s
  | n + 1, s => emitMany b n (emitBit b s)

/-- EmitPend(b) (R133): the bit, then its pending complements. -/
def emitPend (b : Bool) (s : State) : State :=
  { emitMany (!b) s.pending.toNat (emitBit b s) with pending := 0 }

/-! ## Narrowing -/

/-- Narrow(lo, hi, lc, hc, T) (R132), on exact integers with the results truncated to 32 bits. -/
def narrow (lo hi : Word) (lc hc t : Nat) : Word × Word :=
  let r := hi.toNat + 1 - lo.toNat
  let nl := lo.toNat + r * lc / t
  let nh := lo.toNat + r * hc / t - 1
  let nh := if nh ≤ nl then nl + 1 else nh
  (BitVec.ofNat 32 nl, BitVec.ofNat 32 nh)

/-! ## Renormalization -/

/-- The cases of a renormalization pass (R134, 42_decoder.md R155, R156): top bits both 0, both 1, the underflow case,
or the end of the loop. -/
inductive RenormCase where
  | e1
  | e2
  | e3
  | done
deriving DecidableEq, Repr

/-- The case that the bounds select (R134). -/
def renormCase (lo hi : Word) : RenormCase :=
  if hi.toNat < Config.half then .e1
  else if Config.half ≤ lo.toNat then .e2
  else if Config.quarter ≤ lo.toNat ∧ hi.toNat < Config.threeq then .e3
  else .done

/-- What a pass subtracts from the bounds before it shifts them (R134). -/
def renormOffset : RenormCase → Word
  | .e1 => 0
  | .e2 => BitVec.ofNat 32 Config.half
  | .e3 => BitVec.ofNat 32 Config.quarter
  | .done => 0

/-- LOW after a pass: the offset subtracted, a 0 shifted in (R134). -/
def lowNext (c : RenormCase) (lo : Word) : Word := (lo - renormOffset c) <<< 1

/-- HIGH after a pass: the offset subtracted, a 1 shifted in (R134). -/
def highNext (c : RenormCase) (hi : Word) : Word := (hi - renormOffset c) <<< 1 ||| 1#32

/-- The bounds' part of a pass on the state. -/
def shiftBounds (c : RenormCase) (s : State) : State :=
  { s with low := lowNext c s.low, high := highNext c s.high }

/-- RenormEnc() (R134), in at most `n` passes, with whether it stopped with OVF: an underflow pass that finds
PENDING = 2^32 - 1 (R135). -/
def renormEnc : Nat → State → State × Bool
  | 0, s => (s, false)
  | n + 1, s =>
    match renormCase s.low s.high with
    | .e1 => renormEnc n (shiftBounds .e1 (emitPend false s))
    | .e2 => renormEnc n (shiftBounds .e2 (emitPend true s))
    | .e3 =>
      if s.pending = Config.top then (s, true)
      else renormEnc n (shiftBounds .e3 { s with pending := s.pending + 1 })
    | .done => (s, false)

/-! ## The encoder commands -/

/-- ENC_START (R136). -/
def execEncStart (s : State) : Result :=
  .next (complete
    { s with
      low := 0, high := Config.top, pending := 0, obuf := 0, ocnt := 0, bitcnt := 0, streamSyms := 0, mode := .enc })

/-- The interval of the symbol in the distribution just computed (R137, R132). -/
def encNarrow (p : State) (sym : Byte) : Word × Word :=
  narrow p.low p.high (cum p sym) (cum p sym + freq p sym) p.total.toNat

/-- The state in which renormalization starts: the interval narrowed to the symbol (R137). -/
def encNarrowed (p : State) (sym : Byte) : State :=
  { p with low := (encNarrow p sym).1, high := (encNarrow p sym).2 }

/-- The end of ENC_SYM after renormalization: PENDING_OVF, or Tail and the symbol count (R137). -/
def encFinish (sym : Byte) : State × Bool → State
  | (s, true) => raiseFault .pendingOvf s
  | (s, false) => let t := tail s sym; { t with streamSyms := t.streamSyms + 1 }

/-- ENC_SYM sym (R137). Its mode, ENC, is checked when the command is accepted (`cmdWrite`). -/
def execEncSym (sym : Byte) (s : State) : Result :=
  let p := predict s
  if p.total = 0 then .next (complete (raiseFault .invalidDist p))
  else .next (complete (encFinish sym (renormEnc Config.renormPasses (encNarrowed p sym))))

/-- The flush bits of R138: b, then PENDING + 1 complements. -/
def flushBits (s : State) : State :=
  let b := decide (Config.quarter ≤ s.low.toNat)
  { emitMany (!b) (s.pending.toNat + 1) (emitBit b s) with pending := 0 }

/-- Zero bits up to a byte boundary (R138): from OCNT bits in the packer, 8 - OCNT of them, or none. -/
def padByte (s : State) : State := emitMany false ((8 - s.ocnt.toNat) % 8) s

/-- ENC_FLUSH (R138). -/
def execEncFlush (s : State) : Result := .next (complete { padByte (flushBits s) with mode := .idle })

end Sys2Proof.Machine
end

