-- ==== Sys2Proof/Machine/Decoder.lean ====
section
/-! DEFINITION. The arithmetic decoder (42_decoder.md): its shared functions R151 to R156, then the meanings of
DEC_START, DEC_SYM and DEC_END. -/

namespace Sys2Proof.Machine

/-! ## Bit input -/

/-- Take the next bit of a loaded reader (R151): bit 7 of each byte first. -/
def takeBit (s : State) : Bool × State :=
  (s.rbuf.getLsbD (s.rcnt - 1).toNat, { s with rcnt := s.rcnt - 1, bitcnt := s.bitcnt + 1 })

/-- ReadBit() (R151): a bit of the reader, of the next input byte, or a phantom 0. -/
def readBit (s : State) : Bool × State :=
  if s.rcnt = 0 then
    match s.inq with
    | b :: rest => takeBit { s with rbuf := b, rcnt := 8, inq := rest }
    | [] => (false, { s with phantom := s.phantom + 1, bitcnt := s.bitcnt + 1 })
  else takeBit s

/-- CODE ← 2·CODE + ReadBit() (R155, R158). -/
def shiftCode (s : State) : State :=
  let r := readBit s
  { r.2 with code := s.code <<< 1 ||| (if r.1 then 1#32 else 0#32) }

/-- `shiftCode` n times (R158). -/
def shiftCodeMany : Nat → State → State
  | 0, s => s
  | n + 1, s => shiftCodeMany n (shiftCode s)

/-! ## Enabling -/

/-- The outcomes of R152, "enabled" and "phantom bits" being both `enough`. -/
inductive InputCheck where
  | enough
  | held
  | truncated
deriving DecidableEq, Repr

/-- The table of R152: n bits needed, a bits available, the phantom bits already supplied, and EOI. -/
def inputCheck (n a phantom : Nat) (eoi : Bool) : InputCheck :=
  if n ≤ a then .enough
  else if !eoi then .held
  else if phantom + (n - a) ≤ Config.phantomMax then .enough
  else .truncated

/-- A of R152: the bits the reader and INQ hold. -/
def bitsAvailable (s : State) : Nat := s.rcnt.toNat + 8 * s.inq.length

/-- RenormSteps(lo, hi) (R156), in at most `n` passes. -/
def renormSteps : Nat → Word → Word → Nat
  | 0, _, _ => 0
  | n + 1, lo, hi =>
    match renormCase lo hi with
    | .done => 0
    | c => renormSteps n (lowNext c lo) (highNext c hi) + 1

/-- RenormDec() (R155), in at most `n` passes. -/
def renormDec : Nat → State → State
  | 0, s => s
  | n + 1, s =>
    match renormCase s.low s.high with
    | .done => s
    | c => renormDec n (shiftCode (shiftBounds c { s with code := s.code - renormOffset c }))

/-! ## Symbol search -/

/-- The target (R153). -/
def target (p : State) : Nat :=
  ((p.code.toNat + 1 - p.low.toNat) * p.total.toNat - 1) / (p.high.toNat + 1 - p.low.toNat)

/-- Linear search of the cumulative distribution (R154): the first symbol, from number `sym` on, whose range ends above
the target, `lo` being the sum of the scores before it. -/
def searchSym (t : Nat) : List (BitVec 22) → Nat → Nat → Option Nat
  | [], _, _ => none
  | c :: l, lo, sym => if t < lo + c.toNat then some sym else searchSym t l (lo + c.toNat) (sym + 1)

/-- The symbol whose cumulative range holds the target (R154). One exists whenever target < TOTAL, which holds in every
reachable DEC state (R153, R164); where no symbol's range holds the target, the model takes 255 (DESIGN CHOICE,
assumption 16). -/
def symbolAt (p : State) (t : Nat) : Byte := BitVec.ofNat 8 ((searchSym t p.score.toList 0 0).getD 255)

/-- What DEC_SYM does once the distribution is computed (R159). -/
inductive DecPlan where
  | invalidDist
  | held
  | truncated
  | run (sym : Byte) (lo hi : Word)
deriving DecidableEq, Repr

/-- The decision of R159, on the state with the distribution computed: INVALID_DIST is checked before the bits
(60_exceptions.md R228), then the table of R152 applies with the step count of the narrowed interval. -/
def decPlan (p : State) : DecPlan :=
  if p.total = 0 then .invalidDist
  else
    let sym := symbolAt p (target p)
    let b := encNarrow p sym
    match inputCheck (renormSteps Config.renormPasses b.1 b.2) (bitsAvailable p) p.phantom.toNat p.eoi with
    | .held => .held
    | .truncated => .truncated
    | .enough => .run sym b.1 b.2

/-! ## The decoder commands -/

/-- The input check of DEC_START (R152, R158): 32 bits, the reader and PHANTOM taken as cleared. -/
def decStartCheck (s : State) : InputCheck := inputCheck 32 (8 * s.inq.length) 0 s.eoi

/-- The reader and PHANTOM cleared (R158). -/
def clearReader (s : State) : State := { s with rbuf := 0, rcnt := 0, phantom := 0 }

/-- The loading of the coder by DEC_START (R158). -/
def decLoad (s : State) : State :=
  { shiftCodeMany 32 { clearReader s with low := 0, high := Config.top, bitcnt := 0, code := 0 } with
    streamSyms := 0, rsym := 0, rvalid := false, mode := .dec }

/-- DEC_START (R158). Held for input, it has no effect (R152). -/
def execDecStart (s : State) : Result :=
  match decStartCheck s with
  | .held => .next s
  | .truncated => .next (complete (raiseFault .truncated (clearReader s)))
  | .enough => .next (complete (decLoad s))

/-- The decoding of a symbol once its interval is known (R159). -/
def decRun (p : State) (sym : Byte) (lo hi : Word) : State :=
  let s := renormDec Config.renormPasses { p with low := lo, high := hi }
  let t := tail { s with rsym := sym, rvalid := true } sym
  { t with streamSyms := t.streamSyms + 1 }

/-- DEC_SYM (R159). Held for input, it has no effect, SCORE and TOTAL included. -/
def execDecSym (s : State) : Result :=
  let p := predict s
  match decPlan p with
  | .invalidDist => .next (complete (raiseFault .invalidDist p))
  | .held => .next s
  | .truncated => .next (complete (raiseFault .truncated p))
  | .run sym lo hi => .next (complete (decRun p sym lo hi))

/-- DEC_END (R160). -/
def execDecEnd (s : State) : Result := .next (complete (leaveStream s))

end Sys2Proof.Machine
end

