-- ==== Sys2Proof/Machine/Operands.lean ====
section
/-! DEFINITION. Register operands: the fields of DIAG_SEL, the legal ranges of the configuration registers, the masks
of the registers, and which registers a command may write (the "Writes" line of its rule). The operand SYM of a command
word is read by the decoder (30_encoding.md R81). -/

namespace Sys2Proof.Machine

/-! ## DIAG_SEL (10_state.md R43) -/

/-- Slot k, bits 30:28. -/
def diagSlot (sel : Word) : Nat := (sel.extractLsb' 28 3).toNat

/-- Index i, bits 27:8. -/
def diagIndex (sel : Word) : Nat := (sel.extractLsb' 8 20).toNat

/-- Symbol s, bits 7:0. -/
def diagSym (sel : Word) : Nat := (sel.extractLsb' 0 8).toNat

/-- The value DIAG_SEL stores of a written one: bit 31 and the index bits at TABLE_BITS and above are stored as 0
(44_host_access.md R204). -/
def diagStored (tableBits : Nat) (v : Word) : Word :=
  0#1 ++ (v.extractLsb' 28 3 ++ (BitVec.ofNat 20 (diagIndex v % 2 ^ tableBits) ++ v.extractLsb' 0 8))

/-! ## Legal configuration values (44_host_access.md R205): the whole 32-bit value is checked -/

/-- CFG_NORD: 1..8 (10_state.md R30). -/
def legalNord (v : Word) : Bool := decide (1 ≤ v.toNat ∧ v.toNat ≤ 8)

/-- CFG_CEIL: 1..32767 (R31). -/
def legalCeil (v : Word) : Bool := decide (1 ≤ v.toNat ∧ v.toNat ≤ 32767)

/-- CFG_RINT: 1..65535 (R32). -/
def legalRint (v : Word) : Bool := decide (1 ≤ v.toNat ∧ v.toNat ≤ 65535)

/-- ORDER[k]: 1..32 (R33). -/
def legalOrder (v : Word) : Bool := decide (1 ≤ v.toNat ∧ v.toNat ≤ 32)

/-- WEIGHT[k]: 0..2047 (R34). -/
def legalWeight (v : Word) : Bool := decide (v.toNat ≤ 2047)

/-! ## What a command may write (70_reset_and_hazards.md R255) -/

/-- The registers that show the table memory. -/
def showsTables : Reg → Bool
  | .diagData | .diagTotal => true
  | _ => false

/-- The registers that show the history, IDX[k] among them, being a function of it (10_state.md R44). -/
def showsHistory : Reg → Bool
  | .histValid | .hist _ | .idx _ => true
  | _ => false

/-- The registers that show the distribution. -/
def showsScores : Reg → Bool
  | .total | .scoreData => true
  | _ => false

/-- The registers that Tail writes (40_predictor.md R110, R112). -/
def tailWrites (r : Reg) : Bool := showsTables r || showsHistory r || r == .symcnt

/-- The registers of R255's list that the command may write, from the "Writes" line of its rule (assumption 17). Host
accesses never stand in PEND. -/
def mayWrite : Instr → Reg → Bool
  | .nop, _ => false
  | .softReset, r => tailWrites r || showsScores r || r ∈ [.result, .streamSyms, .bitcnt, .low, .high, .code, .pending, .phantom]
  | .tblClear, r => showsTables r
  | .ctxClear, r => showsHistory r
  | .refresh, r => showsTables r || r == .symcnt
  | .abort, r => r == .phantom
  | .predict, r => showsScores r
  | .learn _, r => tailWrites r
  | .encStart, r => r ∈ [.low, .high, .pending, .bitcnt, .streamSyms]
  | .encSym _, r => tailWrites r || showsScores r || r ∈ [.low, .high, .pending, .bitcnt, .streamSyms]
  | .encFlush, r => r ∈ [.bitcnt, .pending]
  | .decStart, r => r ∈ [.phantom, .low, .high, .code, .bitcnt, .streamSyms, .result]
  | .decSym, r => tailWrites r || showsScores r || r ∈ [.low, .high, .code, .phantom, .bitcnt, .result, .streamSyms]
  | .decEnd, r => r == .phantom
  | _, _ => false

/-- The bits of a register of R255's list that are not reserved: a free value's other bits read 0 (R255). -/
def regWidth (tableBits : Nat) : Reg → Nat
  | .result => 9
  | .total => 30
  | .symcnt => 16
  | .histValid => 6
  | .phantom => 5
  | .scoreData => 22
  | .diagData => 24
  | .diagTotal => 17
  | .idx _ => tableBits
  | _ => 32

end Sys2Proof.Machine
end

