-- ==== Sys2Proof/Machine/Flags.lean ====
section
/-! DEFINITION. The fields computed from other state: HOLD_IN and the enabling of the command in PEND, STATUS,
INT_STATUS and the IRQ line, and the value each register read returns (10_state.md, 44_host_access.md). -/

namespace Sys2Proof.Machine

/-- The command in PEND (10_state.md R50). -/
def pendCmd (s : State) : Option Instr := s.pend.bind (fun w => (decodeCmd w).toOption)

/-- HOLD_IN (10_state.md R48): PEND holds DEC_START or DEC_SYM, and it waits for input (42_decoder.md R152). -/
def holdIn (s : State) : Bool :=
  match pendCmd s with
  | some .decStart => decide (decStartCheck s = .held)
  | some .decSym => decide (decPlan (predict s) = .held)
  | _ => false

/-- The block step is enabled (43_control.md R176): PEND is not empty and its command is not held. -/
def blockEnabled (s : State) : Bool := s.pend.isSome && !holdIn s

/-- The MODE field's encoding (10_state.md R35). -/
def Mode.code : Mode → BitVec 2
  | .idle => 0
  | .enc => 1
  | .dec => 2
  | .fault => 3

/-- STATUS, field by field from bit 31 down (10_state.md R23). -/
def statusValue (s : State) : Word :=
  0#8 ++ (BitVec.ofBool (s.err != 0) ++ (0#2 ++ (BitVec.ofNat 5 (min s.outq.length s.params.outDepth) ++ (0#3 ++
    (BitVec.ofNat 5 s.inq.length ++ (0#3 ++ (BitVec.ofBool s.eoi ++ (BitVec.ofBool (holdIn s) ++
      (BitVec.ofBool (busy s) ++ s.mode.code)))))))))

/-- INT_STATUS bits 2:0, {OUT_AVAIL, ERROR, DONE} (10_state.md R25, 44_host_access.md R195). -/
def intBits (s : State) : BitVec 3 :=
  BitVec.ofBool (!s.outq.isEmpty) ++ (BitVec.ofBool s.error ++ BitVec.ofBool s.done)

/-- The IRQ line (10_state.md R49, 60_exceptions.md R233): a function of the state. -/
def irq (s : State) : Bool := (intBits s &&& s.intEnable) != 0

/-- PARAM, field by field from bit 31 down (10_state.md R22). -/
def paramValue (p : Params) : Word :=
  0#4 ++ (BitVec.ofNat 4 Config.maxOrders ++ (0#3 ++ (BitVec.ofNat 5 p.outDepth ++ (0#3 ++ (BitVec.ofNat 5 p.inDepth ++
    (0#3 ++ BitVec.ofNat 5 p.tableBits))))))

/-- The entry that DIAG_SEL selects (10_state.md R43). -/
def diagEntry (s : State) : Entry := s.entry (diagSlot s.diagSel) (diagIndex s.diagSel)

/-- HIST[j], four history bytes, the newest of them in bits 7:0 (44_host_access.md R201). -/
def histWord (s : State) (j : Nat) : Word :=
  histByte s (4 * j + 3) ++ (histByte s (4 * j + 2) ++ (histByte s (4 * j + 1) ++ histByte s (4 * j)))

/-- The value of a register, as a read returns it while no pending command may write it (44_host_access.md R191 to
R204). DOUT is not read through this: see `doutRead`. -/
def regValue (s : State) : Reg → Word
  | .id => Config.idValue
  | .version => Config.versionValue
  | .param => paramValue s.params
  | .cmd => 0
  | .status => statusValue s
  | .err => zext32 s.err
  | .intStatus => zext32 (intBits s)
  | .intEnable => zext32 s.intEnable
  | .din => 0
  | .eoi => 0
  | .dout => 0
  | .result => zext32 (BitVec.ofBool s.rvalid ++ s.rsym)
  | .total => zext32 s.total
  | .symcnt => zext32 s.symcnt
  | .streamSyms => s.streamSyms
  | .bitcnt => s.bitcnt
  | .low => s.low
  | .high => s.high
  | .code => s.code
  | .pending => s.pending
  | .histValid => zext32 s.histValid
  | .phantom => zext32 s.phantom
  | .cfgNord => zext32 s.nord
  | .cfgCeil => zext32 s.ceil
  | .cfgRint => zext32 s.rint
  | .scoreIdx => zext32 s.scoreIdx
  | .scoreData => zext32 (s.score[s.scoreIdx.toNat]?.getD 0)
  | .diagSel => s.diagSel
  | .diagData =>
    0#8 ++ ((diagEntry s).cnt[diagSym s.diagSel]?.getD 0 ++ (diagEntry s).prob[diagSym s.diagSel]?.getD 0)
  | .diagTotal => 0#15 ++ (BitVec.ofBool (diagEntry s).hot ++ (diagEntry s).tot)
  | .order k => zext32 s.order[k]
  | .weight k => zext32 s.weight[k]
  | .hist j => histWord s j.val
  | .idx k => BitVec.ofNat 32 (indexOf s k)

/-- A read of this register is unspecified: the command in PEND may write it (70_reset_and_hazards.md R255). -/
def readOpen (s : State) (r : Reg) : Bool :=
  match pendCmd s with
  | some i => mayWrite i r
  | none => false

end Sys2Proof.Machine
end

