-- ==== Sys2Proof/Machine/Control.lean ====
section
/-! DEFINITION. Acceptance of a command word (43_control.md R170, with the mode legality of 30_encoding.md R89), and the
control commands NOP, SOFT_RESET and ABORT (43_control.md R172 to R174). -/

namespace Sys2Proof.Machine

/-- The modes in which a command is accepted (30_encoding.md R89). Host accesses are no commands. -/
def modeAllows : Instr → Mode → Bool
  | .nop, _ | .softReset, _ | .abort, _ => true
  | .tblClear, m | .ctxClear, m | .refresh, m | .predict, m | .learn _, m => m != .fault
  | .encStart, m | .decStart, m => m == .idle
  | .encSym _, m | .encFlush, m => m == .enc
  | .decSym, m | .decEnd, m => m == .dec
  | _, _ => false

/-- CmdWrite(w) (R170): SOFT_RESET acts at once in every state; then CMD_OVERRUN, ILLEGAL_CMD and MODE_ERR, in this
order; else the word is accepted into PEND. The mode of a command is checked here and not when it executes: MODE does
not change while a command is in PEND (assumption 11). -/
def cmdWrite (w : Word) (s : State) : State :=
  if w = 0x01000000#32 then resetBlock s
  else if busy s then reject .cmdOverrun s
  else match decodeCmd w with
    | .error _ => reject .illegalCmd s
    | .ok i => if modeAllows i s.mode then { s with pend := some w } else reject .modeErr s

/-- NOP (R172). -/
def execNop (s : State) : Result := .next (complete s)

/-- SOFT_RESET (R173). It is performed at the CMD write (`cmdWrite`) and never enters PEND; it sets no DONE (R171). -/
def execSoftReset (s : State) : Result := .next (resetBlock s)

/-- ABORT (R174): the stream is left, and the partial output byte is dropped. -/
def execAbort (s : State) : Result := .next (complete { leaveStream s with obuf := 0, ocnt := 0 })

end Sys2Proof.Machine
end

