-- ==== Sys2Proof/Machine/HostAccess.lean ====
section
/-! DEFINITION. The host register accesses (44_host_access.md): the shared operations of a read, a DOUT read, a DIN
write and a configuration write, then one meaning per row. A write to a read-only register is ignored, and a write-only
register reads 0 (20_memory.md R66). -/

namespace Sys2Proof.Machine

/-! ## Shared operations -/

/-- A read returns a value to the host. -/
def hostRead (v : Word) (s : State) : State := { s with reads := v :: s.reads }

/-- A read of a register (R190 to R204). While the command in PEND may write the register, the value is a free one, its
reserved bits 0 (70_reset_and_hazards.md R255; assumption 3). -/
def readReg (r : Reg) (s : State) : State :=
  if readOpen s r then
    hostRead (lowBits (regWidth s.params.tableBits r) (Config.freeWord s.draws)) { s with draws := s.draws + 1 }
  else hostRead (regValue s r) s

/-- HostRead(DOUT) (R199): it pops OUTQ, and sets DONE where the pop makes BUSY fall. -/
def doutRead (s : State) : State :=
  match s.outq with
  | [] => hostRead 0 s
  | b :: rest =>
    hostRead (0x100#32 ||| zext32 b)
      { s with outq := rest, done := s.done || (s.pend.isNone && rest.length == s.params.outDepth) }

/-- HostWrite(DIN, v) (R197). -/
def dinWrite (v : Word) (s : State) : State :=
  if s.eoi then reject .dinAfterEoi s
  else if s.params.inDepth ≤ s.inq.length then reject .dinOvf s
  else { s with inq := s.inq ++ [v.extractLsb' 0 8] }

/-- A configuration write (R205): refused unless MODE = IDLE, BUSY = 0 and the value is legal; else `t`, the state with
the register written. -/
def cfgWrite (legal : Bool) (t s : State) : State :=
  if s.mode ≠ .idle ∨ busy s ∨ legal = false then reject .cfgErr s else t

/-! ## One meaning per row -/

/-- RD ID (R191). -/
def execRdId (s : State) : Result := .next (readReg .id s)

/-- WR ID (R191): ignored. -/
def execWrId (_v : Word) (s : State) : Result := .next s

/-- RD VERSION (R191). -/
def execRdVersion (s : State) : Result := .next (readReg .version s)

/-- WR VERSION (R191): ignored. -/
def execWrVersion (_v : Word) (s : State) : Result := .next s

/-- RD PARAM (R191). -/
def execRdParam (s : State) : Result := .next (readReg .param s)

/-- WR PARAM (R191): ignored. -/
def execWrParam (_v : Word) (s : State) : Result := .next s

/-- RD CMD (R192): reads 0. -/
def execRdCmd (s : State) : Result := .next (readReg .cmd s)

/-- WR CMD: CmdWrite(v) (R192, 43_control.md R170). -/
def execWrCmd (v : Word) (s : State) : Result :=
  .next (cmdWrite v s)

/-- RD STATUS (R193). -/
def execRdStatus (s : State) : Result := .next (readReg .status s)

/-- WR STATUS (R193): ignored. -/
def execWrStatus (_v : Word) (s : State) : Result := .next s

/-- RD ERR (R194). -/
def execRdErr (s : State) : Result := .next (readReg .err s)

/-- WR ERR: a written 1 clears its ERR bit (R194). -/
def execWrErr (v : Word) (s : State) : Result :=
  .next { s with err := s.err &&& ~~~(v.extractLsb' 0 9) }

/-- RD INT_STATUS (R195). -/
def execRdIntStatus (s : State) : Result := .next (readReg .intStatus s)

/-- WR INT_STATUS: a written 1 in bit 0 or 1 clears DONE or ERROR (R195). -/
def execWrIntStatus (v : Word) (s : State) : Result :=
  .next { s with done := s.done && !v.getLsbD 0, error := s.error && !v.getLsbD 1 }

/-- RD INT_ENABLE (R196). -/
def execRdIntEnable (s : State) : Result := .next (readReg .intEnable s)

/-- WR INT_ENABLE: bits 2:0 are stored (R196). -/
def execWrIntEnable (v : Word) (s : State) : Result :=
  .next { s with intEnable := v.extractLsb' 0 3 }

/-- RD DIN (R197): reads 0. -/
def execRdDin (s : State) : Result := .next (readReg .din s)

/-- WR DIN: a byte for INQ (R197). -/
def execWrDin (v : Word) (s : State) : Result :=
  .next (dinWrite v s)

/-- RD EOI (R198): reads 0. -/
def execRdEoi (s : State) : Result := .next (readReg .eoi s)

/-- WR EOI: any write sets EOI (R198). -/
def execWrEoi (_v : Word) (s : State) : Result :=
  .next { s with eoi := true }

/-- RD DOUT (R199): the only read with a side effect on the block (20_memory.md R65). -/
def execRdDout (s : State) : Result := .next (doutRead s)

/-- WR DOUT (R199): ignored. -/
def execWrDout (_v : Word) (s : State) : Result := .next s

/-- RD RESULT (R200). -/
def execRdResult (s : State) : Result := .next (readReg .result s)

/-- WR RESULT (R200): ignored. -/
def execWrResult (_v : Word) (s : State) : Result := .next s

/-- RD TOTAL (R200). -/
def execRdTotal (s : State) : Result := .next (readReg .total s)

/-- WR TOTAL (R200): ignored. -/
def execWrTotal (_v : Word) (s : State) : Result := .next s

/-- RD SYMCNT (R200). -/
def execRdSymcnt (s : State) : Result := .next (readReg .symcnt s)

/-- WR SYMCNT (R200): ignored. -/
def execWrSymcnt (_v : Word) (s : State) : Result := .next s

/-- RD STREAM_SYMS (R200). -/
def execRdStreamSyms (s : State) : Result := .next (readReg .streamSyms s)

/-- WR STREAM_SYMS (R200): ignored. -/
def execWrStreamSyms (_v : Word) (s : State) : Result := .next s

/-- RD BITCNT (R200). -/
def execRdBitcnt (s : State) : Result := .next (readReg .bitcnt s)

/-- WR BITCNT (R200): ignored. -/
def execWrBitcnt (_v : Word) (s : State) : Result := .next s

/-- RD LOW (R200). -/
def execRdLow (s : State) : Result := .next (readReg .low s)

/-- WR LOW (R200): ignored. -/
def execWrLow (_v : Word) (s : State) : Result := .next s

/-- RD HIGH (R200). -/
def execRdHigh (s : State) : Result := .next (readReg .high s)

/-- WR HIGH (R200): ignored. -/
def execWrHigh (_v : Word) (s : State) : Result := .next s

/-- RD CODE (R200). -/
def execRdCode (s : State) : Result := .next (readReg .code s)

/-- WR CODE (R200): ignored. -/
def execWrCode (_v : Word) (s : State) : Result := .next s

/-- RD PENDING (R200). -/
def execRdPending (s : State) : Result := .next (readReg .pending s)

/-- WR PENDING (R200): ignored. -/
def execWrPending (_v : Word) (s : State) : Result := .next s

/-- RD HIST_VALID (R200). -/
def execRdHistValid (s : State) : Result := .next (readReg .histValid s)

/-- WR HIST_VALID (R200): ignored. -/
def execWrHistValid (_v : Word) (s : State) : Result := .next s

/-- RD PHANTOM (R200). -/
def execRdPhantom (s : State) : Result := .next (readReg .phantom s)

/-- WR PHANTOM (R200): ignored. -/
def execWrPhantom (_v : Word) (s : State) : Result := .next s

/-- RD CFG_NORD (R205). -/
def execRdCfgNord (s : State) : Result := .next (readReg .cfgNord s)

/-- WR CFG_NORD (R205). -/
def execWrCfgNord (v : Word) (s : State) : Result :=
  .next (cfgWrite (legalNord v) { s with nord := v.setWidth 4 } s)

/-- RD CFG_CEIL (R205). -/
def execRdCfgCeil (s : State) : Result := .next (readReg .cfgCeil s)

/-- WR CFG_CEIL (R205). -/
def execWrCfgCeil (v : Word) (s : State) : Result :=
  .next (cfgWrite (legalCeil v) { s with ceil := v.setWidth 15 } s)

/-- RD CFG_RINT (R205). -/
def execRdCfgRint (s : State) : Result := .next (readReg .cfgRint s)

/-- WR CFG_RINT (R205). -/
def execWrCfgRint (v : Word) (s : State) : Result :=
  .next (cfgWrite (legalRint v) { s with rint := v.setWidth 16 } s)

/-- RD SCORE_IDX (R203). -/
def execRdScoreIdx (s : State) : Result := .next (readReg .scoreIdx s)

/-- WR SCORE_IDX: bits 7:0 are stored (R203). -/
def execWrScoreIdx (v : Word) (s : State) : Result :=
  .next { s with scoreIdx := v.extractLsb' 0 8 }

/-- RD SCORE_DATA (R203). -/
def execRdScoreData (s : State) : Result := .next (readReg .scoreData s)

/-- WR SCORE_DATA (R203): ignored. -/
def execWrScoreData (_v : Word) (s : State) : Result := .next s

/-- RD DIAG_SEL (R204). -/
def execRdDiagSel (s : State) : Result := .next (readReg .diagSel s)

/-- WR DIAG_SEL: the masked value is stored (R204). -/
def execWrDiagSel (v : Word) (s : State) : Result :=
  .next { s with diagSel := diagStored s.params.tableBits v }

/-- RD DIAG_DATA (R204). -/
def execRdDiagData (s : State) : Result := .next (readReg .diagData s)

/-- WR DIAG_DATA (R204): ignored. -/
def execWrDiagData (_v : Word) (s : State) : Result := .next s

/-- RD DIAG_TOTAL (R204). -/
def execRdDiagTotal (s : State) : Result := .next (readReg .diagTotal s)

/-- WR DIAG_TOTAL (R204): ignored. -/
def execWrDiagTotal (_v : Word) (s : State) : Result := .next s

/-- RD ORDER[k] (R205). -/
def execRdOrder (k : Fin 8) (s : State) : Result := .next (readReg (.order k) s)

/-- WR ORDER[k] (R205). -/
def execWrOrder (k : Fin 8) (v : Word) (s : State) : Result :=
  .next (cfgWrite (legalOrder v) { s with order := s.order.set k (v.setWidth 6) } s)

/-- RD WEIGHT[k] (R205). -/
def execRdWeight (k : Fin 8) (s : State) : Result := .next (readReg (.weight k) s)

/-- WR WEIGHT[k] (R205). -/
def execWrWeight (k : Fin 8) (v : Word) (s : State) : Result :=
  .next (cfgWrite (legalWeight v) { s with weight := s.weight.set k (v.setWidth 11) } s)

/-- RD HIST[j] (R201). -/
def execRdHist (j : Fin 8) (s : State) : Result := .next (readReg (.hist j) s)

/-- WR HIST[j] (R201): ignored. -/
def execWrHist (_j : Fin 8) (_v : Word) (s : State) : Result := .next s

/-- RD IDX[k] (R202). -/
def execRdIdx (k : Fin 8) (s : State) : Result := .next (readReg (.idx k) s)

/-- WR IDX[k] (R202): ignored. -/
def execWrIdx (_k : Fin 8) (_v : Word) (s : State) : Result := .next s

/-- An access to an unmapped offset (20_memory.md R66): a read returns 0, a write is ignored, and no ERR bit is set. -/
def execUnmapped (_off : BitVec 12) (kind : AccessKind) (s : State) : Result :=
  match kind with
  | .read => .next (hostRead 0 s)
  | .write _ => .next s

end Sys2Proof.Machine
end

