-- ==== Sys2Proof/Machine/Dispatch.lean ====
section
/-! DEFINITION. One arm per operation. -/

namespace Sys2Proof.Machine

def exec (i : Instr) (s : State) : Host.Outcome State Fault Refusal :=
  match i with
  | .nop => Sys2Proof.Machine.execNop s
  | .softReset => Sys2Proof.Machine.execSoftReset s
  | .tblClear => Sys2Proof.Machine.execTblClear s
  | .ctxClear => Sys2Proof.Machine.execCtxClear s
  | .refresh => Sys2Proof.Machine.execRefresh s
  | .abort => Sys2Proof.Machine.execAbort s
  | .predict => Sys2Proof.Machine.execPredict s
  | .learn sym => Sys2Proof.Machine.execLearn sym s
  | .encStart => Sys2Proof.Machine.execEncStart s
  | .encSym sym => Sys2Proof.Machine.execEncSym sym s
  | .encFlush => Sys2Proof.Machine.execEncFlush s
  | .decStart => Sys2Proof.Machine.execDecStart s
  | .decSym => Sys2Proof.Machine.execDecSym s
  | .decEnd => Sys2Proof.Machine.execDecEnd s
  | .rdId => Sys2Proof.Machine.execRdId s
  | .wrId v => Sys2Proof.Machine.execWrId v s
  | .rdVersion => Sys2Proof.Machine.execRdVersion s
  | .wrVersion v => Sys2Proof.Machine.execWrVersion v s
  | .rdParam => Sys2Proof.Machine.execRdParam s
  | .wrParam v => Sys2Proof.Machine.execWrParam v s
  | .rdCmd => Sys2Proof.Machine.execRdCmd s
  | .wrCmd v => Sys2Proof.Machine.execWrCmd v s
  | .rdStatus => Sys2Proof.Machine.execRdStatus s
  | .wrStatus v => Sys2Proof.Machine.execWrStatus v s
  | .rdErr => Sys2Proof.Machine.execRdErr s
  | .wrErr v => Sys2Proof.Machine.execWrErr v s
  | .rdIntStatus => Sys2Proof.Machine.execRdIntStatus s
  | .wrIntStatus v => Sys2Proof.Machine.execWrIntStatus v s
  | .rdIntEnable => Sys2Proof.Machine.execRdIntEnable s
  | .wrIntEnable v => Sys2Proof.Machine.execWrIntEnable v s
  | .rdDin => Sys2Proof.Machine.execRdDin s
  | .wrDin v => Sys2Proof.Machine.execWrDin v s
  | .rdEoi => Sys2Proof.Machine.execRdEoi s
  | .wrEoi v => Sys2Proof.Machine.execWrEoi v s
  | .rdDout => Sys2Proof.Machine.execRdDout s
  | .wrDout v => Sys2Proof.Machine.execWrDout v s
  | .rdResult => Sys2Proof.Machine.execRdResult s
  | .wrResult v => Sys2Proof.Machine.execWrResult v s
  | .rdTotal => Sys2Proof.Machine.execRdTotal s
  | .wrTotal v => Sys2Proof.Machine.execWrTotal v s
  | .rdSymcnt => Sys2Proof.Machine.execRdSymcnt s
  | .wrSymcnt v => Sys2Proof.Machine.execWrSymcnt v s
  | .rdStreamSyms => Sys2Proof.Machine.execRdStreamSyms s
  | .wrStreamSyms v => Sys2Proof.Machine.execWrStreamSyms v s
  | .rdBitcnt => Sys2Proof.Machine.execRdBitcnt s
  | .wrBitcnt v => Sys2Proof.Machine.execWrBitcnt v s
  | .rdLow => Sys2Proof.Machine.execRdLow s
  | .wrLow v => Sys2Proof.Machine.execWrLow v s
  | .rdHigh => Sys2Proof.Machine.execRdHigh s
  | .wrHigh v => Sys2Proof.Machine.execWrHigh v s
  | .rdCode => Sys2Proof.Machine.execRdCode s
  | .wrCode v => Sys2Proof.Machine.execWrCode v s
  | .rdPending => Sys2Proof.Machine.execRdPending s
  | .wrPending v => Sys2Proof.Machine.execWrPending v s
  | .rdHistValid => Sys2Proof.Machine.execRdHistValid s
  | .wrHistValid v => Sys2Proof.Machine.execWrHistValid v s
  | .rdPhantom => Sys2Proof.Machine.execRdPhantom s
  | .wrPhantom v => Sys2Proof.Machine.execWrPhantom v s
  | .rdCfgNord => Sys2Proof.Machine.execRdCfgNord s
  | .wrCfgNord v => Sys2Proof.Machine.execWrCfgNord v s
  | .rdCfgCeil => Sys2Proof.Machine.execRdCfgCeil s
  | .wrCfgCeil v => Sys2Proof.Machine.execWrCfgCeil v s
  | .rdCfgRint => Sys2Proof.Machine.execRdCfgRint s
  | .wrCfgRint v => Sys2Proof.Machine.execWrCfgRint v s
  | .rdScoreIdx => Sys2Proof.Machine.execRdScoreIdx s
  | .wrScoreIdx v => Sys2Proof.Machine.execWrScoreIdx v s
  | .rdScoreData => Sys2Proof.Machine.execRdScoreData s
  | .wrScoreData v => Sys2Proof.Machine.execWrScoreData v s
  | .rdDiagSel => Sys2Proof.Machine.execRdDiagSel s
  | .wrDiagSel v => Sys2Proof.Machine.execWrDiagSel v s
  | .rdDiagData => Sys2Proof.Machine.execRdDiagData s
  | .wrDiagData v => Sys2Proof.Machine.execWrDiagData v s
  | .rdDiagTotal => Sys2Proof.Machine.execRdDiagTotal s
  | .wrDiagTotal v => Sys2Proof.Machine.execWrDiagTotal v s
  | .rdOrder k => Sys2Proof.Machine.execRdOrder k s
  | .wrOrder k v => Sys2Proof.Machine.execWrOrder k v s
  | .rdWeight k => Sys2Proof.Machine.execRdWeight k s
  | .wrWeight k v => Sys2Proof.Machine.execWrWeight k v s
  | .rdHist j => Sys2Proof.Machine.execRdHist j s
  | .wrHist j v => Sys2Proof.Machine.execWrHist j v s
  | .rdIdx k => Sys2Proof.Machine.execRdIdx k s
  | .wrIdx k v => Sys2Proof.Machine.execWrIdx k v s
  | .unmapped off kind => Sys2Proof.Machine.execUnmapped off kind s

end Sys2Proof.Machine
end

