-- ==== Sys2Proof/Machine/Fetch.lean ====
section
/-! DEFINITION. Which agent steps next and what it runs (43_control.md R176, 20_memory.md R69): the block, with the
command in PEND, or the environment, with its next event. -/

namespace Sys2Proof.Machine

/-- What the next step does. -/
inductive Fetched where
  /-- run an operation from a state -/
  | run (i : Instr) (s : State)
  /-- a step without operation: a change of the reset input, or no agent having a step -/
  | quiet (s : State)
  | refused (r : Refusal)
  | fault (f : Fault)

/-- The block steps next: its command is enabled and the next host event, if any, does not come before it; or its
command is held and no host event is left, so that nothing can change (R176, 70_reset_and_hazards.md R257). The reset
input holds the block in reset (R250). -/
def blockTurn (s : State) : Bool :=
  !s.resetPin && s.pend.isSome &&
    match s.hostq with
    | [] => true
    | ev :: _ => !ev.early && !holdIn s

/-- The block's step: the command in PEND. -/
def fetchBlock (s : State) (w : Word) : Fetched :=
  match decodeCmd w with
  | .ok i => .run i s
  | .error _ => .fault .pendNotACommand

/-- The environment's step: a bus access, refused if inadmissible (20_memory.md R63) or made during reset (RESET_ACCESS,
R250), or a change of the reset input. Asserting it gives the reset state (R250). -/
def fetchHost (act : HostAct) (s : State) : Fetched :=
  match act with
  | .access a =>
    if s.resetPin then .refused .accessDuringReset
    else match decodeAccess a with
      | .ok i => .run i s
      | .error e => .refused (.busError e)
  | .assertReset => .quiet { resetBlock s with resetPin := true }
  | .releaseReset => .quiet { s with resetPin := false }

/-- What runs next. With no event left and nothing in PEND, no agent has a step (R253, R260; assumption 14). -/
def fetch (s : State) : Fetched :=
  if blockTurn s then
    match s.pend with
    | some w => fetchBlock s w
    | none => .quiet s
  else match s.hostq with
    | ev :: rest => fetchHost ev.act { s with hostq := rest }
    | [] => .quiet s

end Sys2Proof.Machine
end

