-- ==== Sys2Proof/Machine/Step.lean ====
section
/-! DEFINITION. One step of the machine, and where a test places an operation. -/

namespace Sys2Proof.Machine

/-- One step of the block or of its environment (43_control.md R176, 20_memory.md R69). -/
def step (s : State) : Host.Outcome State Fault Refusal :=
  match fetch s with
  | .run i t => exec i t
  | .quiet t => .next t
  | .refused r => .refused r
  | .fault f => .fault f

/-- The state in which the next step runs the operation of a row's bits (assumptions 12 and 13): a command word stands
in PEND, with no host event before it; a host access is the next event, before the block's step. The reset input is
released. -/
def State.withFetchWord (s : State) (nbits w : Nat) : State :=
  if nbits = 32 then { s with pend := some (BitVec.ofNat 32 w), hostq := [], resetPin := false }
  else { s with hostq := { early := true, act := .access (accessOfBits w) } :: s.hostq, resetPin := false }

end Sys2Proof.Machine
end

