-- ==== Sys2Proof/Safety.lean ====
section
/-! DEFINITION. The terms that claims use: the invariant of a safe run, part by part, views of the coder's queues as
sequences of bits, and the reads that each pending command leaves open. -/

namespace Sys2Proof.Machine

/-! ## The invariant -/

/-- The synthesis parameters are in range (00_scope.md R8). -/
abbrev Params.legal (p : Params) : Prop :=
  1 ≤ p.tableBits ∧ p.tableBits ≤ 20 ∧ 4 ≤ p.inDepth ∧ p.inDepth ≤ 31 ∧ 1 ≤ p.outDepth ∧ p.outDepth ≤ 31

/-- Every configuration register holds a legal value (44_host_access.md R205); CEIL ≤ 32767, RINT ≤ 65535 and
WEIGHT[k] ≤ 2047 hold by width. -/
abbrev ConfigOk (s : State) : Prop :=
  s.params.legal ∧ 1 ≤ s.nord.toNat ∧ s.nord.toNat ≤ 8 ∧ 1 ≤ s.ceil.toNat ∧ 1 ≤ s.rint.toNat ∧
    ∀ o ∈ s.order.toList, 1 ≤ o.toNat ∧ o.toNat ≤ 32

/-- The invariants of one table entry (10_state.md R53): counts bounded by the total, the total by 32767, and
probabilities in 1..255. -/
abbrev Entry.ok (e : Entry) : Prop :=
  (∀ c ∈ e.cnt.toList, c.toNat ≤ e.tot.toNat) ∧ e.tot.toNat ≤ 32767 ∧ ∀ p ∈ e.prob.toList, 1 ≤ p.toNat

/-- The table memory is in canonical form, lists only entries that exist, and every entry keeps R53. -/
abbrev TablesOk (s : State) : Prop :=
  s.mem.wf ∧ ∀ c ∈ s.mem, c.2.ok ∧ c.1 < 8 * 2 ^ 20 ∧ c.1 % 2 ^ 20 < 2 ^ s.params.tableBits

/-- PEND is empty or holds a legal command other than SOFT_RESET that MODE allows (43_control.md R170). -/
abbrev PendOk (s : State) : Prop :=
  ∀ w ∈ s.pend, ∃ i ∈ (decodeCmd w).toOption, i ≠ .softReset ∧ modeAllows i s.mode = true

/-- Bounds of the queues, the reader, the history, SYMCNT and DIAG_SEL (10_state.md R36, R38, R39, R43, R45; 42_decoder.md
R158). -/
abbrev BoundsOk (s : State) : Prop :=
  s.inq.length ≤ s.params.inDepth ∧ s.phantom.toNat ≤ Config.phantomMax ∧ s.rcnt.toNat ≤ 8 ∧
    ((s.mode = .idle ∨ s.mode = .enc) → s.rcnt = 0 ∧ s.phantom = 0) ∧
    s.histValid.toNat ≤ 32 ∧ (∀ j : Fin 32, s.histValid.toNat ≤ j.val → s.hist[j] = 0) ∧
    s.symcnt.toNat ≤ 65534 ∧ diagStored s.params.tableBits s.diagSel = s.diagSel

/-- The bounds of a renormalized interval (41_encoder.md R134): it straddles the midpoint and is wider than a
quarter. -/
abbrev Renormalized (lo hi : Word) : Prop :=
  lo.toNat < Config.half ∧ Config.half ≤ hi.toNat ∧ (lo.toNat < Config.quarter ∨ Config.threeq ≤ hi.toNat)

/-- While a stream is open the interval is renormalized, and in a decode stream it holds CODE (42_decoder.md R164). -/
abbrev CoderOk (s : State) : Prop :=
  ((s.mode = .enc ∨ s.mode = .dec) → Renormalized s.low s.high) ∧
    (s.mode = .dec → s.low.toNat ≤ s.code.toNat ∧ s.code.toNat ≤ s.high.toNat)

/-- The invariant of the block. -/
structure Inv (s : State) : Prop where
  config : ConfigOk s
  tables : TablesOk s
  pend   : PendOk s
  bounds : BoundsOk s
  coder  : CoderOk s

/-! ## Bits -/

/-- The bits of a byte, bit 7 first (20_memory.md R62). -/
def byteBits (b : Byte) : List Bool := (List.range 8).map (fun j => b.getLsbD (7 - j))

/-- The OCNT bits held in the packer, oldest first (10_state.md R38). -/
def packerBits (s : State) : List Bool := (List.range s.ocnt.toNat).map (fun j => s.obuf.getLsbD (s.ocnt.toNat - 1 - j))

/-- Every coded bit in OUTQ and in the packer, oldest first (41_encoder.md R131). -/
def codedBits (s : State) : List Bool := s.outq.flatMap byteBits ++ packerBits s

/-- The RCNT unread bits of the reader, next one first (10_state.md R38). -/
def readerBits (s : State) : List Bool := (List.range s.rcnt.toNat).map (fun j => s.rbuf.getLsbD (s.rcnt.toNat - 1 - j))

/-- Every input bit in the reader and in INQ, next one first (42_decoder.md R151). -/
def inputBits (s : State) : List Bool := readerBits s ++ s.inq.flatMap byteBits

/-- The number whose binary digits are the bits, most significant first. -/
def bitsValue (l : List Bool) : Nat := l.foldl (fun n b => 2 * n + b.toNat) 0

/-! ## The distribution of a context -/

/-- W, the sum of the active weights (40_predictor.md R116). -/
def activeWeight (s : State) : Nat := ((activeSlots s).map (fun k => s.weight[k].toNat)).sum

/-- The score of one symbol as R103 writes it: the sum over the active slots of weight times probability. -/
def mixedScore (s : State) (sym : Fin 256) : Nat :=
  ((activeSlots s).map (fun k => s.weight[k].toNat * (s.entry k.val (indexOf s k)).prob[sym].toNat)).sum

/-! ## The source's two renormalization loops (41_encoder.md R139) -/

/-- The first loop: while the top bits of LOW and HIGH agree, commit a bit and shift, in at most `n` passes. -/
def emitLoop : Nat → State → State
  | 0, s => s
  | n + 1, s =>
    match renormCase s.low s.high with
    | .e1 => emitLoop n (shiftBounds .e1 (emitPend false s))
    | .e2 => emitLoop n (shiftBounds .e2 (emitPend true s))
    | .e3 => s
    | .done => s

/-- The second loop: while the interval straddles the midpoint in the inner quarters, count a pending bit and shift, in
at most `n` passes; with whether PENDING would overflow (R135). -/
def underflowLoop : Nat → State → State × Bool
  | 0, s => (s, false)
  | n + 1, s =>
    match renormCase s.low s.high with
    | .e3 =>
      if s.pending = Config.top then (s, true)
      else underflowLoop n (shiftBounds .e3 { s with pending := s.pending + 1 })
    | .e1 => (s, false)
    | .e2 => (s, false)
    | .done => (s, false)

/-! ## The reads that a pending command leaves open (70_reset_and_hazards.md R255)

Each list pairs a read with the number of its register's bits that are not reserved. -/

/-- The reads that show the table memory (10_state.md R43). -/
def tableReads : List (Instr × Nat) := [(.rdDiagData, 24), (.rdDiagTotal, 17)]

/-- The reads that show the history, word or slot k of it (10_state.md R36, R44). -/
def historyReads (tableBits : Nat) (k : Fin 8) : List (Instr × Nat) :=
  [(.rdHistValid, 6), (.rdHist k, 32), (.rdIdx k, tableBits)]

/-- The reads that show the distribution (10_state.md R41). -/
def scoreReads : List (Instr × Nat) := [(.rdTotal, 30), (.rdScoreData, 22)]

/-- The reads of what Tail writes (40_predictor.md R110). -/
def tailReads (tableBits : Nat) (k : Fin 8) : List (Instr × Nat) :=
  tableReads ++ historyReads tableBits k ++ [(.rdSymcnt, 16)]

/-- The reads that the command in PEND leaves open, from the "Writes" line of its rule: 43_control.md R172 to R174,
40_predictor.md R111 to R115, 41_encoder.md R136 to R138, 42_decoder.md R158 to R160. A SOFT_RESET word in PEND, which no
run reaches, would write them all. Host accesses never stand in PEND. -/
def openReads (tableBits : Nat) (k : Fin 8) : Instr → List (Instr × Nat)
  | .nop => []
  | .softReset => tailReads tableBits k ++ scoreReads ++ [(.rdResult, 9), (.rdStreamSyms, 32), (.rdBitcnt, 32),
      (.rdLow, 32), (.rdHigh, 32), (.rdCode, 32), (.rdPending, 32), (.rdPhantom, 5)]
  | .tblClear => tableReads
  | .ctxClear => historyReads tableBits k
  | .refresh => tableReads ++ [(.rdSymcnt, 16)]
  | .abort => [(.rdPhantom, 5)]
  | .predict => scoreReads
  | .learn _ => tailReads tableBits k
  | .encStart => [(.rdLow, 32), (.rdHigh, 32), (.rdPending, 32), (.rdBitcnt, 32), (.rdStreamSyms, 32)]
  | .encSym _ => tailReads tableBits k ++ scoreReads ++
      [(.rdLow, 32), (.rdHigh, 32), (.rdPending, 32), (.rdBitcnt, 32), (.rdStreamSyms, 32)]
  | .encFlush => [(.rdBitcnt, 32), (.rdPending, 32)]
  | .decStart => [(.rdPhantom, 5), (.rdLow, 32), (.rdHigh, 32), (.rdCode, 32), (.rdBitcnt, 32), (.rdStreamSyms, 32),
      (.rdResult, 9)]
  | .decSym => tailReads tableBits k ++ scoreReads ++ [(.rdLow, 32), (.rdHigh, 32), (.rdCode, 32), (.rdPhantom, 5),
      (.rdBitcnt, 32), (.rdResult, 9), (.rdStreamSyms, 32)]
  | .decEnd => [(.rdPhantom, 5)]
  | _ => []

/-! ## Encoder and decoder side by side (42_decoder.md R163) -/

/-- The two blocks agree in everything the predictor reads: parameters, configuration, tables, history and SYMCNT
(70_reset_and_hazards.md R265). -/
def SamePredictor (s d : State) : Prop :=
  s.params = d.params ∧ s.nord = d.nord ∧ s.ceil = d.ceil ∧ s.rint = d.rint ∧ s.order = d.order ∧ s.weight = d.weight ∧
    s.mem = d.mem ∧ s.hist = d.hist ∧ s.histValid = d.histValid ∧ s.symcnt = d.symcnt

end Sys2Proof.Machine
end

