-- ==== Sys2Proof/Certificates/Slice0/Obligations.lean ====
section
/-! DEFINITION. The statements for the provers. Each docstring names the rules of the spec it formalises. -/

open Sys2Proof Sys2Proof.Machine

/-! ## Reset -/

/-- 10_state.md R54: every state element after reset, for every choice of the synthesis parameters. -/
def Obligations.ResetGivesEveryElementItsValue : Prop :=
  ∀ p : Params, ∀ s : State, s = State.resetWith p →
    s.mode = .idle ∧ s.pend = none ∧ s.low = 0 ∧ s.high = 0xFFFFFFFF#32 ∧ s.code = 0 ∧ s.pending = 0 ∧
    s.obuf = 0 ∧ s.ocnt = 0 ∧ s.rbuf = 0 ∧ s.rcnt = 0 ∧ s.phantom = 0 ∧
    (∀ j : Fin 32, s.hist[j] = 0) ∧ s.histValid = 0 ∧ s.symcnt = 0 ∧ s.streamSyms = 0 ∧ s.bitcnt = 0 ∧
    (∀ x : Fin 256, s.score[x] = 0) ∧ s.total = 0 ∧ s.rsym = 0 ∧ s.rvalid = false ∧
    s.inq = [] ∧ s.eoi = false ∧ s.outq = [] ∧ s.err = 0 ∧ s.done = false ∧ s.error = false ∧ s.intEnable = 0 ∧
    irq s = false ∧ s.scoreIdx = 0 ∧ s.diagSel = 0 ∧ s.nord = 7 ∧ s.ceil = 1024 ∧ s.rint = 233 ∧
    s.order = #v[1, 2, 3, 5, 8, 13, 21, 32] ∧ s.weight = #v[6, 9, 15, 24, 39, 62, 101, 0] ∧
    (∀ k i : Nat, ∀ x : Fin 256, (s.entry k i).prob[x] = 128 ∧ (s.entry k i).cnt[x] = 0 ∧
      (s.entry k i).tot = 0 ∧ (s.entry k i).hot = false) ∧
    regValue s .id = 0x434D4143#32 ∧ regValue s .version = 0x00010000#32 ∧
    regValue s .param = BitVec.ofNat 32 (8 * 2 ^ 24 + p.outDepth % 32 * 2 ^ 16 + p.inDepth % 32 * 2 ^ 8 +
      p.tableBits % 32)

/-- 43_control.md R173 and 70_reset_and_hazards.md R250: a SOFT_RESET word acts at the CMD write, in every state, BUSY or
not, and so does the command itself; asserting the reset input does the same. The reset pin, the queue of host events, the
returned reads and the draw counter are the environment's and the model's (assumptions 2, 3 and 7) and stay. -/
def Obligations.ResetsReachTheResetState : Prop :=
  (∀ s : State, exec (.wrCmd 0x01000000#32) s =
    .next { State.resetWith s.params with resetPin := s.resetPin, hostq := s.hostq, reads := s.reads, draws := s.draws }) ∧
  (∀ s : State, exec .softReset s =
    .next { State.resetWith s.params with resetPin := s.resetPin, hostq := s.hostq, reads := s.reads, draws := s.draws }) ∧
  (∀ (s : State) (rest : List HostEvent), s.hostq = ⟨true, .assertReset⟩ :: rest →
    step s = .next { State.resetWith s.params with resetPin := true, hostq := rest, reads := s.reads, draws := s.draws })

/-! ## Commands: words, modes, acceptance, completion -/

/-- 30_encoding.md R84: a word is legal exactly if it is one of the twelve words without operand, or LEARN or ENC_SYM with
RSV = 0. -/
def Obligations.LegalCommandWords : Prop :=
  ∀ w : Word, (∃ i, decodeCmd w = .ok i) ↔
    (w ∈ [0x00000000#32, 0x01000000#32, 0x02000000#32, 0x03000000#32, 0x04000000#32, 0x05000000#32, 0x06000000#32,
      0x10000000#32, 0x12000000#32, 0x20000000#32, 0x21000000#32, 0x22000000#32] ∨
    w.extractLsb' 8 24 = 0x070000#24 ∨ w.extractLsb' 8 24 = 0x110000#24)

/-- 30_encoding.md R89: the modes in which each command is accepted, in the order IDLE, ENC, DEC, FAULT. -/
def Obligations.CommandModeTable : Prop :=
  ∀ sym : Byte, ∀ row ∈ [(Instr.nop, [true, true, true, true]), (.softReset, [true, true, true, true]),
      (.tblClear, [true, true, true, false]), (.ctxClear, [true, true, true, false]),
      (.refresh, [true, true, true, false]), (.abort, [true, true, true, true]),
      (.predict, [true, true, true, false]), (.learn sym, [true, true, true, false]),
      (.encStart, [true, false, false, false]), (.encSym sym, [false, true, false, false]),
      (.encFlush, [false, true, false, false]), (.decStart, [true, false, false, false]),
      (.decSym, [false, false, true, false]), (.decEnd, [false, false, true, false])],
    [Mode.idle, .enc, .dec, .fault].map (modeAllows row.1) = row.2

/-- 43_control.md R170: a CMD write is decided at once, in this order: SOFT_RESET acts, CMD_OVERRUN (ERR bit 2) while
BUSY, ILLEGAL_CMD (bit 0), MODE_ERR (bit 1), acceptance into PEND. -/
def Obligations.CommandAcceptanceOrder : Prop :=
  (∀ s : State, exec (.wrCmd 0x01000000#32) s = exec .softReset s) ∧
  ∀ (w : Word) (s : State), w ≠ 0x01000000#32 →
    (busy s = true → exec (.wrCmd w) s = .next { s with err := s.err ||| 0x004#9, error := true }) ∧
    (busy s = false → (∀ e, decodeCmd w = .error e →
      exec (.wrCmd w) s = .next { s with err := s.err ||| 0x001#9, error := true })) ∧
    (busy s = false → (∀ i, decodeCmd w = .ok i → modeAllows i s.mode = false →
      exec (.wrCmd w) s = .next { s with err := s.err ||| 0x002#9, error := true })) ∧
    (busy s = false → (∀ i, decodeCmd w = .ok i → modeAllows i s.mode = true →
      exec (.wrCmd w) s = .next { s with pend := some w }))

/-- 43_control.md R171: at the end of a block step PEND is empty, and DONE is set exactly if the output fits the physical
FIFO. -/
def Obligations.CompletionEmptiesPendAndSetsDone : Prop :=
  ∀ s : State, complete s =
    { s with pend := none, done := if s.outq.length ≤ s.params.outDepth then true else s.done }

/-- 43_control.md R172 and R174, 41_encoder.md R136, 42_decoder.md R160: NOP, ABORT, ENC_START and DEC_END, each whole,
with its frame. -/
def Obligations.ControlCommandEffects : Prop :=
  ∀ s : State,
    exec .nop s = .next (complete s) ∧
    exec .abort s = .next (complete { s with
      mode := .idle, inq := [], eoi := false, rbuf := 0, rcnt := 0, phantom := 0, obuf := 0, ocnt := 0 }) ∧
    exec .encStart s = .next (complete { s with
      low := 0, high := 0xFFFFFFFF#32, pending := 0, obuf := 0, ocnt := 0, bitcnt := 0, streamSyms := 0, mode := .enc }) ∧
    exec .decEnd s = .next (complete { s with
      inq := [], eoi := false, rbuf := 0, rcnt := 0, phantom := 0, mode := .idle })

/-- 60_exceptions.md R220, R226 and R227: the ERR bit of each cause, and what a fault and a reject write. -/
def Obligations.FaultAndRejectWrites : Prop :=
  ∀ s : State, ∀ row ∈ [(ErrCause.illegalCmd, 0x001#9), (.modeErr, 0x002#9), (.cmdOverrun, 0x004#9), (.cfgErr, 0x008#9),
      (.invalidDist, 0x010#9), (.truncated, 0x020#9), (.pendingOvf, 0x040#9), (.dinOvf, 0x080#9), (.dinAfterEoi, 0x100#9)],
    reject row.1 s = { s with err := s.err ||| row.2, error := true } ∧
    raiseFault row.1 s = { s with err := s.err ||| row.2, error := true, mode := .fault }

/-- 10_state.md R35: only these commands change MODE, from and to these modes. A SOFT_RESET acts through its CMD write;
the reset input resets MODE too (R250). -/
def Obligations.ModeChangesOnlyAsTheTableSays : Prop :=
  ∀ s t : State, PendOk s → step s = .next t → t.mode ≠ s.mode →
    (s.mode = .idle ∧ pendCmd s = some .encStart ∧ t.mode = .enc) ∨
    (s.mode = .idle ∧ pendCmd s = some .decStart ∧ t.mode = .dec) ∨
    (s.mode = .enc ∧ pendCmd s = some .encFlush ∧ t.mode = .idle) ∨
    (s.mode = .dec ∧ pendCmd s = some .decEnd ∧ t.mode = .idle) ∨
    (pendCmd s = some .abort ∧ t.mode = .idle) ∨
    (s.mode = .enc ∧ (∃ sym, pendCmd s = some (.encSym sym)) ∧ t.mode = .fault) ∨
    (s.mode = .idle ∧ pendCmd s = some .decStart ∧ t.mode = .fault) ∨
    (s.mode = .dec ∧ pendCmd s = some .decSym ∧ t.mode = .fault) ∨
    (t.mode = .idle ∧ ∃ ev rest, s.hostq = ev :: rest ∧
      (ev.act = .access { kind := .write 0x01000000#32, off := 0x00C, bytes := 4 } ∨ ev.act = .assertReset))

/-- 43_control.md R175: in FAULT only NOP, SOFT_RESET and ABORT are accepted, any other legal word gets MODE_ERR, and every
configuration write gets CFG_ERR; DIN, EOI and DOUT keep working. -/
def Obligations.FaultModeAcceptsOnlyThreeCommands : Prop :=
  ∀ s : State, s.mode = .fault →
    (busy s = false → ∀ w i, decodeCmd w = .ok i → i ≠ .nop → i ≠ .softReset → i ≠ .abort →
      exec (.wrCmd w) s = .next { s with err := s.err ||| 0x002#9, error := true }) ∧
    (busy s = false → exec (.wrCmd 0x00000000#32) s = .next { s with pend := some 0x00000000#32 } ∧
      exec (.wrCmd 0x05000000#32) s = .next { s with pend := some 0x05000000#32 }) ∧
    (∀ i : Instr, (∃ v, i = .wrCfgNord v ∨ i = .wrCfgCeil v ∨ i = .wrCfgRint v ∨ ∃ k, i = .wrOrder k v ∨ i = .wrWeight k v) →
      exec i s = .next { s with err := s.err ||| 0x008#9, error := true }) ∧
    (∀ v, s.eoi = false → s.inq.length < s.params.inDepth →
      exec (.wrDin v) s = .next { s with inq := s.inq ++ [v.extractLsb' 0 8] }) ∧
    (∀ v, exec (.wrEoi v) s = .next { s with eoi := true }) ∧
    (∀ b rest, s.outq = b :: rest → ∃ t, exec .rdDout s = .next t ∧ t.outq = rest)

/-- 43_control.md R171: DONE is set exactly when BUSY goes from 1 to 0, a reset excepted, which leaves DONE = 0. -/
def Obligations.DoneIsSetExactlyWhenBusyFalls : Prop :=
  ∀ s t : State, PendOk s → step s = .next t →
    (busy s = true → busy t = false → t.done = true ∨
      t = { State.resetWith s.params with
        resetPin := t.resetPin, hostq := t.hostq, reads := t.reads, draws := t.draws }) ∧
    (s.done = false → t.done = true → busy s = true ∧ busy t = false)

/-! ## Predictor -/

/-- 40_predictor.md R100 and R101: the context hash is 0 on an unfilled window, else the fold of the window's bytes,
oldest first; the index is its dispersion's top TABLE_BITS bits. That an unfilled window has index 0 is the inference that
R101 marks as its own ("derived: from rule R100"). -/
def Obligations.HashAndIndexOfContext : Prop :=
  ∀ (s : State) (k : Fin 8), s.params.legal → s.order[k].toNat ≤ 32 →
    (s.histValid.toNat < s.order[k].toNat → ctxHash s k = 0 ∧ indexOf s k = 0) ∧
    (s.order[k].toNat ≤ s.histValid.toNat → ctxHash s k =
      (s.hist.toList.take s.order[k].toNat).reverse.foldl (fun h b => (h * 0x01000193#32) ^^^ b.setWidth 32) 0#32) ∧
    indexOf s k = (ctxHash s k * 0x9E3779B9#32).toNat / 2 ^ (32 - s.params.tableBits) ∧
    indexOf s k < 2 ^ s.params.tableBits

/-- 40_predictor.md R103 and R111: PREDICT stores every score and their sum, exactly, and writes nothing else. -/
def Obligations.PredictStoresTheMixedScores : Prop :=
  ∀ s : State, ∃ t : State, exec .predict s = .next (complete t) ∧
    t = { s with score := t.score, total := t.total } ∧
    (∀ x : Fin 256, t.score[x].toNat = mixedScore s x) ∧
    t.total.toNat = ((List.finRange 256).map (mixedScore s)).sum

/-- 40_predictor.md R116, which the spec marks as its own inference from R53 and R103: every score is at least the active weight W, TOTAL = 0 exactly if W = 0, and no frequency is
below TOTAL / 65280. -/
def Obligations.DistributionFloor : Prop :=
  ∀ s : State, TablesOk s →
    (∀ x : Fin 256, activeWeight s ≤ mixedScore s x) ∧
    ((predict s).total = 0 ↔ activeWeight s = 0) ∧
    (∀ x : Fin 256, (predict s).total.toNat ≤ 65280 * mixedScore s x)

/-- 40_predictor.md R105 and R106: the update of one entry, and its decay above CEIL; the total stays at least every
count (the inference that R106 marks as its own). -/
def Obligations.EntryUpdateAndDecay : Prop :=
  ∀ (ceil : BitVec 15) (sym : Byte) (e : Entry), e.ok →
    (touch ceil sym e).hot = true ∧ (touch ceil sym e).prob = e.prob ∧
    (∀ x : Fin 256, (touch ceil sym e).cnt[x].toNat ≤ (touch ceil sym e).tot.toNat) ∧
    (e.tot.toNat + 1 ≤ ceil.toNat → (touch ceil sym e).tot.toNat = e.tot.toNat + 1 ∧
      ∀ x : Fin 256, (touch ceil sym e).cnt[x].toNat = e.cnt[x].toNat + if x.val = sym.toNat then 1 else 0) ∧
    (ceil.toNat < e.tot.toNat + 1 → (touch ceil sym e).tot.toNat = (e.tot.toNat + 1) / 2 ∧
      ∀ x : Fin 256, (touch ceil sym e).cnt[x].toNat = (e.cnt[x].toNat + if x.val = sym.toNat then 1 else 0) / 2)

/-- 40_predictor.md R112, R110, R109, 20_memory.md R76: LEARN touches the entry of each active slot at its index before
the shift and no other entry, shifts the symbol into the history, counts it, and refreshes when SYMCNT reaches RINT. -/
def Obligations.LearnRunsTheTail : Prop :=
  ∀ (s : State) (sym : Byte), ConfigOk s → TablesOk s → BoundsOk s →
    ∃ t : State, exec (.learn sym) s = .next (complete t) ∧
      t = { s with mem := t.mem, hist := t.hist, histValid := t.histValid, symcnt := t.symcnt } ∧
      t.hist[0] = sym ∧ (∀ j : Fin 31, t.hist[j.val + 1] = s.hist[j.val]) ∧
      t.histValid.toNat = min (s.histValid.toNat + 1) 32 ∧
      (s.symcnt.toNat + 1 < s.rint.toNat → t.symcnt.toNat = s.symcnt.toNat + 1 ∧
        ∀ (k : Fin 8) (i : Nat), i < 2 ^ 20 → t.entry k.val i =
          if k.val < s.nord.toNat ∧ i = indexOf s k then touch s.ceil sym (s.entry k.val i) else s.entry k.val i) ∧
      (s.rint.toNat ≤ s.symcnt.toNat + 1 → t.symcnt = 0 ∧
        ∀ (k : Fin 8) (i : Nat), i < 2 ^ 20 → t.entry k.val i =
          requant (if k.val < s.nord.toNat ∧ i = indexOf s k then touch s.ceil sym (s.entry k.val i)
            else s.entry k.val i))

/-- 40_predictor.md R107: requantization rounds (c + 1/2) · 255 / (t + 1) to nearest, half up, and clamps to 1..255. -/
def Obligations.QuantRoundsHalfUpAndClamps : Prop :=
  ∀ c t q : Nat, 2 * (t + 1) * q ≤ (2 * c + 1) * 255 + (t + 1) → (2 * c + 1) * 255 + (t + 1) < 2 * (t + 1) * (q + 1) →
    quant c t = min (max q 1) 255

/-- 40_predictor.md R108 and R113: REFRESH requantizes every hot entry, of every slot, from its counts, clears its hot bit,
changes no other entry, and clears SYMCNT. -/
def Obligations.RefreshRequantizesHotEntries : Prop :=
  ∀ s : State, s.mem.wf → ∃ t : State, exec .refresh s = .next (complete t) ∧
    t = { s with mem := t.mem, symcnt := 0 } ∧
    ∀ k i : Nat,
      ((s.entry k i).hot = false → t.entry k i = s.entry k i) ∧
      ((s.entry k i).hot = true → (t.entry k i).hot = false ∧ (t.entry k i).cnt = (s.entry k i).cnt ∧
        (t.entry k i).tot = (s.entry k i).tot ∧
        ∀ x : Fin 256, (t.entry k i).prob[x].toNat = quant (s.entry k i).cnt[x].toNat (s.entry k i).tot.toNat)

/-- 40_predictor.md R114 and R115: TBL_CLEAR returns every entry to prob = 128 and counts 0 and writes the table memory
only; CTX_CLEAR empties the history and writes it only. -/
def Obligations.ClearCommands : Prop :=
  ∀ s : State,
    (∃ t : State, exec .tblClear s = .next (complete t) ∧ t = { s with mem := t.mem } ∧
      ∀ k i : Nat, ∀ x : Fin 256, (t.entry k i).prob[x] = 128 ∧ (t.entry k i).cnt[x] = 0 ∧
        (t.entry k i).tot = 0 ∧ (t.entry k i).hot = false) ∧
    (∃ t : State, exec .ctxClear s = .next (complete t) ∧ t = { s with hist := t.hist, histValid := 0 } ∧
      ∀ j : Fin 32, t.hist[j] = 0)

/-- 44_host_access.md R204, 20_memory.md R61: the host cannot write table memory; the tables change only by commands, and
only by these. -/
def Obligations.TablesChangeOnlyByCommands : Prop :=
  ∀ (i : Instr) (s t : State), exec i s = .next t → t.mem ≠ s.mem →
    i = .tblClear ∨ i = .refresh ∨ (∃ x, i = .learn x) ∨ (∃ x, i = .encSym x) ∨ i = .decSym ∨ i = .softReset ∨
      i = .wrCmd 0x01000000#32

/-- 40_predictor.md R117, 44_host_access.md R205: the configuration changes only by host writes to its registers, in IDLE
with BUSY = 0, or by a reset. -/
def Obligations.ConfigChangesOnlyInIdle : Prop :=
  ∀ (i : Instr) (s t : State), exec i s = .next t →
    (t.nord ≠ s.nord ∨ t.ceil ≠ s.ceil ∨ t.rint ≠ s.rint ∨ t.order ≠ s.order ∨ t.weight ≠ s.weight) →
    i = .softReset ∨ i = .wrCmd 0x01000000#32 ∨
      (s.mode = .idle ∧ busy s = false ∧ ∃ v, i = .wrCfgNord v ∨ i = .wrCfgCeil v ∨ i = .wrCfgRint v ∨
        ∃ k, i = .wrOrder k v ∨ i = .wrWeight k v)

/-! ## Encoder -/

/-- 41_encoder.md R137: the three ways ENC_SYM ends: INVALID_DIST, PENDING_OVF, or the symbol coded and learned. -/
def Obligations.EncSymOutcomes : Prop :=
  ∀ (sym : Byte) (s : State),
    ((predict s).total = 0 → exec (.encSym sym) s = .next (complete (raiseFault .invalidDist (predict s)))) ∧
    ((predict s).total ≠ 0 → ∀ u : State,
      renormEnc Config.renormPasses { predict s with
        low := (narrow s.low s.high (cum (predict s) sym) (cum (predict s) sym + freq (predict s) sym)
          (predict s).total.toNat).1
        high := (narrow s.low s.high (cum (predict s) sym) (cum (predict s) sym + freq (predict s) sym)
          (predict s).total.toNat).2 } = (u, true) →
      exec (.encSym sym) s = .next (complete (raiseFault .pendingOvf u))) ∧
    ((predict s).total ≠ 0 → ∀ u : State,
      renormEnc Config.renormPasses { predict s with
        low := (narrow s.low s.high (cum (predict s) sym) (cum (predict s) sym + freq (predict s) sym)
          (predict s).total.toNat).1
        high := (narrow s.low s.high (cum (predict s) sym) (cum (predict s) sym + freq (predict s) sym)
          (predict s).total.toNat).2 } = (u, false) →
      exec (.encSym sym) s = .next (complete { tail u sym with streamSyms := s.streamSyms + 1 }))

/-- 41_encoder.md R137, 42_decoder.md R159 and R150, 60_exceptions.md R226: what ENC_SYM and DEC_SYM leave unchanged,
whatever their outcome. The predictor's state is unchanged where no symbol was counted (a fault, a hold); else it is as
R110's Tail leaves it, so that the entry of no active slot's index is at most requantized by the automatic refresh. -/
def Obligations.SymbolCommandFrames : Prop :=
  ∀ s t : State,
    (∀ sym : Byte, exec (.encSym sym) s = .next t → t = { s with
      mode := t.mode, pend := none, low := t.low, high := t.high, pending := t.pending, obuf := t.obuf, ocnt := t.ocnt
      symcnt := t.symcnt, streamSyms := t.streamSyms, bitcnt := t.bitcnt, hist := t.hist, histValid := t.histValid
      mem := t.mem, score := t.score, total := t.total, outq := t.outq, err := t.err, done := t.done
      error := t.error }) ∧
    (exec .decSym s = .next t → t = { s with
      mode := t.mode, pend := t.pend, low := t.low, high := t.high, code := t.code, rbuf := t.rbuf, rcnt := t.rcnt
      phantom := t.phantom, inq := t.inq, symcnt := t.symcnt, streamSyms := t.streamSyms, bitcnt := t.bitcnt
      hist := t.hist, histValid := t.histValid, mem := t.mem, score := t.score, total := t.total, rsym := t.rsym
      rvalid := t.rvalid, err := t.err, done := t.done, error := t.error }) ∧
    (∀ sym : Byte, (exec (.encSym sym) s = .next t ∨ exec .decSym s = .next t ∧ t.rsym = sym) →
      (t.streamSyms = s.streamSyms →
        t.mem = s.mem ∧ t.hist = s.hist ∧ t.histValid = s.histValid ∧ t.symcnt = s.symcnt) ∧
      (t.streamSyms ≠ s.streamSyms →
        t.streamSyms = s.streamSyms + 1 ∧ t.hist[0] = sym ∧ (∀ j : Fin 31, t.hist[j.val + 1] = s.hist[j.val]) ∧
        t.histValid.toNat = min (s.histValid.toNat + 1) 32 ∧
        t.symcnt = (if s.rint.toNat ≤ (s.symcnt + 1).toNat then 0 else s.symcnt + 1) ∧
        (s.params.legal → s.mem.wf → ∀ (k : Fin 8) (i : Nat), i < 2 ^ 20 →
          (¬(k.val < s.nord.toNat ∧ i = indexOf s k) → t.entry k.val i =
            if s.rint.toNat ≤ (s.symcnt + 1).toNat then requant (s.entry k.val i) else s.entry k.val i) ∧
          (k.val < s.nord.toNat ∧ i = indexOf s k → t.entry k.val i =
            if s.rint.toNat ≤ (s.symcnt + 1).toNat then requant (touch s.ceil sym (s.entry k.val i))
            else touch s.ceil sym (s.entry k.val i)))))

/-- 60_exceptions.md R221: with every active weight 0, ENC_SYM and DEC_SYM write SCORE and TOTAL as 0 and fault, changing
nothing else. -/
def Obligations.NoWeightFaultsInvalidDist : Prop :=
  ∀ (sym : Byte) (s : State), activeWeight s = 0 →
    exec (.encSym sym) s = .next (complete { s with
      score := Vector.replicate 256 0, total := 0, err := s.err ||| 0x010#9, error := true, mode := .fault }) ∧
    exec .decSym s = .next (complete { s with
      score := Vector.replicate 256 0, total := 0, err := s.err ||| 0x010#9, error := true, mode := .fault })

/-- 41_encoder.md R131 and R133: emitting appends to the coded bits, most significant bit of a byte first: EmitBit its bit,
EmitPend its bit and PENDING complements. BITCNT counts every bit, and only the packer, BITCNT, OUTQ and, under EmitPend,
PENDING change. -/
def Obligations.EmittedBitsAreAppended : Prop :=
  ∀ (b : Bool) (s : State),
    (codedBits (emitBit b s) = codedBits s ++ [b] ∧ (emitBit b s).bitcnt = s.bitcnt + 1 ∧
      emitBit b s = { s with obuf := (emitBit b s).obuf, ocnt := (emitBit b s).ocnt, bitcnt := (emitBit b s).bitcnt
                             outq := (emitBit b s).outq }) ∧
    (codedBits (emitPend b s) = codedBits s ++ [b] ++ List.replicate s.pending.toNat (!b) ∧
      (emitPend b s).pending = 0 ∧ (emitPend b s).bitcnt = s.bitcnt + BitVec.ofNat 32 (s.pending.toNat + 1) ∧
      emitPend b s = { s with obuf := (emitPend b s).obuf, ocnt := (emitPend b s).ocnt, bitcnt := (emitPend b s).bitcnt
                              outq := (emitPend b s).outq, pending := (emitPend b s).pending })

/-- 41_encoder.md R132 and R140: on a renormalized interval and a distribution with R116's floor, narrowing is the
formula without the clamp, stays inside the interval, and leaves at least 16448 code values. -/
def Obligations.NarrowingStaysInsideUnclamped : Prop :=
  ∀ (lo hi : Word) (lc f t : Nat), lo.toNat ≤ hi.toNat → 2 ^ 30 < hi.toNat - lo.toNat + 1 →
    1 ≤ t → t ≤ 65280 * f → lc + f ≤ t →
    (narrow lo hi lc (lc + f) t).1.toNat = lo.toNat + (hi.toNat - lo.toNat + 1) * lc / t ∧
    (narrow lo hi lc (lc + f) t).2.toNat + 1 = lo.toNat + (hi.toNat - lo.toNat + 1) * (lc + f) / t ∧
    lo.toNat ≤ (narrow lo hi lc (lc + f) t).1.toNat ∧
    (narrow lo hi lc (lc + f) t).1.toNat + 16448 ≤ (narrow lo hi lc (lc + f) t).2.toNat + 1 ∧
    (narrow lo hi lc (lc + f) t).2.toNat ≤ hi.toNat

/-- 41_encoder.md R134: from any bounds, renormalization that returns OK ends with the interval straddling the midpoint and
reaching into an outer quarter, so that the bound on its passes (assumption 10) cuts nothing off; the decoder's does so
always. -/
def Obligations.RenormalizationEnds : Prop :=
  ∀ s : State,
    ((renormEnc Config.renormPasses s).2 = false →
      Renormalized (renormEnc Config.renormPasses s).1.low (renormEnc Config.renormPasses s).1.high) ∧
    Renormalized (renormDec Config.renormPasses s).low (renormDec Config.renormPasses s).high

/-- 41_encoder.md R131, R133 and R134, as an equation that follows from them: take the coded bits, PENDING undetermined bits
and LOW as one number, an undetermined bit weighing as a 1 below a 0 not yet written. Renormalization that returns OK
multiplies it by 2 once for each pass, and the interval's width too: the bits emitted are those shifted out of LOW. -/
def Obligations.RenormalizationEmitsTheShiftedBits : Prop :=
  ∀ (s t : State) (n : Nat), s.low.toNat ≤ s.high.toNat → n = renormSteps Config.renormPasses s.low s.high →
    renormEnc Config.renormPasses s = (t, false) →
    bitsValue (codedBits t) * 2 ^ (32 + t.pending.toNat) + (2 ^ t.pending.toNat - 1) * 2 ^ 31 + t.low.toNat =
      2 ^ n * (bitsValue (codedBits s) * 2 ^ (32 + s.pending.toNat) + (2 ^ s.pending.toNat - 1) * 2 ^ 31 + s.low.toNat) ∧
    t.high.toNat + 1 - t.low.toNat = 2 ^ n * (s.high.toNat + 1 - s.low.toNat) ∧
    (codedBits t).length + t.pending.toNat = (codedBits s).length + s.pending.toNat + n

/-- 41_encoder.md R141: an interval of at least 16448 code values takes at most 17 passes. -/
def Obligations.RenormalizationTakesAtMost17Passes : Prop :=
  ∀ lo hi : Word, lo.toNat + 16448 ≤ hi.toNat + 1 → renormSteps Config.renormPasses lo hi ≤ 17

/-- 41_encoder.md R139, which the spec marks as its own inference from R134: the interleaved loop equals the source's two
loops in sequence. -/
def Obligations.InterleavedLoopEqualsTwoLoops : Prop :=
  ∀ s : State, renormEnc Config.renormPasses s =
    underflowLoop Config.renormPasses (emitLoop Config.renormPasses s)

/-- 41_encoder.md R138: ENC_FLUSH appends b, PENDING + 1 complements and zero bits up to a byte boundary, closes the
stream, and changes nothing else. -/
def Obligations.EncFlushAppendsTermination : Prop :=
  ∀ s : State, ∃ (t : State) (pad : Nat), exec .encFlush s = .next (complete t) ∧ pad ≤ 7 ∧
    codedBits t = codedBits s ++ [decide (0x40000000 ≤ s.low.toNat)] ++
      List.replicate (s.pending.toNat + 1) (!decide (0x40000000 ≤ s.low.toNat)) ++ List.replicate pad false ∧
    t.ocnt = 0 ∧ t.pending = 0 ∧ t.mode = .idle ∧
    t.bitcnt = s.bitcnt + BitVec.ofNat 32 (s.pending.toNat + 2 + pad) ∧
    t = { s with obuf := t.obuf, ocnt := t.ocnt, bitcnt := t.bitcnt, outq := t.outq, pending := t.pending, mode := t.mode }

/-! ## Decoder -/

/-- 42_decoder.md R151: ReadBit takes the next input bit, most significant bit of a byte first, or a phantom 0 when none is
left; BITCNT counts both, PHANTOM the phantom bits. -/
def Obligations.ReadBitTakesTheNextInputBit : Prop :=
  ∀ s : State, s.rcnt.toNat ≤ 8 →
    (readBit s).2.bitcnt = s.bitcnt + 1 ∧ (readBit s).2.rcnt.toNat ≤ 8 ∧
    (∀ b rest, inputBits s = b :: rest →
      (readBit s).1 = b ∧ inputBits (readBit s).2 = rest ∧ (readBit s).2.phantom = s.phantom) ∧
    (inputBits s = [] →
      (readBit s).1 = false ∧ inputBits (readBit s).2 = [] ∧ (readBit s).2.phantom = s.phantom + 1) ∧
    (readBit s).2 = { s with
      rbuf := (readBit s).2.rbuf, rcnt := (readBit s).2.rcnt, inq := (readBit s).2.inq
      phantom := (readBit s).2.phantom, bitcnt := (readBit s).2.bitcnt }

/-- 42_decoder.md R152: the four rows of the enabling table. -/
def Obligations.EnablingTable : Prop :=
  ∀ (n a phantom : Nat),
    (n ≤ a → ∀ eoi, inputCheck n a phantom eoi = .enough) ∧
    (a < n → inputCheck n a phantom false = .held) ∧
    (a < n → phantom + (n - a) ≤ 30 → inputCheck n a phantom true = .enough) ∧
    (a < n → 30 < phantom + (n - a) → inputCheck n a phantom true = .truncated)

/-- 42_decoder.md R158: DEC_START is held, faults TRUNCATED, or loads the first 32 bits, missing ones being phantom zeros. -/
def Obligations.DecStartLoadsTheCode : Prop :=
  ∀ s : State,
    (8 * s.inq.length < 32 → s.eoi = false → exec .decStart s = .next s) ∧
    (s.inq = [] → s.eoi = true → exec .decStart s = .next (complete { s with
      rbuf := 0, rcnt := 0, phantom := 0, err := s.err ||| 0x020#9, error := true, mode := .fault })) ∧
    ((32 ≤ 8 * s.inq.length ∨ (s.eoi = true ∧ s.inq ≠ [])) →
      ∃ t : State, exec .decStart s = .next (complete t) ∧
        t.code.toNat = bitsValue ((s.inq.flatMap byteBits ++ List.replicate 32 false).take 32) ∧
        t.inq = s.inq.drop 4 ∧ t.rcnt = 0 ∧ t.phantom.toNat = 32 - 8 * s.inq.length ∧
        t = { s with
          rbuf := t.rbuf, rcnt := t.rcnt, phantom := t.phantom, inq := t.inq, low := 0, high := 0xFFFFFFFF#32
          code := t.code, bitcnt := 32, streamSyms := 0, rsym := 0, rvalid := false, mode := .dec })

/-- 42_decoder.md R155 and R156: renormalization reads exactly RenormSteps bits, the real ones first, and shifts them, the
missing ones as zeros, into CODE: CODE - LOW is doubled once for each, and the bits come in below. -/
def Obligations.RenormDecReadsStepCountBits : Prop :=
  ∀ (s : State) (n : Nat), s.rcnt.toNat ≤ 8 → n = renormSteps Config.renormPasses s.low s.high →
    inputBits (renormDec Config.renormPasses s) = (inputBits s).drop n ∧
    (renormDec Config.renormPasses s).bitcnt = s.bitcnt + BitVec.ofNat 32 n ∧
    (s.phantom.toNat + (n - bitsAvailable s) ≤ 30 →
      (renormDec Config.renormPasses s).phantom.toNat = s.phantom.toNat + (n - bitsAvailable s)) ∧
    (s.low.toNat ≤ s.code.toNat → s.code.toNat ≤ s.high.toNat →
      (renormDec Config.renormPasses s).low.toNat ≤ (renormDec Config.renormPasses s).code.toNat ∧
      (renormDec Config.renormPasses s).code.toNat - (renormDec Config.renormPasses s).low.toNat =
        (s.code.toNat - s.low.toNat) * 2 ^ n + bitsValue ((inputBits s ++ List.replicate n false).take n))

/-- 42_decoder.md R155: the decoder's renormalization takes the encoder's path, so it reaches the same bounds. -/
def Obligations.DecoderRenormalizesAsTheEncoder : Prop :=
  ∀ s u v : State, u.low = s.low → u.high = s.high → renormEnc Config.renormPasses u = (v, false) →
    (renormDec Config.renormPasses s).low = v.low ∧ (renormDec Config.renormPasses s).high = v.high

/-- 42_decoder.md R153: the target is the formula's value, and lies in 0..TOTAL - 1 whenever the interval holds CODE, which
R153 marks as its own inference from R164. -/
def Obligations.TargetLiesBelowTotal : Prop :=
  ∀ p : State, p.low.toNat ≤ p.code.toNat → p.code.toNat ≤ p.high.toNat → 1 ≤ p.total.toNat →
    target p = ((p.code.toNat - p.low.toNat + 1) * p.total.toNat - 1) / (p.high.toNat - p.low.toNat + 1) ∧
    target p < p.total.toNat

/-- 42_decoder.md R154: the decoded symbol is the unique one whose cumulative range holds the target. -/
def Obligations.DecodedSymbolIsUnique : Prop :=
  ∀ (p : State) (t : Nat), t < scoreSum p.score.toList →
    cum p (symbolAt p t) ≤ t ∧ t < cum p (symbolAt p t) + freq p (symbolAt p t) ∧
    ∀ y : Byte, cum p y ≤ t → t < cum p y + freq p y → y = symbolAt p t

/-- 42_decoder.md R159: the four ways DEC_SYM ends: INVALID_DIST, held with no effect, TRUNCATED, or the symbol decoded and
learned. -/
def Obligations.DecSymOutcomes : Prop :=
  ∀ (s p : State) (sym : Byte) (lo hi : Word) (n : Nat), p = predict s → sym = symbolAt p (target p) →
    (lo, hi) = narrow s.low s.high (cum p sym) (cum p sym + freq p sym) p.total.toNat →
    n = renormSteps Config.renormPasses lo hi →
    (p.total = 0 → exec .decSym s = .next (complete (raiseFault .invalidDist p))) ∧
    (p.total ≠ 0 → inputCheck n (bitsAvailable s) s.phantom.toNat s.eoi = .held → exec .decSym s = .next s) ∧
    (p.total ≠ 0 → inputCheck n (bitsAvailable s) s.phantom.toNat s.eoi = .truncated →
      exec .decSym s = .next (complete (raiseFault .truncated p))) ∧
    (p.total ≠ 0 → inputCheck n (bitsAvailable s) s.phantom.toNat s.eoi = .enough →
      ∃ u : State, u = renormDec Config.renormPasses { p with low := lo, high := hi } ∧
        exec .decSym s = .next (complete { tail { u with rsym := sym, rvalid := true } sym with
          streamSyms := s.streamSyms + 1 }))

/-- 42_decoder.md R163, item 1: a decoder that agrees with an encoder in predictor state and interval, and decodes a symbol,
agrees with it again after the encoder has coded that symbol. -/
def Obligations.DecoderMirrorsEncoder : Prop :=
  ∀ (s d s' d' : State) (sym : Byte) (lo hi : Word), SamePredictor s d → s.low = d.low → s.high = d.high →
    s.mode = .enc → decPlan (predict d) = .run sym lo hi → exec .decSym d = .next d' →
    exec (.encSym sym) s = .next s' → s'.mode = .enc →
    SamePredictor s' d' ∧ s'.low = d'.low ∧ s'.high = d'.high ∧ s'.total = d'.total ∧ d'.rsym = sym ∧ d'.rvalid = true

/-! ## Host accesses -/

/-- 44_host_access.md R191 to R198 and R203 to R205, 10_state.md R22: reads that are defined in every state, each with its
value; a read changes nothing else. -/
def Obligations.AlwaysDefinedReads : Prop :=
  ∀ (s : State) (k : Fin 8), ∀ row ∈ [(Instr.rdId, 0x434D4143#32), (.rdVersion, 0x00010000#32),
      (.rdParam, BitVec.ofNat 32 (8 * 2 ^ 24 + s.params.outDepth % 32 * 2 ^ 16 + s.params.inDepth % 32 * 2 ^ 8 +
        s.params.tableBits % 32)),
      (.rdCmd, 0#32), (.rdDin, 0#32), (.rdEoi, 0#32), (.rdStatus, statusValue s), (.rdErr, s.err.setWidth 32),
      (.rdIntStatus, BitVec.ofNat 32 ((if s.outq = [] then 0 else 4) + (if s.error then 2 else 0) + (if s.done then 1 else 0))),
      (.rdIntEnable, s.intEnable.setWidth 32), (.rdCfgNord, s.nord.setWidth 32), (.rdCfgCeil, s.ceil.setWidth 32),
      (.rdCfgRint, s.rint.setWidth 32), (.rdOrder k, s.order[k].setWidth 32), (.rdWeight k, s.weight[k].setWidth 32),
      (.rdScoreIdx, s.scoreIdx.setWidth 32), (.rdDiagSel, s.diagSel)],
    exec row.1 s = .next { s with reads := row.2 :: s.reads }

/-- 44_host_access.md R200 to R204 and R206: reads of the coder, counter, history, score and table registers, each while
PEND is empty or holds a command whose rule does not write it. -/
def Obligations.ReadsWithoutPendingCommand : Prop :=
  ∀ (s : State) (k : Fin 8), ∀ row ∈ [
      (Instr.rdResult, BitVec.ofNat 32 ((if s.rvalid then 256 else 0) + s.rsym.toNat)), (.rdTotal, s.total.setWidth 32),
      (.rdSymcnt, s.symcnt.setWidth 32), (.rdStreamSyms, s.streamSyms), (.rdBitcnt, s.bitcnt), (.rdLow, s.low),
      (.rdHigh, s.high), (.rdCode, s.code), (.rdPending, s.pending), (.rdHistValid, s.histValid.setWidth 32),
      (.rdPhantom, s.phantom.setWidth 32), (.rdScoreData, s.score[s.scoreIdx.toNat].setWidth 32),
      (.rdDiagData, BitVec.ofNat 32
        ((s.entry (s.diagSel.extractLsb' 28 3).toNat (s.diagSel.extractLsb' 8 20).toNat).cnt[(s.diagSel.extractLsb' 0 8).toNat].toNat * 256 +
         (s.entry (s.diagSel.extractLsb' 28 3).toNat (s.diagSel.extractLsb' 8 20).toNat).prob[(s.diagSel.extractLsb' 0 8).toNat].toNat)),
      (.rdDiagTotal, BitVec.ofNat 32
        ((if (s.entry (s.diagSel.extractLsb' 28 3).toNat (s.diagSel.extractLsb' 8 20).toNat).hot then 65536 else 0) +
         (s.entry (s.diagSel.extractLsb' 28 3).toNat (s.diagSel.extractLsb' 8 20).toNat).tot.toNat)),
      (.rdHist k, BitVec.ofNat 32 (s.hist[4 * k.val + 3].toNat * 2 ^ 24 + s.hist[4 * k.val + 2].toNat * 2 ^ 16 +
        s.hist[4 * k.val + 1].toNat * 2 ^ 8 + s.hist[4 * k.val].toNat)),
      (.rdIdx k, BitVec.ofNat 32 (indexOf s k))],
    (∀ i, pendCmd s = some i → ∀ rd ∈ openReads s.params.tableBits k i, rd.1 ≠ row.1) →
    exec row.1 s = .next { s with reads := row.2 :: s.reads }

/-- 70_reset_and_hazards.md R255: while the command in PEND may write a register, a read of it returns a value of which only
this is known, that its reserved bits are 0; nothing of the block changes. It is so for every command and every register
of its "Writes" line, as `openReads` lists them (assumption 17). The value is the next free one (assumption 3). -/
def Obligations.ReadsOfPendingWritesAreFree : Prop :=
  ∀ (s : State) (k : Fin 8) (i : Instr), pendCmd s = some i → ∀ row ∈ openReads s.params.tableBits k i,
    exec row.1 s = .next { s with
      reads := BitVec.ofNat 32 ((Config.freeWord s.draws).toNat % 2 ^ row.2) :: s.reads, draws := s.draws + 1 }

/-- 20_memory.md R66: writes to read-only registers are ignored; reads of write-only registers return 0; an access to an
unmapped offset reads 0 or is ignored. -/
def Obligations.IgnoredAccesses : Prop :=
  ∀ (s : State) (v : Word) (k : Fin 8) (off : BitVec 12),
    (∀ i ∈ [Instr.wrId v, .wrVersion v, .wrParam v, .wrStatus v, .wrDout v, .wrResult v, .wrTotal v, .wrSymcnt v,
        .wrStreamSyms v, .wrBitcnt v, .wrLow v, .wrHigh v, .wrCode v, .wrPending v, .wrHistValid v, .wrPhantom v,
        .wrScoreData v, .wrDiagData v, .wrDiagTotal v, .wrHist k v, .wrIdx k v, .unmapped off (.write v)],
      exec i s = .next s) ∧
    (∀ i ∈ [Instr.rdCmd, .rdDin, .rdEoi, .unmapped off .read], exec i s = .next { s with reads := 0 :: s.reads })

/-- 44_host_access.md R194, R195, R196, R198, R203 and R204: the writes of ERR, INT_STATUS, INT_ENABLE, EOI, SCORE_IDX and
DIAG_SEL, in every state. -/
def Obligations.StatusAndSelectWrites : Prop :=
  ∀ (s : State) (v : Word),
    (∃ e : BitVec 9, exec (.wrErr v) s = .next { s with err := e } ∧
      ∀ b, b < 9 → e.getLsbD b = (s.err.getLsbD b && !v.getLsbD b)) ∧
    exec (.wrIntStatus v) s = .next { s with
      done := if v.getLsbD 0 then false else s.done, error := if v.getLsbD 1 then false else s.error } ∧
    exec (.wrIntEnable v) s = .next { s with intEnable := v.setWidth 3 } ∧
    exec (.wrEoi v) s = .next { s with eoi := true } ∧
    exec (.wrScoreIdx v) s = .next { s with scoreIdx := v.setWidth 8 } ∧
    (∃ d : Word, exec (.wrDiagSel v) s = .next { s with diagSel := d } ∧
      ∀ b, b < 32 → d.getLsbD b =
        (v.getLsbD b && (decide (b < 8) || (decide (8 ≤ b) && decide (b < 8 + s.params.tableBits) && decide (b < 28)) ||
          (decide (28 ≤ b) && decide (b < 31)))))

/-- 44_host_access.md R197: a DIN write appends its byte, or is rejected after EOI or on a full queue. -/
def Obligations.DinWriteQueuesOrRejects : Prop :=
  ∀ (s : State) (v : Word),
    (s.eoi = true → exec (.wrDin v) s = .next { s with err := s.err ||| 0x100#9, error := true }) ∧
    (s.eoi = false → s.inq.length = s.params.inDepth →
      exec (.wrDin v) s = .next { s with err := s.err ||| 0x080#9, error := true }) ∧
    (s.eoi = false → s.inq.length < s.params.inDepth →
      exec (.wrDin v) s = .next { s with inq := s.inq ++ [v.setWidth 8] })

/-- 44_host_access.md R199: a DOUT read returns 0 on an empty queue, else pops its head, with DONE where BUSY falls; a write
to DOUT is ignored. -/
def Obligations.DoutReadPops : Prop :=
  ∀ s : State,
    (∀ v, exec (.wrDout v) s = .next s) ∧
    (s.outq = [] → exec .rdDout s = .next { s with reads := 0 :: s.reads }) ∧
    (∀ b rest, s.outq = b :: rest → exec .rdDout s = .next { s with
      outq := rest, reads := BitVec.ofNat 32 (256 + b.toNat) :: s.reads
      done := if s.pend = none ∧ rest.length = s.params.outDepth then true else s.done })

/-- 44_host_access.md R205: a configuration write stores a legal value in IDLE with BUSY = 0, and is rejected with CFG_ERR
otherwise; the whole 32-bit value is checked. -/
def Obligations.ConfigWriteStoresOrRejects : Prop :=
  ∀ (s : State) (v : Word) (k : Fin 8), ∀ row ∈ [
      (Instr.wrCfgNord v, 1, 8, { s with nord := v.setWidth 4 }),
      (.wrCfgCeil v, 1, 32767, { s with ceil := v.setWidth 15 }),
      (.wrCfgRint v, 1, 65535, { s with rint := v.setWidth 16 }),
      (.wrOrder k v, 1, 32, { s with order := s.order.set k (v.setWidth 6) }),
      (.wrWeight k v, 0, 2047, { s with weight := s.weight.set k (v.setWidth 11) })],
    ((s.mode ≠ .idle ∨ busy s = true ∨ v.toNat < row.2.1 ∨ row.2.2.1 < v.toNat) →
      exec row.1 s = .next { s with err := s.err ||| 0x008#9, error := true }) ∧
    (s.mode = .idle → busy s = false → row.2.1 ≤ v.toNat → v.toNat ≤ row.2.2.1 → exec row.1 s = .next row.2.2.2)

/-- 10_state.md R23, R35, R47, R48 and R49: the fields of STATUS, its reserved bits, and the IRQ line. HOLD_IN is 1 exactly
if PEND holds DEC_START or DEC_SYM, EOI is 0 and the bits it needs (42_decoder.md R152, R156) are not there; a DEC_SYM
that finds TOTAL = 0 is not held (60_exceptions.md R228). -/
def Obligations.StatusFieldsAndIrq : Prop :=
  ∀ s : State,
    ((statusValue s).extractLsb' 0 2).toNat = (match s.mode with | .idle => 0 | .enc => 1 | .dec => 2 | .fault => 3) ∧
    ((statusValue s).getLsbD 2 = true ↔ s.pend ≠ none ∨ s.params.outDepth < s.outq.length) ∧
    (∀ (p : State) (sym : Byte) (lo hi : Word), p = predict s → sym = symbolAt p (target p) →
      (lo, hi) = narrow s.low s.high (cum p sym) (cum p sym + freq p sym) p.total.toNat →
      ((statusValue s).getLsbD 3 = true ↔ s.eoi = false ∧
        (pendCmd s = some .decStart ∧ 8 * s.inq.length < 32 ∨
          pendCmd s = some .decSym ∧ p.total ≠ 0 ∧
            s.rcnt.toNat + 8 * s.inq.length < renormSteps Config.renormPasses lo hi))) ∧
    (statusValue s).getLsbD 4 = s.eoi ∧
    (s.inq.length ≤ s.params.inDepth → s.params.legal →
      ((statusValue s).extractLsb' 8 5).toNat = s.inq.length ∧
      ((statusValue s).extractLsb' 16 5).toNat = min s.outq.length s.params.outDepth) ∧
    (statusValue s).getLsbD 23 = decide (s.err ≠ 0) ∧
    (∀ b ∈ [5, 6, 7, 13, 14, 15, 21, 22, 24, 25, 26, 27, 28, 29, 30, 31], (statusValue s).getLsbD b = false) ∧
    (irq s = true ↔ (s.done = true ∧ s.intEnable.getLsbD 0 = true) ∨ (s.error = true ∧ s.intEnable.getLsbD 1 = true) ∨
      (s.outq ≠ [] ∧ s.intEnable.getLsbD 2 = true))

/-- 20_memory.md R63: an access that is not 32 bits wide or not at a multiple of 4 has no next state. The name of the
refusal and the queue of events are the model's choice (assumptions 1 and 6). -/
def Obligations.InadmissibleAccessIsRefused : Prop :=
  ∀ (s : State) (a : Access) (rest : List HostEvent), s.hostq = ⟨true, .access a⟩ :: rest → s.resetPin = false →
    (a.bytes ≠ 4 ∨ a.off.toNat % 4 ≠ 0) → ∃ e, step s = .refused (.busError e)

/-! ## Step, decoding and encoding -/

/-- 43_control.md R176, 20_memory.md R69: the next step is exec of the command in PEND when it is the block's turn, and
exec of the operation of the next host access, taken off the queue, when it is not. The queue and its `early` bits, which
say whose turn it is, are the model's choice (assumptions 1 and 2). So is the step of a held command with no host event
left, which R176 and R257 give no step: it is that command's exec, and exec leaves the state as it is (assumption 14). -/
def Obligations.StepRunsTheDecodedOperation : Prop :=
  (∀ (s : State) (w : Word) (i : Instr), s.resetPin = false → s.pend = some w → decodeCmd w = .ok i →
    (s.hostq = [] ∨ (holdIn s = false ∧ ∃ act rest, s.hostq = ⟨false, act⟩ :: rest)) → step s = exec i s) ∧
  (∀ (s : State) (ev : HostEvent) (rest : List HostEvent) (a : Access) (i : Instr), s.resetPin = false →
    s.hostq = ev :: rest → ev.act = .access a → decodeAccess a = .ok i →
    (s.pend = none ∨ holdIn s = true ∨ ev.early = true) → step s = exec i { s with hostq := rest })

/-- 30_encoding.md R83 and R90: words and accesses written out from the encoding tables decode to their operations. -/
def Obligations.WrittenWordsDecode : Prop :=
  decodeCmd 0b00000000000000000000000000000000#32 = .ok .nop ∧
  decodeCmd 0b00000001000000000000000000000000#32 = .ok .softReset ∧
  decodeCmd 0b00000100000000000000000000000000#32 = .ok .refresh ∧
  decodeCmd 0b00000111000000000000000001100001#32 = .ok (.learn 0x61) ∧
  decodeCmd 0b00010001000000000000000011111111#32 = .ok (.encSym 0xFF) ∧
  decodeCmd 0b00100001000000000000000000000000#32 = .ok .decSym ∧
  decodeAccess { kind := .read, off := 0b000000010000#12, bytes := 4 } = .ok .rdStatus ∧
  decodeAccess { kind := .write 0x11000061#32, off := 0b000000001100#12, bytes := 4 } = .ok (.wrCmd 0x11000061#32) ∧
  decodeAccess { kind := .write 7#32, off := 0b000010111100#12, bytes := 4 } = .ok (.wrOrder 7 7#32) ∧
  decodeAccess { kind := .read, off := 0b000101000100#12, bytes := 4 } = .ok (.rdHist 1) ∧
  decodeAccess { kind := .read, off := 0b111111111100#12, bytes := 4 } = .ok (.unmapped 0xFFC .read)

/-- 30_encoding.md R83 and R90: decoding an encoded well-formed operation gives it back, with every operand. -/
def Obligations.DecodeOfEncode : Prop :=
  ∀ i : Instr, WellFormed i = true → decode (encode i) = .ok i

/-- 30_encoding.md R82, R83 and R90: whatever packet decodes is the encoding of the operation it decodes to, which is
well-formed, so that no bit of it is ignored. -/
def Obligations.EncodeOfDecode : Prop :=
  ∀ (p : Packet) (i : Instr), decode p = .ok i → encode i = p ∧ WellFormed i = true

/-! ## The invariant -/

/-- The invariant holds after reset, for every legal choice of the synthesis parameters. -/
def Obligations.ResetStateIsSafe : Prop :=
  ∀ p : Params, p.legal → Inv (State.resetWith p)

/-- 44_host_access.md R205, 00_scope.md R8: every step keeps every configuration register legal, and the parameters. -/
def Obligations.StepKeepsConfigurationLegal : Prop :=
  ∀ s t : State, ConfigOk s → step s = .next t → ConfigOk t ∧ t.params = s.params

/-- 10_state.md R53, in part: every step keeps cnt ≤ tot ≤ 32767 and prob in 1..255 in every entry (not R53's bound CEIL'
on tot, nor its clause on hot). That it keeps the table memory in canonical form is about the model's own layout
(assumption 9), not of R53. -/
def Obligations.StepKeepsTableInvariants : Prop :=
  ∀ s t : State, s.params.legal → TablesOk s → step s = .next t → TablesOk t

/-- 43_control.md R170, R176: in every step PEND stays empty or a legal command that MODE allows. -/
def Obligations.StepKeepsPendLegal : Prop :=
  ∀ s t : State, PendOk s → step s = .next t → PendOk t

/-- 10_state.md R36, R38, R43, R45, 40_predictor.md R110, 42_decoder.md R158: every step keeps the bounds of INQ, PHANTOM,
RCNT, HIST_VALID and DIAG_SEL, the history beyond HIST_VALID at 0, and RCNT and PHANTOM at 0 in IDLE and ENC (R158's own
inference). SYMCNT stays at most 65534, which follows from R110; it stands in place of R39's remark that SYMCNT never
exceeds RINT, which fails once RINT is lowered (assumption 15). -/
def Obligations.StepKeepsBounds : Prop :=
  ∀ s t : State, Inv s → step s = .next t → BoundsOk t

/-- 41_encoder.md R134 and R140, 42_decoder.md R164: in every step the interval of an open stream stays renormalized, and
in a decode stream LOW ≤ CODE ≤ HIGH, whatever the input bytes. -/
def Obligations.StepKeepsCodeInsideInterval : Prop :=
  ∀ s t : State, Inv s → step s = .next t → CoderOk t
end

