-- ==== Sys2Proof/Laws/Decode.lean ====
section
/-! SUPPORT. Laws of the encoding: the fields of a built command word, a word rebuilt from its fields, and which offsets
are registers. -/

namespace Sys2Proof

/-! ## Command words (30_encoding.md R80) -/

theorem opField_cmdWord (op : BitVec 8) (sym : Byte) : opField (cmdWord op sym) = op := by
  unfold opField cmdWord
  ext j hj
  simp only [BitVec.getElem_extractLsb', BitVec.getLsbD_append]
  simp [hj]

theorem rsvField_cmdWord (op : BitVec 8) (sym : Byte) : rsvField (cmdWord op sym) = 0 := by
  unfold rsvField cmdWord
  ext j hj
  simp only [BitVec.getElem_extractLsb', BitVec.getLsbD_append, BitVec.getLsbD_zero]
  simp [show 8 + j < 24 by omega, show ¬ 8 + j < 8 by omega]

theorem symField_cmdWord (op : BitVec 8) (sym : Byte) : symField (cmdWord op sym) = sym := by
  unfold symField cmdWord
  ext j hj
  simp only [BitVec.getElem_extractLsb', BitVec.getLsbD_append]
  simp [show j < 24 by omega, hj]

/-- A word whose reserved field is 0 is built from its opcode and its SYM field. -/
theorem cmdWord_fields {w : Word} (h : rsvField w = 0) : cmdWord (opField w) (symField w) = w := by
  have h' : ∀ i, i < 16 → w.getLsbD (8 + i) = false := by
    intro i hi
    have := congrArg (fun v => v.getLsbD i) h
    simpa [rsvField, hi] using this
  unfold cmdWord opField symField
  ext j hj
  simp only [BitVec.getElem_append, BitVec.getElem_extractLsb']
  split
  · split
    · simp [BitVec.getLsbD_eq_getElem hj]
    · have := h' (j - 8) (by omega)
      rw [show 8 + (j - 8) = j by omega, BitVec.getLsbD_eq_getElem hj] at this
      simp [this]
  · rw [show 24 + (j - 24) = j by omega, BitVec.getLsbD_eq_getElem hj]

/-! ## Offsets (10_state.md section 2) -/

/-- `regAt_isNone` on numerals: the kernel evaluates the 1024 aligned offsets. -/
theorem regAt_isNone_numeral : ∀ a b : Fin 32,
    (regAt (BitVec.ofNat 12 (4 * (32 * a.val + b.val)))).isNone =
      !mappedOffset (BitVec.ofNat 12 (4 * (32 * a.val + b.val))) := by
  decide +kernel

/-- An aligned offset is a register exactly if it lies in a mapped range. -/
theorem regAt_isNone {off : BitVec 12} (h : off.toNat % 4 = 0) : (regAt off).isNone = !mappedOffset off := by
  have hlt := off.isLt
  have := regAt_isNone_numeral ⟨off.toNat / 128, by omega⟩ ⟨off.toNat / 4 % 32, by omega⟩
  simp only at this
  rwa [show 4 * (32 * (off.toNat / 128) + off.toNat / 4 % 32) = off.toNat by omega, BitVec.ofNat_toNat,
    BitVec.setWidth_eq] at this

/-- Every register is found at its own offset. -/
theorem regAt_offset_self (r : Reg) : regAt (BitVec.ofNat 12 r.offset) = some r := by
  cases r with
  | order k => revert k; decide
  | weight k => revert k; decide
  | hist k => revert k; decide
  | idx k => revert k; decide
  | _ => rfl

end Sys2Proof
end

