-- ==== Sys2Proof/Laws/State.lean ====
section
/-! SUPPORT. What each shared operation leaves unchanged, one lemma per field, so that no later proof unfolds a record
update; and the values the simplest operations write. -/

namespace Sys2Proof.Machine

/-! ## reject -/

@[simp] theorem reject_params (e : ErrCause) (s : State) : (reject e s).params = s.params := rfl
@[simp] theorem reject_resetPin (e : ErrCause) (s : State) : (reject e s).resetPin = s.resetPin := rfl
@[simp] theorem reject_mode (e : ErrCause) (s : State) : (reject e s).mode = s.mode := rfl
@[simp] theorem reject_pend (e : ErrCause) (s : State) : (reject e s).pend = s.pend := rfl
@[simp] theorem reject_low (e : ErrCause) (s : State) : (reject e s).low = s.low := rfl
@[simp] theorem reject_high (e : ErrCause) (s : State) : (reject e s).high = s.high := rfl
@[simp] theorem reject_code (e : ErrCause) (s : State) : (reject e s).code = s.code := rfl
@[simp] theorem reject_pending (e : ErrCause) (s : State) : (reject e s).pending = s.pending := rfl
@[simp] theorem reject_obuf (e : ErrCause) (s : State) : (reject e s).obuf = s.obuf := rfl
@[simp] theorem reject_ocnt (e : ErrCause) (s : State) : (reject e s).ocnt = s.ocnt := rfl
@[simp] theorem reject_rbuf (e : ErrCause) (s : State) : (reject e s).rbuf = s.rbuf := rfl
@[simp] theorem reject_rcnt (e : ErrCause) (s : State) : (reject e s).rcnt = s.rcnt := rfl
@[simp] theorem reject_phantom (e : ErrCause) (s : State) : (reject e s).phantom = s.phantom := rfl
@[simp] theorem reject_symcnt (e : ErrCause) (s : State) : (reject e s).symcnt = s.symcnt := rfl
@[simp] theorem reject_streamSyms (e : ErrCause) (s : State) : (reject e s).streamSyms = s.streamSyms := rfl
@[simp] theorem reject_bitcnt (e : ErrCause) (s : State) : (reject e s).bitcnt = s.bitcnt := rfl
@[simp] theorem reject_hist (e : ErrCause) (s : State) : (reject e s).hist = s.hist := rfl
@[simp] theorem reject_histValid (e : ErrCause) (s : State) : (reject e s).histValid = s.histValid := rfl
@[simp] theorem reject_nord (e : ErrCause) (s : State) : (reject e s).nord = s.nord := rfl
@[simp] theorem reject_ceil (e : ErrCause) (s : State) : (reject e s).ceil = s.ceil := rfl
@[simp] theorem reject_rint (e : ErrCause) (s : State) : (reject e s).rint = s.rint := rfl
@[simp] theorem reject_order (e : ErrCause) (s : State) : (reject e s).order = s.order := rfl
@[simp] theorem reject_weight (e : ErrCause) (s : State) : (reject e s).weight = s.weight := rfl
@[simp] theorem reject_mem (e : ErrCause) (s : State) : (reject e s).mem = s.mem := rfl
@[simp] theorem reject_score (e : ErrCause) (s : State) : (reject e s).score = s.score := rfl
@[simp] theorem reject_total (e : ErrCause) (s : State) : (reject e s).total = s.total := rfl
@[simp] theorem reject_scoreIdx (e : ErrCause) (s : State) : (reject e s).scoreIdx = s.scoreIdx := rfl
@[simp] theorem reject_rsym (e : ErrCause) (s : State) : (reject e s).rsym = s.rsym := rfl
@[simp] theorem reject_rvalid (e : ErrCause) (s : State) : (reject e s).rvalid = s.rvalid := rfl
@[simp] theorem reject_diagSel (e : ErrCause) (s : State) : (reject e s).diagSel = s.diagSel := rfl
@[simp] theorem reject_inq (e : ErrCause) (s : State) : (reject e s).inq = s.inq := rfl
@[simp] theorem reject_eoi (e : ErrCause) (s : State) : (reject e s).eoi = s.eoi := rfl
@[simp] theorem reject_outq (e : ErrCause) (s : State) : (reject e s).outq = s.outq := rfl
@[simp] theorem reject_done (e : ErrCause) (s : State) : (reject e s).done = s.done := rfl
@[simp] theorem reject_intEnable (e : ErrCause) (s : State) : (reject e s).intEnable = s.intEnable := rfl
@[simp] theorem reject_hostq (e : ErrCause) (s : State) : (reject e s).hostq = s.hostq := rfl
@[simp] theorem reject_reads (e : ErrCause) (s : State) : (reject e s).reads = s.reads := rfl
@[simp] theorem reject_draws (e : ErrCause) (s : State) : (reject e s).draws = s.draws := rfl

/-! ## raiseFault -/

@[simp] theorem raiseFault_params (e : ErrCause) (s : State) : (raiseFault e s).params = s.params := rfl
@[simp] theorem raiseFault_resetPin (e : ErrCause) (s : State) : (raiseFault e s).resetPin = s.resetPin := rfl
@[simp] theorem raiseFault_pend (e : ErrCause) (s : State) : (raiseFault e s).pend = s.pend := rfl
@[simp] theorem raiseFault_low (e : ErrCause) (s : State) : (raiseFault e s).low = s.low := rfl
@[simp] theorem raiseFault_high (e : ErrCause) (s : State) : (raiseFault e s).high = s.high := rfl
@[simp] theorem raiseFault_code (e : ErrCause) (s : State) : (raiseFault e s).code = s.code := rfl
@[simp] theorem raiseFault_pending (e : ErrCause) (s : State) : (raiseFault e s).pending = s.pending := rfl
@[simp] theorem raiseFault_obuf (e : ErrCause) (s : State) : (raiseFault e s).obuf = s.obuf := rfl
@[simp] theorem raiseFault_ocnt (e : ErrCause) (s : State) : (raiseFault e s).ocnt = s.ocnt := rfl
@[simp] theorem raiseFault_rbuf (e : ErrCause) (s : State) : (raiseFault e s).rbuf = s.rbuf := rfl
@[simp] theorem raiseFault_rcnt (e : ErrCause) (s : State) : (raiseFault e s).rcnt = s.rcnt := rfl
@[simp] theorem raiseFault_phantom (e : ErrCause) (s : State) : (raiseFault e s).phantom = s.phantom := rfl
@[simp] theorem raiseFault_symcnt (e : ErrCause) (s : State) : (raiseFault e s).symcnt = s.symcnt := rfl
@[simp] theorem raiseFault_streamSyms (e : ErrCause) (s : State) : (raiseFault e s).streamSyms = s.streamSyms := rfl
@[simp] theorem raiseFault_bitcnt (e : ErrCause) (s : State) : (raiseFault e s).bitcnt = s.bitcnt := rfl
@[simp] theorem raiseFault_hist (e : ErrCause) (s : State) : (raiseFault e s).hist = s.hist := rfl
@[simp] theorem raiseFault_histValid (e : ErrCause) (s : State) : (raiseFault e s).histValid = s.histValid := rfl
@[simp] theorem raiseFault_nord (e : ErrCause) (s : State) : (raiseFault e s).nord = s.nord := rfl
@[simp] theorem raiseFault_ceil (e : ErrCause) (s : State) : (raiseFault e s).ceil = s.ceil := rfl
@[simp] theorem raiseFault_rint (e : ErrCause) (s : State) : (raiseFault e s).rint = s.rint := rfl
@[simp] theorem raiseFault_order (e : ErrCause) (s : State) : (raiseFault e s).order = s.order := rfl
@[simp] theorem raiseFault_weight (e : ErrCause) (s : State) : (raiseFault e s).weight = s.weight := rfl
@[simp] theorem raiseFault_mem (e : ErrCause) (s : State) : (raiseFault e s).mem = s.mem := rfl
@[simp] theorem raiseFault_score (e : ErrCause) (s : State) : (raiseFault e s).score = s.score := rfl
@[simp] theorem raiseFault_total (e : ErrCause) (s : State) : (raiseFault e s).total = s.total := rfl
@[simp] theorem raiseFault_scoreIdx (e : ErrCause) (s : State) : (raiseFault e s).scoreIdx = s.scoreIdx := rfl
@[simp] theorem raiseFault_rsym (e : ErrCause) (s : State) : (raiseFault e s).rsym = s.rsym := rfl
@[simp] theorem raiseFault_rvalid (e : ErrCause) (s : State) : (raiseFault e s).rvalid = s.rvalid := rfl
@[simp] theorem raiseFault_diagSel (e : ErrCause) (s : State) : (raiseFault e s).diagSel = s.diagSel := rfl
@[simp] theorem raiseFault_inq (e : ErrCause) (s : State) : (raiseFault e s).inq = s.inq := rfl
@[simp] theorem raiseFault_eoi (e : ErrCause) (s : State) : (raiseFault e s).eoi = s.eoi := rfl
@[simp] theorem raiseFault_outq (e : ErrCause) (s : State) : (raiseFault e s).outq = s.outq := rfl
@[simp] theorem raiseFault_done (e : ErrCause) (s : State) : (raiseFault e s).done = s.done := rfl
@[simp] theorem raiseFault_intEnable (e : ErrCause) (s : State) : (raiseFault e s).intEnable = s.intEnable := rfl
@[simp] theorem raiseFault_hostq (e : ErrCause) (s : State) : (raiseFault e s).hostq = s.hostq := rfl
@[simp] theorem raiseFault_reads (e : ErrCause) (s : State) : (raiseFault e s).reads = s.reads := rfl
@[simp] theorem raiseFault_draws (e : ErrCause) (s : State) : (raiseFault e s).draws = s.draws := rfl

/-! ## leaveStream -/

@[simp] theorem leaveStream_params (s : State) : (leaveStream s).params = s.params := rfl
@[simp] theorem leaveStream_resetPin (s : State) : (leaveStream s).resetPin = s.resetPin := rfl
@[simp] theorem leaveStream_pend (s : State) : (leaveStream s).pend = s.pend := rfl
@[simp] theorem leaveStream_low (s : State) : (leaveStream s).low = s.low := rfl
@[simp] theorem leaveStream_high (s : State) : (leaveStream s).high = s.high := rfl
@[simp] theorem leaveStream_code (s : State) : (leaveStream s).code = s.code := rfl
@[simp] theorem leaveStream_pending (s : State) : (leaveStream s).pending = s.pending := rfl
@[simp] theorem leaveStream_obuf (s : State) : (leaveStream s).obuf = s.obuf := rfl
@[simp] theorem leaveStream_ocnt (s : State) : (leaveStream s).ocnt = s.ocnt := rfl
@[simp] theorem leaveStream_symcnt (s : State) : (leaveStream s).symcnt = s.symcnt := rfl
@[simp] theorem leaveStream_streamSyms (s : State) : (leaveStream s).streamSyms = s.streamSyms := rfl
@[simp] theorem leaveStream_bitcnt (s : State) : (leaveStream s).bitcnt = s.bitcnt := rfl
@[simp] theorem leaveStream_hist (s : State) : (leaveStream s).hist = s.hist := rfl
@[simp] theorem leaveStream_histValid (s : State) : (leaveStream s).histValid = s.histValid := rfl
@[simp] theorem leaveStream_nord (s : State) : (leaveStream s).nord = s.nord := rfl
@[simp] theorem leaveStream_ceil (s : State) : (leaveStream s).ceil = s.ceil := rfl
@[simp] theorem leaveStream_rint (s : State) : (leaveStream s).rint = s.rint := rfl
@[simp] theorem leaveStream_order (s : State) : (leaveStream s).order = s.order := rfl
@[simp] theorem leaveStream_weight (s : State) : (leaveStream s).weight = s.weight := rfl
@[simp] theorem leaveStream_mem (s : State) : (leaveStream s).mem = s.mem := rfl
@[simp] theorem leaveStream_score (s : State) : (leaveStream s).score = s.score := rfl
@[simp] theorem leaveStream_total (s : State) : (leaveStream s).total = s.total := rfl
@[simp] theorem leaveStream_scoreIdx (s : State) : (leaveStream s).scoreIdx = s.scoreIdx := rfl
@[simp] theorem leaveStream_rsym (s : State) : (leaveStream s).rsym = s.rsym := rfl
@[simp] theorem leaveStream_rvalid (s : State) : (leaveStream s).rvalid = s.rvalid := rfl
@[simp] theorem leaveStream_diagSel (s : State) : (leaveStream s).diagSel = s.diagSel := rfl
@[simp] theorem leaveStream_outq (s : State) : (leaveStream s).outq = s.outq := rfl
@[simp] theorem leaveStream_err (s : State) : (leaveStream s).err = s.err := rfl
@[simp] theorem leaveStream_done (s : State) : (leaveStream s).done = s.done := rfl
@[simp] theorem leaveStream_error (s : State) : (leaveStream s).error = s.error := rfl
@[simp] theorem leaveStream_intEnable (s : State) : (leaveStream s).intEnable = s.intEnable := rfl
@[simp] theorem leaveStream_hostq (s : State) : (leaveStream s).hostq = s.hostq := rfl
@[simp] theorem leaveStream_reads (s : State) : (leaveStream s).reads = s.reads := rfl
@[simp] theorem leaveStream_draws (s : State) : (leaveStream s).draws = s.draws := rfl

/-! ## complete -/

@[simp] theorem complete_params (s : State) : (complete s).params = s.params := rfl
@[simp] theorem complete_resetPin (s : State) : (complete s).resetPin = s.resetPin := rfl
@[simp] theorem complete_mode (s : State) : (complete s).mode = s.mode := rfl
@[simp] theorem complete_low (s : State) : (complete s).low = s.low := rfl
@[simp] theorem complete_high (s : State) : (complete s).high = s.high := rfl
@[simp] theorem complete_code (s : State) : (complete s).code = s.code := rfl
@[simp] theorem complete_pending (s : State) : (complete s).pending = s.pending := rfl
@[simp] theorem complete_obuf (s : State) : (complete s).obuf = s.obuf := rfl
@[simp] theorem complete_ocnt (s : State) : (complete s).ocnt = s.ocnt := rfl
@[simp] theorem complete_rbuf (s : State) : (complete s).rbuf = s.rbuf := rfl
@[simp] theorem complete_rcnt (s : State) : (complete s).rcnt = s.rcnt := rfl
@[simp] theorem complete_phantom (s : State) : (complete s).phantom = s.phantom := rfl
@[simp] theorem complete_symcnt (s : State) : (complete s).symcnt = s.symcnt := rfl
@[simp] theorem complete_streamSyms (s : State) : (complete s).streamSyms = s.streamSyms := rfl
@[simp] theorem complete_bitcnt (s : State) : (complete s).bitcnt = s.bitcnt := rfl
@[simp] theorem complete_hist (s : State) : (complete s).hist = s.hist := rfl
@[simp] theorem complete_histValid (s : State) : (complete s).histValid = s.histValid := rfl
@[simp] theorem complete_nord (s : State) : (complete s).nord = s.nord := rfl
@[simp] theorem complete_ceil (s : State) : (complete s).ceil = s.ceil := rfl
@[simp] theorem complete_rint (s : State) : (complete s).rint = s.rint := rfl
@[simp] theorem complete_order (s : State) : (complete s).order = s.order := rfl
@[simp] theorem complete_weight (s : State) : (complete s).weight = s.weight := rfl
@[simp] theorem complete_mem (s : State) : (complete s).mem = s.mem := rfl
@[simp] theorem complete_score (s : State) : (complete s).score = s.score := rfl
@[simp] theorem complete_total (s : State) : (complete s).total = s.total := rfl
@[simp] theorem complete_scoreIdx (s : State) : (complete s).scoreIdx = s.scoreIdx := rfl
@[simp] theorem complete_rsym (s : State) : (complete s).rsym = s.rsym := rfl
@[simp] theorem complete_rvalid (s : State) : (complete s).rvalid = s.rvalid := rfl
@[simp] theorem complete_diagSel (s : State) : (complete s).diagSel = s.diagSel := rfl
@[simp] theorem complete_inq (s : State) : (complete s).inq = s.inq := rfl
@[simp] theorem complete_eoi (s : State) : (complete s).eoi = s.eoi := rfl
@[simp] theorem complete_outq (s : State) : (complete s).outq = s.outq := rfl
@[simp] theorem complete_err (s : State) : (complete s).err = s.err := rfl
@[simp] theorem complete_error (s : State) : (complete s).error = s.error := rfl
@[simp] theorem complete_intEnable (s : State) : (complete s).intEnable = s.intEnable := rfl
@[simp] theorem complete_hostq (s : State) : (complete s).hostq = s.hostq := rfl
@[simp] theorem complete_reads (s : State) : (complete s).reads = s.reads := rfl
@[simp] theorem complete_draws (s : State) : (complete s).draws = s.draws := rfl

/-! ## predict -/

@[simp] theorem predict_params (s : State) : (predict s).params = s.params := rfl
@[simp] theorem predict_resetPin (s : State) : (predict s).resetPin = s.resetPin := rfl
@[simp] theorem predict_mode (s : State) : (predict s).mode = s.mode := rfl
@[simp] theorem predict_pend (s : State) : (predict s).pend = s.pend := rfl
@[simp] theorem predict_low (s : State) : (predict s).low = s.low := rfl
@[simp] theorem predict_high (s : State) : (predict s).high = s.high := rfl
@[simp] theorem predict_code (s : State) : (predict s).code = s.code := rfl
@[simp] theorem predict_pending (s : State) : (predict s).pending = s.pending := rfl
@[simp] theorem predict_obuf (s : State) : (predict s).obuf = s.obuf := rfl
@[simp] theorem predict_ocnt (s : State) : (predict s).ocnt = s.ocnt := rfl
@[simp] theorem predict_rbuf (s : State) : (predict s).rbuf = s.rbuf := rfl
@[simp] theorem predict_rcnt (s : State) : (predict s).rcnt = s.rcnt := rfl
@[simp] theorem predict_phantom (s : State) : (predict s).phantom = s.phantom := rfl
@[simp] theorem predict_symcnt (s : State) : (predict s).symcnt = s.symcnt := rfl
@[simp] theorem predict_streamSyms (s : State) : (predict s).streamSyms = s.streamSyms := rfl
@[simp] theorem predict_bitcnt (s : State) : (predict s).bitcnt = s.bitcnt := rfl
@[simp] theorem predict_hist (s : State) : (predict s).hist = s.hist := rfl
@[simp] theorem predict_histValid (s : State) : (predict s).histValid = s.histValid := rfl
@[simp] theorem predict_nord (s : State) : (predict s).nord = s.nord := rfl
@[simp] theorem predict_ceil (s : State) : (predict s).ceil = s.ceil := rfl
@[simp] theorem predict_rint (s : State) : (predict s).rint = s.rint := rfl
@[simp] theorem predict_order (s : State) : (predict s).order = s.order := rfl
@[simp] theorem predict_weight (s : State) : (predict s).weight = s.weight := rfl
@[simp] theorem predict_mem (s : State) : (predict s).mem = s.mem := rfl
@[simp] theorem predict_scoreIdx (s : State) : (predict s).scoreIdx = s.scoreIdx := rfl
@[simp] theorem predict_rsym (s : State) : (predict s).rsym = s.rsym := rfl
@[simp] theorem predict_rvalid (s : State) : (predict s).rvalid = s.rvalid := rfl
@[simp] theorem predict_diagSel (s : State) : (predict s).diagSel = s.diagSel := rfl
@[simp] theorem predict_inq (s : State) : (predict s).inq = s.inq := rfl
@[simp] theorem predict_eoi (s : State) : (predict s).eoi = s.eoi := rfl
@[simp] theorem predict_outq (s : State) : (predict s).outq = s.outq := rfl
@[simp] theorem predict_err (s : State) : (predict s).err = s.err := rfl
@[simp] theorem predict_done (s : State) : (predict s).done = s.done := rfl
@[simp] theorem predict_error (s : State) : (predict s).error = s.error := rfl
@[simp] theorem predict_intEnable (s : State) : (predict s).intEnable = s.intEnable := rfl
@[simp] theorem predict_hostq (s : State) : (predict s).hostq = s.hostq := rfl
@[simp] theorem predict_reads (s : State) : (predict s).reads = s.reads := rfl
@[simp] theorem predict_draws (s : State) : (predict s).draws = s.draws := rfl

/-! ## update -/

@[simp] theorem update_params (s : State) (sym : Byte) : (update s sym).params = s.params := rfl
@[simp] theorem update_resetPin (s : State) (sym : Byte) : (update s sym).resetPin = s.resetPin := rfl
@[simp] theorem update_mode (s : State) (sym : Byte) : (update s sym).mode = s.mode := rfl
@[simp] theorem update_pend (s : State) (sym : Byte) : (update s sym).pend = s.pend := rfl
@[simp] theorem update_low (s : State) (sym : Byte) : (update s sym).low = s.low := rfl
@[simp] theorem update_high (s : State) (sym : Byte) : (update s sym).high = s.high := rfl
@[simp] theorem update_code (s : State) (sym : Byte) : (update s sym).code = s.code := rfl
@[simp] theorem update_pending (s : State) (sym : Byte) : (update s sym).pending = s.pending := rfl
@[simp] theorem update_obuf (s : State) (sym : Byte) : (update s sym).obuf = s.obuf := rfl
@[simp] theorem update_ocnt (s : State) (sym : Byte) : (update s sym).ocnt = s.ocnt := rfl
@[simp] theorem update_rbuf (s : State) (sym : Byte) : (update s sym).rbuf = s.rbuf := rfl
@[simp] theorem update_rcnt (s : State) (sym : Byte) : (update s sym).rcnt = s.rcnt := rfl
@[simp] theorem update_phantom (s : State) (sym : Byte) : (update s sym).phantom = s.phantom := rfl
@[simp] theorem update_symcnt (s : State) (sym : Byte) : (update s sym).symcnt = s.symcnt := rfl
@[simp] theorem update_streamSyms (s : State) (sym : Byte) : (update s sym).streamSyms = s.streamSyms := rfl
@[simp] theorem update_bitcnt (s : State) (sym : Byte) : (update s sym).bitcnt = s.bitcnt := rfl
@[simp] theorem update_hist (s : State) (sym : Byte) : (update s sym).hist = s.hist := rfl
@[simp] theorem update_histValid (s : State) (sym : Byte) : (update s sym).histValid = s.histValid := rfl
@[simp] theorem update_nord (s : State) (sym : Byte) : (update s sym).nord = s.nord := rfl
@[simp] theorem update_ceil (s : State) (sym : Byte) : (update s sym).ceil = s.ceil := rfl
@[simp] theorem update_rint (s : State) (sym : Byte) : (update s sym).rint = s.rint := rfl
@[simp] theorem update_order (s : State) (sym : Byte) : (update s sym).order = s.order := rfl
@[simp] theorem update_weight (s : State) (sym : Byte) : (update s sym).weight = s.weight := rfl
@[simp] theorem update_score (s : State) (sym : Byte) : (update s sym).score = s.score := rfl
@[simp] theorem update_total (s : State) (sym : Byte) : (update s sym).total = s.total := rfl
@[simp] theorem update_scoreIdx (s : State) (sym : Byte) : (update s sym).scoreIdx = s.scoreIdx := rfl
@[simp] theorem update_rsym (s : State) (sym : Byte) : (update s sym).rsym = s.rsym := rfl
@[simp] theorem update_rvalid (s : State) (sym : Byte) : (update s sym).rvalid = s.rvalid := rfl
@[simp] theorem update_diagSel (s : State) (sym : Byte) : (update s sym).diagSel = s.diagSel := rfl
@[simp] theorem update_inq (s : State) (sym : Byte) : (update s sym).inq = s.inq := rfl
@[simp] theorem update_eoi (s : State) (sym : Byte) : (update s sym).eoi = s.eoi := rfl
@[simp] theorem update_outq (s : State) (sym : Byte) : (update s sym).outq = s.outq := rfl
@[simp] theorem update_err (s : State) (sym : Byte) : (update s sym).err = s.err := rfl
@[simp] theorem update_done (s : State) (sym : Byte) : (update s sym).done = s.done := rfl
@[simp] theorem update_error (s : State) (sym : Byte) : (update s sym).error = s.error := rfl
@[simp] theorem update_intEnable (s : State) (sym : Byte) : (update s sym).intEnable = s.intEnable := rfl
@[simp] theorem update_hostq (s : State) (sym : Byte) : (update s sym).hostq = s.hostq := rfl
@[simp] theorem update_reads (s : State) (sym : Byte) : (update s sym).reads = s.reads := rfl
@[simp] theorem update_draws (s : State) (sym : Byte) : (update s sym).draws = s.draws := rfl

/-! ## refresh -/

@[simp] theorem refresh_params (s : State) : (refresh s).params = s.params := rfl
@[simp] theorem refresh_resetPin (s : State) : (refresh s).resetPin = s.resetPin := rfl
@[simp] theorem refresh_mode (s : State) : (refresh s).mode = s.mode := rfl
@[simp] theorem refresh_pend (s : State) : (refresh s).pend = s.pend := rfl
@[simp] theorem refresh_low (s : State) : (refresh s).low = s.low := rfl
@[simp] theorem refresh_high (s : State) : (refresh s).high = s.high := rfl
@[simp] theorem refresh_code (s : State) : (refresh s).code = s.code := rfl
@[simp] theorem refresh_pending (s : State) : (refresh s).pending = s.pending := rfl
@[simp] theorem refresh_obuf (s : State) : (refresh s).obuf = s.obuf := rfl
@[simp] theorem refresh_ocnt (s : State) : (refresh s).ocnt = s.ocnt := rfl
@[simp] theorem refresh_rbuf (s : State) : (refresh s).rbuf = s.rbuf := rfl
@[simp] theorem refresh_rcnt (s : State) : (refresh s).rcnt = s.rcnt := rfl
@[simp] theorem refresh_phantom (s : State) : (refresh s).phantom = s.phantom := rfl
@[simp] theorem refresh_streamSyms (s : State) : (refresh s).streamSyms = s.streamSyms := rfl
@[simp] theorem refresh_bitcnt (s : State) : (refresh s).bitcnt = s.bitcnt := rfl
@[simp] theorem refresh_hist (s : State) : (refresh s).hist = s.hist := rfl
@[simp] theorem refresh_histValid (s : State) : (refresh s).histValid = s.histValid := rfl
@[simp] theorem refresh_nord (s : State) : (refresh s).nord = s.nord := rfl
@[simp] theorem refresh_ceil (s : State) : (refresh s).ceil = s.ceil := rfl
@[simp] theorem refresh_rint (s : State) : (refresh s).rint = s.rint := rfl
@[simp] theorem refresh_order (s : State) : (refresh s).order = s.order := rfl
@[simp] theorem refresh_weight (s : State) : (refresh s).weight = s.weight := rfl
@[simp] theorem refresh_score (s : State) : (refresh s).score = s.score := rfl
@[simp] theorem refresh_total (s : State) : (refresh s).total = s.total := rfl
@[simp] theorem refresh_scoreIdx (s : State) : (refresh s).scoreIdx = s.scoreIdx := rfl
@[simp] theorem refresh_rsym (s : State) : (refresh s).rsym = s.rsym := rfl
@[simp] theorem refresh_rvalid (s : State) : (refresh s).rvalid = s.rvalid := rfl
@[simp] theorem refresh_diagSel (s : State) : (refresh s).diagSel = s.diagSel := rfl
@[simp] theorem refresh_inq (s : State) : (refresh s).inq = s.inq := rfl
@[simp] theorem refresh_eoi (s : State) : (refresh s).eoi = s.eoi := rfl
@[simp] theorem refresh_outq (s : State) : (refresh s).outq = s.outq := rfl
@[simp] theorem refresh_err (s : State) : (refresh s).err = s.err := rfl
@[simp] theorem refresh_done (s : State) : (refresh s).done = s.done := rfl
@[simp] theorem refresh_error (s : State) : (refresh s).error = s.error := rfl
@[simp] theorem refresh_intEnable (s : State) : (refresh s).intEnable = s.intEnable := rfl
@[simp] theorem refresh_hostq (s : State) : (refresh s).hostq = s.hostq := rfl
@[simp] theorem refresh_reads (s : State) : (refresh s).reads = s.reads := rfl
@[simp] theorem refresh_draws (s : State) : (refresh s).draws = s.draws := rfl

/-! ## histShift -/

@[simp] theorem histShift_params (s : State) (sym : Byte) : (histShift s sym).params = s.params := rfl
@[simp] theorem histShift_resetPin (s : State) (sym : Byte) : (histShift s sym).resetPin = s.resetPin := rfl
@[simp] theorem histShift_mode (s : State) (sym : Byte) : (histShift s sym).mode = s.mode := rfl
@[simp] theorem histShift_pend (s : State) (sym : Byte) : (histShift s sym).pend = s.pend := rfl
@[simp] theorem histShift_low (s : State) (sym : Byte) : (histShift s sym).low = s.low := rfl
@[simp] theorem histShift_high (s : State) (sym : Byte) : (histShift s sym).high = s.high := rfl
@[simp] theorem histShift_code (s : State) (sym : Byte) : (histShift s sym).code = s.code := rfl
@[simp] theorem histShift_pending (s : State) (sym : Byte) : (histShift s sym).pending = s.pending := rfl
@[simp] theorem histShift_obuf (s : State) (sym : Byte) : (histShift s sym).obuf = s.obuf := rfl
@[simp] theorem histShift_ocnt (s : State) (sym : Byte) : (histShift s sym).ocnt = s.ocnt := rfl
@[simp] theorem histShift_rbuf (s : State) (sym : Byte) : (histShift s sym).rbuf = s.rbuf := rfl
@[simp] theorem histShift_rcnt (s : State) (sym : Byte) : (histShift s sym).rcnt = s.rcnt := rfl
@[simp] theorem histShift_phantom (s : State) (sym : Byte) : (histShift s sym).phantom = s.phantom := rfl
@[simp] theorem histShift_symcnt (s : State) (sym : Byte) : (histShift s sym).symcnt = s.symcnt := rfl
@[simp] theorem histShift_streamSyms (s : State) (sym : Byte) : (histShift s sym).streamSyms = s.streamSyms := rfl
@[simp] theorem histShift_bitcnt (s : State) (sym : Byte) : (histShift s sym).bitcnt = s.bitcnt := rfl
@[simp] theorem histShift_nord (s : State) (sym : Byte) : (histShift s sym).nord = s.nord := rfl
@[simp] theorem histShift_ceil (s : State) (sym : Byte) : (histShift s sym).ceil = s.ceil := rfl
@[simp] theorem histShift_rint (s : State) (sym : Byte) : (histShift s sym).rint = s.rint := rfl
@[simp] theorem histShift_order (s : State) (sym : Byte) : (histShift s sym).order = s.order := rfl
@[simp] theorem histShift_weight (s : State) (sym : Byte) : (histShift s sym).weight = s.weight := rfl
@[simp] theorem histShift_mem (s : State) (sym : Byte) : (histShift s sym).mem = s.mem := rfl
@[simp] theorem histShift_score (s : State) (sym : Byte) : (histShift s sym).score = s.score := rfl
@[simp] theorem histShift_total (s : State) (sym : Byte) : (histShift s sym).total = s.total := rfl
@[simp] theorem histShift_scoreIdx (s : State) (sym : Byte) : (histShift s sym).scoreIdx = s.scoreIdx := rfl
@[simp] theorem histShift_rsym (s : State) (sym : Byte) : (histShift s sym).rsym = s.rsym := rfl
@[simp] theorem histShift_rvalid (s : State) (sym : Byte) : (histShift s sym).rvalid = s.rvalid := rfl
@[simp] theorem histShift_diagSel (s : State) (sym : Byte) : (histShift s sym).diagSel = s.diagSel := rfl
@[simp] theorem histShift_inq (s : State) (sym : Byte) : (histShift s sym).inq = s.inq := rfl
@[simp] theorem histShift_eoi (s : State) (sym : Byte) : (histShift s sym).eoi = s.eoi := rfl
@[simp] theorem histShift_outq (s : State) (sym : Byte) : (histShift s sym).outq = s.outq := rfl
@[simp] theorem histShift_err (s : State) (sym : Byte) : (histShift s sym).err = s.err := rfl
@[simp] theorem histShift_done (s : State) (sym : Byte) : (histShift s sym).done = s.done := rfl
@[simp] theorem histShift_error (s : State) (sym : Byte) : (histShift s sym).error = s.error := rfl
@[simp] theorem histShift_intEnable (s : State) (sym : Byte) : (histShift s sym).intEnable = s.intEnable := rfl
@[simp] theorem histShift_hostq (s : State) (sym : Byte) : (histShift s sym).hostq = s.hostq := rfl
@[simp] theorem histShift_reads (s : State) (sym : Byte) : (histShift s sym).reads = s.reads := rfl
@[simp] theorem histShift_draws (s : State) (sym : Byte) : (histShift s sym).draws = s.draws := rfl

/-! ## countSymbol -/

@[simp] theorem countSymbol_params (s : State) : (countSymbol s).params = s.params := rfl
@[simp] theorem countSymbol_resetPin (s : State) : (countSymbol s).resetPin = s.resetPin := rfl
@[simp] theorem countSymbol_mode (s : State) : (countSymbol s).mode = s.mode := rfl
@[simp] theorem countSymbol_pend (s : State) : (countSymbol s).pend = s.pend := rfl
@[simp] theorem countSymbol_low (s : State) : (countSymbol s).low = s.low := rfl
@[simp] theorem countSymbol_high (s : State) : (countSymbol s).high = s.high := rfl
@[simp] theorem countSymbol_code (s : State) : (countSymbol s).code = s.code := rfl
@[simp] theorem countSymbol_pending (s : State) : (countSymbol s).pending = s.pending := rfl
@[simp] theorem countSymbol_obuf (s : State) : (countSymbol s).obuf = s.obuf := rfl
@[simp] theorem countSymbol_ocnt (s : State) : (countSymbol s).ocnt = s.ocnt := rfl
@[simp] theorem countSymbol_rbuf (s : State) : (countSymbol s).rbuf = s.rbuf := rfl
@[simp] theorem countSymbol_rcnt (s : State) : (countSymbol s).rcnt = s.rcnt := rfl
@[simp] theorem countSymbol_phantom (s : State) : (countSymbol s).phantom = s.phantom := rfl
@[simp] theorem countSymbol_streamSyms (s : State) : (countSymbol s).streamSyms = s.streamSyms := rfl
@[simp] theorem countSymbol_bitcnt (s : State) : (countSymbol s).bitcnt = s.bitcnt := rfl
@[simp] theorem countSymbol_hist (s : State) : (countSymbol s).hist = s.hist := rfl
@[simp] theorem countSymbol_histValid (s : State) : (countSymbol s).histValid = s.histValid := rfl
@[simp] theorem countSymbol_nord (s : State) : (countSymbol s).nord = s.nord := rfl
@[simp] theorem countSymbol_ceil (s : State) : (countSymbol s).ceil = s.ceil := rfl
@[simp] theorem countSymbol_rint (s : State) : (countSymbol s).rint = s.rint := rfl
@[simp] theorem countSymbol_order (s : State) : (countSymbol s).order = s.order := rfl
@[simp] theorem countSymbol_weight (s : State) : (countSymbol s).weight = s.weight := rfl
@[simp] theorem countSymbol_score (s : State) : (countSymbol s).score = s.score := rfl
@[simp] theorem countSymbol_total (s : State) : (countSymbol s).total = s.total := rfl
@[simp] theorem countSymbol_scoreIdx (s : State) : (countSymbol s).scoreIdx = s.scoreIdx := rfl
@[simp] theorem countSymbol_rsym (s : State) : (countSymbol s).rsym = s.rsym := rfl
@[simp] theorem countSymbol_rvalid (s : State) : (countSymbol s).rvalid = s.rvalid := rfl
@[simp] theorem countSymbol_diagSel (s : State) : (countSymbol s).diagSel = s.diagSel := rfl
@[simp] theorem countSymbol_inq (s : State) : (countSymbol s).inq = s.inq := rfl
@[simp] theorem countSymbol_eoi (s : State) : (countSymbol s).eoi = s.eoi := rfl
@[simp] theorem countSymbol_outq (s : State) : (countSymbol s).outq = s.outq := rfl
@[simp] theorem countSymbol_err (s : State) : (countSymbol s).err = s.err := rfl
@[simp] theorem countSymbol_done (s : State) : (countSymbol s).done = s.done := rfl
@[simp] theorem countSymbol_error (s : State) : (countSymbol s).error = s.error := rfl
@[simp] theorem countSymbol_intEnable (s : State) : (countSymbol s).intEnable = s.intEnable := rfl
@[simp] theorem countSymbol_hostq (s : State) : (countSymbol s).hostq = s.hostq := rfl
@[simp] theorem countSymbol_reads (s : State) : (countSymbol s).reads = s.reads := rfl
@[simp] theorem countSymbol_draws (s : State) : (countSymbol s).draws = s.draws := rfl

/-! ## tail -/

@[simp] theorem tail_params (s : State) (sym : Byte) : (tail s sym).params = s.params := by simp [tail]
@[simp] theorem tail_resetPin (s : State) (sym : Byte) : (tail s sym).resetPin = s.resetPin := by simp [tail]
@[simp] theorem tail_mode (s : State) (sym : Byte) : (tail s sym).mode = s.mode := by simp [tail]
@[simp] theorem tail_pend (s : State) (sym : Byte) : (tail s sym).pend = s.pend := by simp [tail]
@[simp] theorem tail_low (s : State) (sym : Byte) : (tail s sym).low = s.low := by simp [tail]
@[simp] theorem tail_high (s : State) (sym : Byte) : (tail s sym).high = s.high := by simp [tail]
@[simp] theorem tail_code (s : State) (sym : Byte) : (tail s sym).code = s.code := by simp [tail]
@[simp] theorem tail_pending (s : State) (sym : Byte) : (tail s sym).pending = s.pending := by simp [tail]
@[simp] theorem tail_obuf (s : State) (sym : Byte) : (tail s sym).obuf = s.obuf := by simp [tail]
@[simp] theorem tail_ocnt (s : State) (sym : Byte) : (tail s sym).ocnt = s.ocnt := by simp [tail]
@[simp] theorem tail_rbuf (s : State) (sym : Byte) : (tail s sym).rbuf = s.rbuf := by simp [tail]
@[simp] theorem tail_rcnt (s : State) (sym : Byte) : (tail s sym).rcnt = s.rcnt := by simp [tail]
@[simp] theorem tail_phantom (s : State) (sym : Byte) : (tail s sym).phantom = s.phantom := by simp [tail]
@[simp] theorem tail_streamSyms (s : State) (sym : Byte) : (tail s sym).streamSyms = s.streamSyms := by simp [tail]
@[simp] theorem tail_bitcnt (s : State) (sym : Byte) : (tail s sym).bitcnt = s.bitcnt := by simp [tail]
@[simp] theorem tail_nord (s : State) (sym : Byte) : (tail s sym).nord = s.nord := by simp [tail]
@[simp] theorem tail_ceil (s : State) (sym : Byte) : (tail s sym).ceil = s.ceil := by simp [tail]
@[simp] theorem tail_rint (s : State) (sym : Byte) : (tail s sym).rint = s.rint := by simp [tail]
@[simp] theorem tail_order (s : State) (sym : Byte) : (tail s sym).order = s.order := by simp [tail]
@[simp] theorem tail_weight (s : State) (sym : Byte) : (tail s sym).weight = s.weight := by simp [tail]
@[simp] theorem tail_score (s : State) (sym : Byte) : (tail s sym).score = s.score := by simp [tail]
@[simp] theorem tail_total (s : State) (sym : Byte) : (tail s sym).total = s.total := by simp [tail]
@[simp] theorem tail_scoreIdx (s : State) (sym : Byte) : (tail s sym).scoreIdx = s.scoreIdx := by simp [tail]
@[simp] theorem tail_rsym (s : State) (sym : Byte) : (tail s sym).rsym = s.rsym := by simp [tail]
@[simp] theorem tail_rvalid (s : State) (sym : Byte) : (tail s sym).rvalid = s.rvalid := by simp [tail]
@[simp] theorem tail_diagSel (s : State) (sym : Byte) : (tail s sym).diagSel = s.diagSel := by simp [tail]
@[simp] theorem tail_inq (s : State) (sym : Byte) : (tail s sym).inq = s.inq := by simp [tail]
@[simp] theorem tail_eoi (s : State) (sym : Byte) : (tail s sym).eoi = s.eoi := by simp [tail]
@[simp] theorem tail_outq (s : State) (sym : Byte) : (tail s sym).outq = s.outq := by simp [tail]
@[simp] theorem tail_err (s : State) (sym : Byte) : (tail s sym).err = s.err := by simp [tail]
@[simp] theorem tail_done (s : State) (sym : Byte) : (tail s sym).done = s.done := by simp [tail]
@[simp] theorem tail_error (s : State) (sym : Byte) : (tail s sym).error = s.error := by simp [tail]
@[simp] theorem tail_intEnable (s : State) (sym : Byte) : (tail s sym).intEnable = s.intEnable := by simp [tail]
@[simp] theorem tail_hostq (s : State) (sym : Byte) : (tail s sym).hostq = s.hostq := by simp [tail]
@[simp] theorem tail_reads (s : State) (sym : Byte) : (tail s sym).reads = s.reads := by simp [tail]
@[simp] theorem tail_draws (s : State) (sym : Byte) : (tail s sym).draws = s.draws := by simp [tail]

/-! ## emitBit -/

@[simp] theorem emitBit_params (b : Bool) (s : State) : (emitBit b s).params = s.params := rfl
@[simp] theorem emitBit_resetPin (b : Bool) (s : State) : (emitBit b s).resetPin = s.resetPin := rfl
@[simp] theorem emitBit_mode (b : Bool) (s : State) : (emitBit b s).mode = s.mode := rfl
@[simp] theorem emitBit_pend (b : Bool) (s : State) : (emitBit b s).pend = s.pend := rfl
@[simp] theorem emitBit_low (b : Bool) (s : State) : (emitBit b s).low = s.low := rfl
@[simp] theorem emitBit_high (b : Bool) (s : State) : (emitBit b s).high = s.high := rfl
@[simp] theorem emitBit_code (b : Bool) (s : State) : (emitBit b s).code = s.code := rfl
@[simp] theorem emitBit_pending (b : Bool) (s : State) : (emitBit b s).pending = s.pending := rfl
@[simp] theorem emitBit_rbuf (b : Bool) (s : State) : (emitBit b s).rbuf = s.rbuf := rfl
@[simp] theorem emitBit_rcnt (b : Bool) (s : State) : (emitBit b s).rcnt = s.rcnt := rfl
@[simp] theorem emitBit_phantom (b : Bool) (s : State) : (emitBit b s).phantom = s.phantom := rfl
@[simp] theorem emitBit_symcnt (b : Bool) (s : State) : (emitBit b s).symcnt = s.symcnt := rfl
@[simp] theorem emitBit_streamSyms (b : Bool) (s : State) : (emitBit b s).streamSyms = s.streamSyms := rfl
@[simp] theorem emitBit_hist (b : Bool) (s : State) : (emitBit b s).hist = s.hist := rfl
@[simp] theorem emitBit_histValid (b : Bool) (s : State) : (emitBit b s).histValid = s.histValid := rfl
@[simp] theorem emitBit_nord (b : Bool) (s : State) : (emitBit b s).nord = s.nord := rfl
@[simp] theorem emitBit_ceil (b : Bool) (s : State) : (emitBit b s).ceil = s.ceil := rfl
@[simp] theorem emitBit_rint (b : Bool) (s : State) : (emitBit b s).rint = s.rint := rfl
@[simp] theorem emitBit_order (b : Bool) (s : State) : (emitBit b s).order = s.order := rfl
@[simp] theorem emitBit_weight (b : Bool) (s : State) : (emitBit b s).weight = s.weight := rfl
@[simp] theorem emitBit_mem (b : Bool) (s : State) : (emitBit b s).mem = s.mem := rfl
@[simp] theorem emitBit_score (b : Bool) (s : State) : (emitBit b s).score = s.score := rfl
@[simp] theorem emitBit_total (b : Bool) (s : State) : (emitBit b s).total = s.total := rfl
@[simp] theorem emitBit_scoreIdx (b : Bool) (s : State) : (emitBit b s).scoreIdx = s.scoreIdx := rfl
@[simp] theorem emitBit_rsym (b : Bool) (s : State) : (emitBit b s).rsym = s.rsym := rfl
@[simp] theorem emitBit_rvalid (b : Bool) (s : State) : (emitBit b s).rvalid = s.rvalid := rfl
@[simp] theorem emitBit_diagSel (b : Bool) (s : State) : (emitBit b s).diagSel = s.diagSel := rfl
@[simp] theorem emitBit_inq (b : Bool) (s : State) : (emitBit b s).inq = s.inq := rfl
@[simp] theorem emitBit_eoi (b : Bool) (s : State) : (emitBit b s).eoi = s.eoi := rfl
@[simp] theorem emitBit_err (b : Bool) (s : State) : (emitBit b s).err = s.err := rfl
@[simp] theorem emitBit_done (b : Bool) (s : State) : (emitBit b s).done = s.done := rfl
@[simp] theorem emitBit_error (b : Bool) (s : State) : (emitBit b s).error = s.error := rfl
@[simp] theorem emitBit_intEnable (b : Bool) (s : State) : (emitBit b s).intEnable = s.intEnable := rfl
@[simp] theorem emitBit_hostq (b : Bool) (s : State) : (emitBit b s).hostq = s.hostq := rfl
@[simp] theorem emitBit_reads (b : Bool) (s : State) : (emitBit b s).reads = s.reads := rfl
@[simp] theorem emitBit_draws (b : Bool) (s : State) : (emitBit b s).draws = s.draws := rfl

/-! ## emitMany -/

theorem emitMany_frame (b : Bool) (n : Nat) (s : State) :
    emitMany b n s = { s with
      obuf := (emitMany b n s).obuf, ocnt := (emitMany b n s).ocnt, bitcnt := (emitMany b n s).bitcnt
      outq := (emitMany b n s).outq } := by
  induction n generalizing s with
  | zero => rfl
  | succ n ih => rw [emitMany, ih]; rfl

@[simp] theorem emitMany_params (b : Bool) (n : Nat) (s : State) : (emitMany b n s).params = s.params := by rw [emitMany_frame]
@[simp] theorem emitMany_resetPin (b : Bool) (n : Nat) (s : State) : (emitMany b n s).resetPin = s.resetPin := by rw [emitMany_frame]
@[simp] theorem emitMany_mode (b : Bool) (n : Nat) (s : State) : (emitMany b n s).mode = s.mode := by rw [emitMany_frame]
@[simp] theorem emitMany_pend (b : Bool) (n : Nat) (s : State) : (emitMany b n s).pend = s.pend := by rw [emitMany_frame]
@[simp] theorem emitMany_low (b : Bool) (n : Nat) (s : State) : (emitMany b n s).low = s.low := by rw [emitMany_frame]
@[simp] theorem emitMany_high (b : Bool) (n : Nat) (s : State) : (emitMany b n s).high = s.high := by rw [emitMany_frame]
@[simp] theorem emitMany_code (b : Bool) (n : Nat) (s : State) : (emitMany b n s).code = s.code := by rw [emitMany_frame]
@[simp] theorem emitMany_pending (b : Bool) (n : Nat) (s : State) : (emitMany b n s).pending = s.pending := by rw [emitMany_frame]
@[simp] theorem emitMany_rbuf (b : Bool) (n : Nat) (s : State) : (emitMany b n s).rbuf = s.rbuf := by rw [emitMany_frame]
@[simp] theorem emitMany_rcnt (b : Bool) (n : Nat) (s : State) : (emitMany b n s).rcnt = s.rcnt := by rw [emitMany_frame]
@[simp] theorem emitMany_phantom (b : Bool) (n : Nat) (s : State) : (emitMany b n s).phantom = s.phantom := by rw [emitMany_frame]
@[simp] theorem emitMany_symcnt (b : Bool) (n : Nat) (s : State) : (emitMany b n s).symcnt = s.symcnt := by rw [emitMany_frame]
@[simp] theorem emitMany_streamSyms (b : Bool) (n : Nat) (s : State) : (emitMany b n s).streamSyms = s.streamSyms := by rw [emitMany_frame]
@[simp] theorem emitMany_hist (b : Bool) (n : Nat) (s : State) : (emitMany b n s).hist = s.hist := by rw [emitMany_frame]
@[simp] theorem emitMany_histValid (b : Bool) (n : Nat) (s : State) : (emitMany b n s).histValid = s.histValid := by rw [emitMany_frame]
@[simp] theorem emitMany_nord (b : Bool) (n : Nat) (s : State) : (emitMany b n s).nord = s.nord := by rw [emitMany_frame]
@[simp] theorem emitMany_ceil (b : Bool) (n : Nat) (s : State) : (emitMany b n s).ceil = s.ceil := by rw [emitMany_frame]
@[simp] theorem emitMany_rint (b : Bool) (n : Nat) (s : State) : (emitMany b n s).rint = s.rint := by rw [emitMany_frame]
@[simp] theorem emitMany_order (b : Bool) (n : Nat) (s : State) : (emitMany b n s).order = s.order := by rw [emitMany_frame]
@[simp] theorem emitMany_weight (b : Bool) (n : Nat) (s : State) : (emitMany b n s).weight = s.weight := by rw [emitMany_frame]
@[simp] theorem emitMany_mem (b : Bool) (n : Nat) (s : State) : (emitMany b n s).mem = s.mem := by rw [emitMany_frame]
@[simp] theorem emitMany_score (b : Bool) (n : Nat) (s : State) : (emitMany b n s).score = s.score := by rw [emitMany_frame]
@[simp] theorem emitMany_total (b : Bool) (n : Nat) (s : State) : (emitMany b n s).total = s.total := by rw [emitMany_frame]
@[simp] theorem emitMany_scoreIdx (b : Bool) (n : Nat) (s : State) : (emitMany b n s).scoreIdx = s.scoreIdx := by rw [emitMany_frame]
@[simp] theorem emitMany_rsym (b : Bool) (n : Nat) (s : State) : (emitMany b n s).rsym = s.rsym := by rw [emitMany_frame]
@[simp] theorem emitMany_rvalid (b : Bool) (n : Nat) (s : State) : (emitMany b n s).rvalid = s.rvalid := by rw [emitMany_frame]
@[simp] theorem emitMany_diagSel (b : Bool) (n : Nat) (s : State) : (emitMany b n s).diagSel = s.diagSel := by rw [emitMany_frame]
@[simp] theorem emitMany_inq (b : Bool) (n : Nat) (s : State) : (emitMany b n s).inq = s.inq := by rw [emitMany_frame]
@[simp] theorem emitMany_eoi (b : Bool) (n : Nat) (s : State) : (emitMany b n s).eoi = s.eoi := by rw [emitMany_frame]
@[simp] theorem emitMany_err (b : Bool) (n : Nat) (s : State) : (emitMany b n s).err = s.err := by rw [emitMany_frame]
@[simp] theorem emitMany_done (b : Bool) (n : Nat) (s : State) : (emitMany b n s).done = s.done := by rw [emitMany_frame]
@[simp] theorem emitMany_error (b : Bool) (n : Nat) (s : State) : (emitMany b n s).error = s.error := by rw [emitMany_frame]
@[simp] theorem emitMany_intEnable (b : Bool) (n : Nat) (s : State) : (emitMany b n s).intEnable = s.intEnable := by rw [emitMany_frame]
@[simp] theorem emitMany_hostq (b : Bool) (n : Nat) (s : State) : (emitMany b n s).hostq = s.hostq := by rw [emitMany_frame]
@[simp] theorem emitMany_reads (b : Bool) (n : Nat) (s : State) : (emitMany b n s).reads = s.reads := by rw [emitMany_frame]
@[simp] theorem emitMany_draws (b : Bool) (n : Nat) (s : State) : (emitMany b n s).draws = s.draws := by rw [emitMany_frame]

/-! ## emitPend -/

@[simp] theorem emitPend_params (b : Bool) (s : State) : (emitPend b s).params = s.params := by simp [emitPend]
@[simp] theorem emitPend_resetPin (b : Bool) (s : State) : (emitPend b s).resetPin = s.resetPin := by simp [emitPend]
@[simp] theorem emitPend_mode (b : Bool) (s : State) : (emitPend b s).mode = s.mode := by simp [emitPend]
@[simp] theorem emitPend_pend (b : Bool) (s : State) : (emitPend b s).pend = s.pend := by simp [emitPend]
@[simp] theorem emitPend_low (b : Bool) (s : State) : (emitPend b s).low = s.low := by simp [emitPend]
@[simp] theorem emitPend_high (b : Bool) (s : State) : (emitPend b s).high = s.high := by simp [emitPend]
@[simp] theorem emitPend_code (b : Bool) (s : State) : (emitPend b s).code = s.code := by simp [emitPend]
@[simp] theorem emitPend_rbuf (b : Bool) (s : State) : (emitPend b s).rbuf = s.rbuf := by simp [emitPend]
@[simp] theorem emitPend_rcnt (b : Bool) (s : State) : (emitPend b s).rcnt = s.rcnt := by simp [emitPend]
@[simp] theorem emitPend_phantom (b : Bool) (s : State) : (emitPend b s).phantom = s.phantom := by simp [emitPend]
@[simp] theorem emitPend_symcnt (b : Bool) (s : State) : (emitPend b s).symcnt = s.symcnt := by simp [emitPend]
@[simp] theorem emitPend_streamSyms (b : Bool) (s : State) : (emitPend b s).streamSyms = s.streamSyms := by simp [emitPend]
@[simp] theorem emitPend_hist (b : Bool) (s : State) : (emitPend b s).hist = s.hist := by simp [emitPend]
@[simp] theorem emitPend_histValid (b : Bool) (s : State) : (emitPend b s).histValid = s.histValid := by simp [emitPend]
@[simp] theorem emitPend_nord (b : Bool) (s : State) : (emitPend b s).nord = s.nord := by simp [emitPend]
@[simp] theorem emitPend_ceil (b : Bool) (s : State) : (emitPend b s).ceil = s.ceil := by simp [emitPend]
@[simp] theorem emitPend_rint (b : Bool) (s : State) : (emitPend b s).rint = s.rint := by simp [emitPend]
@[simp] theorem emitPend_order (b : Bool) (s : State) : (emitPend b s).order = s.order := by simp [emitPend]
@[simp] theorem emitPend_weight (b : Bool) (s : State) : (emitPend b s).weight = s.weight := by simp [emitPend]
@[simp] theorem emitPend_mem (b : Bool) (s : State) : (emitPend b s).mem = s.mem := by simp [emitPend]
@[simp] theorem emitPend_score (b : Bool) (s : State) : (emitPend b s).score = s.score := by simp [emitPend]
@[simp] theorem emitPend_total (b : Bool) (s : State) : (emitPend b s).total = s.total := by simp [emitPend]
@[simp] theorem emitPend_scoreIdx (b : Bool) (s : State) : (emitPend b s).scoreIdx = s.scoreIdx := by simp [emitPend]
@[simp] theorem emitPend_rsym (b : Bool) (s : State) : (emitPend b s).rsym = s.rsym := by simp [emitPend]
@[simp] theorem emitPend_rvalid (b : Bool) (s : State) : (emitPend b s).rvalid = s.rvalid := by simp [emitPend]
@[simp] theorem emitPend_diagSel (b : Bool) (s : State) : (emitPend b s).diagSel = s.diagSel := by simp [emitPend]
@[simp] theorem emitPend_inq (b : Bool) (s : State) : (emitPend b s).inq = s.inq := by simp [emitPend]
@[simp] theorem emitPend_eoi (b : Bool) (s : State) : (emitPend b s).eoi = s.eoi := by simp [emitPend]
@[simp] theorem emitPend_err (b : Bool) (s : State) : (emitPend b s).err = s.err := by simp [emitPend]
@[simp] theorem emitPend_done (b : Bool) (s : State) : (emitPend b s).done = s.done := by simp [emitPend]
@[simp] theorem emitPend_error (b : Bool) (s : State) : (emitPend b s).error = s.error := by simp [emitPend]
@[simp] theorem emitPend_intEnable (b : Bool) (s : State) : (emitPend b s).intEnable = s.intEnable := by simp [emitPend]
@[simp] theorem emitPend_hostq (b : Bool) (s : State) : (emitPend b s).hostq = s.hostq := by simp [emitPend]
@[simp] theorem emitPend_reads (b : Bool) (s : State) : (emitPend b s).reads = s.reads := by simp [emitPend]
@[simp] theorem emitPend_draws (b : Bool) (s : State) : (emitPend b s).draws = s.draws := by simp [emitPend]

/-! ## shiftBounds -/

@[simp] theorem shiftBounds_params (c : RenormCase) (s : State) : (shiftBounds c s).params = s.params := rfl
@[simp] theorem shiftBounds_resetPin (c : RenormCase) (s : State) : (shiftBounds c s).resetPin = s.resetPin := rfl
@[simp] theorem shiftBounds_mode (c : RenormCase) (s : State) : (shiftBounds c s).mode = s.mode := rfl
@[simp] theorem shiftBounds_pend (c : RenormCase) (s : State) : (shiftBounds c s).pend = s.pend := rfl
@[simp] theorem shiftBounds_code (c : RenormCase) (s : State) : (shiftBounds c s).code = s.code := rfl
@[simp] theorem shiftBounds_pending (c : RenormCase) (s : State) : (shiftBounds c s).pending = s.pending := rfl
@[simp] theorem shiftBounds_obuf (c : RenormCase) (s : State) : (shiftBounds c s).obuf = s.obuf := rfl
@[simp] theorem shiftBounds_ocnt (c : RenormCase) (s : State) : (shiftBounds c s).ocnt = s.ocnt := rfl
@[simp] theorem shiftBounds_rbuf (c : RenormCase) (s : State) : (shiftBounds c s).rbuf = s.rbuf := rfl
@[simp] theorem shiftBounds_rcnt (c : RenormCase) (s : State) : (shiftBounds c s).rcnt = s.rcnt := rfl
@[simp] theorem shiftBounds_phantom (c : RenormCase) (s : State) : (shiftBounds c s).phantom = s.phantom := rfl
@[simp] theorem shiftBounds_symcnt (c : RenormCase) (s : State) : (shiftBounds c s).symcnt = s.symcnt := rfl
@[simp] theorem shiftBounds_streamSyms (c : RenormCase) (s : State) : (shiftBounds c s).streamSyms = s.streamSyms := rfl
@[simp] theorem shiftBounds_bitcnt (c : RenormCase) (s : State) : (shiftBounds c s).bitcnt = s.bitcnt := rfl
@[simp] theorem shiftBounds_hist (c : RenormCase) (s : State) : (shiftBounds c s).hist = s.hist := rfl
@[simp] theorem shiftBounds_histValid (c : RenormCase) (s : State) : (shiftBounds c s).histValid = s.histValid := rfl
@[simp] theorem shiftBounds_nord (c : RenormCase) (s : State) : (shiftBounds c s).nord = s.nord := rfl
@[simp] theorem shiftBounds_ceil (c : RenormCase) (s : State) : (shiftBounds c s).ceil = s.ceil := rfl
@[simp] theorem shiftBounds_rint (c : RenormCase) (s : State) : (shiftBounds c s).rint = s.rint := rfl
@[simp] theorem shiftBounds_order (c : RenormCase) (s : State) : (shiftBounds c s).order = s.order := rfl
@[simp] theorem shiftBounds_weight (c : RenormCase) (s : State) : (shiftBounds c s).weight = s.weight := rfl
@[simp] theorem shiftBounds_mem (c : RenormCase) (s : State) : (shiftBounds c s).mem = s.mem := rfl
@[simp] theorem shiftBounds_score (c : RenormCase) (s : State) : (shiftBounds c s).score = s.score := rfl
@[simp] theorem shiftBounds_total (c : RenormCase) (s : State) : (shiftBounds c s).total = s.total := rfl
@[simp] theorem shiftBounds_scoreIdx (c : RenormCase) (s : State) : (shiftBounds c s).scoreIdx = s.scoreIdx := rfl
@[simp] theorem shiftBounds_rsym (c : RenormCase) (s : State) : (shiftBounds c s).rsym = s.rsym := rfl
@[simp] theorem shiftBounds_rvalid (c : RenormCase) (s : State) : (shiftBounds c s).rvalid = s.rvalid := rfl
@[simp] theorem shiftBounds_diagSel (c : RenormCase) (s : State) : (shiftBounds c s).diagSel = s.diagSel := rfl
@[simp] theorem shiftBounds_inq (c : RenormCase) (s : State) : (shiftBounds c s).inq = s.inq := rfl
@[simp] theorem shiftBounds_eoi (c : RenormCase) (s : State) : (shiftBounds c s).eoi = s.eoi := rfl
@[simp] theorem shiftBounds_outq (c : RenormCase) (s : State) : (shiftBounds c s).outq = s.outq := rfl
@[simp] theorem shiftBounds_err (c : RenormCase) (s : State) : (shiftBounds c s).err = s.err := rfl
@[simp] theorem shiftBounds_done (c : RenormCase) (s : State) : (shiftBounds c s).done = s.done := rfl
@[simp] theorem shiftBounds_error (c : RenormCase) (s : State) : (shiftBounds c s).error = s.error := rfl
@[simp] theorem shiftBounds_intEnable (c : RenormCase) (s : State) : (shiftBounds c s).intEnable = s.intEnable := rfl
@[simp] theorem shiftBounds_hostq (c : RenormCase) (s : State) : (shiftBounds c s).hostq = s.hostq := rfl
@[simp] theorem shiftBounds_reads (c : RenormCase) (s : State) : (shiftBounds c s).reads = s.reads := rfl
@[simp] theorem shiftBounds_draws (c : RenormCase) (s : State) : (shiftBounds c s).draws = s.draws := rfl

/-! ## encNarrowed -/

@[simp] theorem encNarrowed_params (s : State) (sym : Byte) : (encNarrowed s sym).params = s.params := rfl
@[simp] theorem encNarrowed_resetPin (s : State) (sym : Byte) : (encNarrowed s sym).resetPin = s.resetPin := rfl
@[simp] theorem encNarrowed_mode (s : State) (sym : Byte) : (encNarrowed s sym).mode = s.mode := rfl
@[simp] theorem encNarrowed_pend (s : State) (sym : Byte) : (encNarrowed s sym).pend = s.pend := rfl
@[simp] theorem encNarrowed_code (s : State) (sym : Byte) : (encNarrowed s sym).code = s.code := rfl
@[simp] theorem encNarrowed_pending (s : State) (sym : Byte) : (encNarrowed s sym).pending = s.pending := rfl
@[simp] theorem encNarrowed_obuf (s : State) (sym : Byte) : (encNarrowed s sym).obuf = s.obuf := rfl
@[simp] theorem encNarrowed_ocnt (s : State) (sym : Byte) : (encNarrowed s sym).ocnt = s.ocnt := rfl
@[simp] theorem encNarrowed_rbuf (s : State) (sym : Byte) : (encNarrowed s sym).rbuf = s.rbuf := rfl
@[simp] theorem encNarrowed_rcnt (s : State) (sym : Byte) : (encNarrowed s sym).rcnt = s.rcnt := rfl
@[simp] theorem encNarrowed_phantom (s : State) (sym : Byte) : (encNarrowed s sym).phantom = s.phantom := rfl
@[simp] theorem encNarrowed_symcnt (s : State) (sym : Byte) : (encNarrowed s sym).symcnt = s.symcnt := rfl
@[simp] theorem encNarrowed_streamSyms (s : State) (sym : Byte) : (encNarrowed s sym).streamSyms = s.streamSyms := rfl
@[simp] theorem encNarrowed_bitcnt (s : State) (sym : Byte) : (encNarrowed s sym).bitcnt = s.bitcnt := rfl
@[simp] theorem encNarrowed_hist (s : State) (sym : Byte) : (encNarrowed s sym).hist = s.hist := rfl
@[simp] theorem encNarrowed_histValid (s : State) (sym : Byte) : (encNarrowed s sym).histValid = s.histValid := rfl
@[simp] theorem encNarrowed_nord (s : State) (sym : Byte) : (encNarrowed s sym).nord = s.nord := rfl
@[simp] theorem encNarrowed_ceil (s : State) (sym : Byte) : (encNarrowed s sym).ceil = s.ceil := rfl
@[simp] theorem encNarrowed_rint (s : State) (sym : Byte) : (encNarrowed s sym).rint = s.rint := rfl
@[simp] theorem encNarrowed_order (s : State) (sym : Byte) : (encNarrowed s sym).order = s.order := rfl
@[simp] theorem encNarrowed_weight (s : State) (sym : Byte) : (encNarrowed s sym).weight = s.weight := rfl
@[simp] theorem encNarrowed_mem (s : State) (sym : Byte) : (encNarrowed s sym).mem = s.mem := rfl
@[simp] theorem encNarrowed_score (s : State) (sym : Byte) : (encNarrowed s sym).score = s.score := rfl
@[simp] theorem encNarrowed_total (s : State) (sym : Byte) : (encNarrowed s sym).total = s.total := rfl
@[simp] theorem encNarrowed_scoreIdx (s : State) (sym : Byte) : (encNarrowed s sym).scoreIdx = s.scoreIdx := rfl
@[simp] theorem encNarrowed_rsym (s : State) (sym : Byte) : (encNarrowed s sym).rsym = s.rsym := rfl
@[simp] theorem encNarrowed_rvalid (s : State) (sym : Byte) : (encNarrowed s sym).rvalid = s.rvalid := rfl
@[simp] theorem encNarrowed_diagSel (s : State) (sym : Byte) : (encNarrowed s sym).diagSel = s.diagSel := rfl
@[simp] theorem encNarrowed_inq (s : State) (sym : Byte) : (encNarrowed s sym).inq = s.inq := rfl
@[simp] theorem encNarrowed_eoi (s : State) (sym : Byte) : (encNarrowed s sym).eoi = s.eoi := rfl
@[simp] theorem encNarrowed_outq (s : State) (sym : Byte) : (encNarrowed s sym).outq = s.outq := rfl
@[simp] theorem encNarrowed_err (s : State) (sym : Byte) : (encNarrowed s sym).err = s.err := rfl
@[simp] theorem encNarrowed_done (s : State) (sym : Byte) : (encNarrowed s sym).done = s.done := rfl
@[simp] theorem encNarrowed_error (s : State) (sym : Byte) : (encNarrowed s sym).error = s.error := rfl
@[simp] theorem encNarrowed_intEnable (s : State) (sym : Byte) : (encNarrowed s sym).intEnable = s.intEnable := rfl
@[simp] theorem encNarrowed_hostq (s : State) (sym : Byte) : (encNarrowed s sym).hostq = s.hostq := rfl
@[simp] theorem encNarrowed_reads (s : State) (sym : Byte) : (encNarrowed s sym).reads = s.reads := rfl
@[simp] theorem encNarrowed_draws (s : State) (sym : Byte) : (encNarrowed s sym).draws = s.draws := rfl

/-! ## flushBits -/

@[simp] theorem flushBits_params (s : State) : (flushBits s).params = s.params := by simp [flushBits]
@[simp] theorem flushBits_resetPin (s : State) : (flushBits s).resetPin = s.resetPin := by simp [flushBits]
@[simp] theorem flushBits_mode (s : State) : (flushBits s).mode = s.mode := by simp [flushBits]
@[simp] theorem flushBits_pend (s : State) : (flushBits s).pend = s.pend := by simp [flushBits]
@[simp] theorem flushBits_low (s : State) : (flushBits s).low = s.low := by simp [flushBits]
@[simp] theorem flushBits_high (s : State) : (flushBits s).high = s.high := by simp [flushBits]
@[simp] theorem flushBits_code (s : State) : (flushBits s).code = s.code := by simp [flushBits]
@[simp] theorem flushBits_rbuf (s : State) : (flushBits s).rbuf = s.rbuf := by simp [flushBits]
@[simp] theorem flushBits_rcnt (s : State) : (flushBits s).rcnt = s.rcnt := by simp [flushBits]
@[simp] theorem flushBits_phantom (s : State) : (flushBits s).phantom = s.phantom := by simp [flushBits]
@[simp] theorem flushBits_symcnt (s : State) : (flushBits s).symcnt = s.symcnt := by simp [flushBits]
@[simp] theorem flushBits_streamSyms (s : State) : (flushBits s).streamSyms = s.streamSyms := by simp [flushBits]
@[simp] theorem flushBits_hist (s : State) : (flushBits s).hist = s.hist := by simp [flushBits]
@[simp] theorem flushBits_histValid (s : State) : (flushBits s).histValid = s.histValid := by simp [flushBits]
@[simp] theorem flushBits_nord (s : State) : (flushBits s).nord = s.nord := by simp [flushBits]
@[simp] theorem flushBits_ceil (s : State) : (flushBits s).ceil = s.ceil := by simp [flushBits]
@[simp] theorem flushBits_rint (s : State) : (flushBits s).rint = s.rint := by simp [flushBits]
@[simp] theorem flushBits_order (s : State) : (flushBits s).order = s.order := by simp [flushBits]
@[simp] theorem flushBits_weight (s : State) : (flushBits s).weight = s.weight := by simp [flushBits]
@[simp] theorem flushBits_mem (s : State) : (flushBits s).mem = s.mem := by simp [flushBits]
@[simp] theorem flushBits_score (s : State) : (flushBits s).score = s.score := by simp [flushBits]
@[simp] theorem flushBits_total (s : State) : (flushBits s).total = s.total := by simp [flushBits]
@[simp] theorem flushBits_scoreIdx (s : State) : (flushBits s).scoreIdx = s.scoreIdx := by simp [flushBits]
@[simp] theorem flushBits_rsym (s : State) : (flushBits s).rsym = s.rsym := by simp [flushBits]
@[simp] theorem flushBits_rvalid (s : State) : (flushBits s).rvalid = s.rvalid := by simp [flushBits]
@[simp] theorem flushBits_diagSel (s : State) : (flushBits s).diagSel = s.diagSel := by simp [flushBits]
@[simp] theorem flushBits_inq (s : State) : (flushBits s).inq = s.inq := by simp [flushBits]
@[simp] theorem flushBits_eoi (s : State) : (flushBits s).eoi = s.eoi := by simp [flushBits]
@[simp] theorem flushBits_err (s : State) : (flushBits s).err = s.err := by simp [flushBits]
@[simp] theorem flushBits_done (s : State) : (flushBits s).done = s.done := by simp [flushBits]
@[simp] theorem flushBits_error (s : State) : (flushBits s).error = s.error := by simp [flushBits]
@[simp] theorem flushBits_intEnable (s : State) : (flushBits s).intEnable = s.intEnable := by simp [flushBits]
@[simp] theorem flushBits_hostq (s : State) : (flushBits s).hostq = s.hostq := by simp [flushBits]
@[simp] theorem flushBits_reads (s : State) : (flushBits s).reads = s.reads := by simp [flushBits]
@[simp] theorem flushBits_draws (s : State) : (flushBits s).draws = s.draws := by simp [flushBits]

/-! ## padByte -/

@[simp] theorem padByte_params (s : State) : (padByte s).params = s.params := by simp [padByte]
@[simp] theorem padByte_resetPin (s : State) : (padByte s).resetPin = s.resetPin := by simp [padByte]
@[simp] theorem padByte_mode (s : State) : (padByte s).mode = s.mode := by simp [padByte]
@[simp] theorem padByte_pend (s : State) : (padByte s).pend = s.pend := by simp [padByte]
@[simp] theorem padByte_low (s : State) : (padByte s).low = s.low := by simp [padByte]
@[simp] theorem padByte_high (s : State) : (padByte s).high = s.high := by simp [padByte]
@[simp] theorem padByte_code (s : State) : (padByte s).code = s.code := by simp [padByte]
@[simp] theorem padByte_pending (s : State) : (padByte s).pending = s.pending := by simp [padByte]
@[simp] theorem padByte_rbuf (s : State) : (padByte s).rbuf = s.rbuf := by simp [padByte]
@[simp] theorem padByte_rcnt (s : State) : (padByte s).rcnt = s.rcnt := by simp [padByte]
@[simp] theorem padByte_phantom (s : State) : (padByte s).phantom = s.phantom := by simp [padByte]
@[simp] theorem padByte_symcnt (s : State) : (padByte s).symcnt = s.symcnt := by simp [padByte]
@[simp] theorem padByte_streamSyms (s : State) : (padByte s).streamSyms = s.streamSyms := by simp [padByte]
@[simp] theorem padByte_hist (s : State) : (padByte s).hist = s.hist := by simp [padByte]
@[simp] theorem padByte_histValid (s : State) : (padByte s).histValid = s.histValid := by simp [padByte]
@[simp] theorem padByte_nord (s : State) : (padByte s).nord = s.nord := by simp [padByte]
@[simp] theorem padByte_ceil (s : State) : (padByte s).ceil = s.ceil := by simp [padByte]
@[simp] theorem padByte_rint (s : State) : (padByte s).rint = s.rint := by simp [padByte]
@[simp] theorem padByte_order (s : State) : (padByte s).order = s.order := by simp [padByte]
@[simp] theorem padByte_weight (s : State) : (padByte s).weight = s.weight := by simp [padByte]
@[simp] theorem padByte_mem (s : State) : (padByte s).mem = s.mem := by simp [padByte]
@[simp] theorem padByte_score (s : State) : (padByte s).score = s.score := by simp [padByte]
@[simp] theorem padByte_total (s : State) : (padByte s).total = s.total := by simp [padByte]
@[simp] theorem padByte_scoreIdx (s : State) : (padByte s).scoreIdx = s.scoreIdx := by simp [padByte]
@[simp] theorem padByte_rsym (s : State) : (padByte s).rsym = s.rsym := by simp [padByte]
@[simp] theorem padByte_rvalid (s : State) : (padByte s).rvalid = s.rvalid := by simp [padByte]
@[simp] theorem padByte_diagSel (s : State) : (padByte s).diagSel = s.diagSel := by simp [padByte]
@[simp] theorem padByte_inq (s : State) : (padByte s).inq = s.inq := by simp [padByte]
@[simp] theorem padByte_eoi (s : State) : (padByte s).eoi = s.eoi := by simp [padByte]
@[simp] theorem padByte_err (s : State) : (padByte s).err = s.err := by simp [padByte]
@[simp] theorem padByte_done (s : State) : (padByte s).done = s.done := by simp [padByte]
@[simp] theorem padByte_error (s : State) : (padByte s).error = s.error := by simp [padByte]
@[simp] theorem padByte_intEnable (s : State) : (padByte s).intEnable = s.intEnable := by simp [padByte]
@[simp] theorem padByte_hostq (s : State) : (padByte s).hostq = s.hostq := by simp [padByte]
@[simp] theorem padByte_reads (s : State) : (padByte s).reads = s.reads := by simp [padByte]
@[simp] theorem padByte_draws (s : State) : (padByte s).draws = s.draws := by simp [padByte]

/-! ## clearReader -/

@[simp] theorem clearReader_params (s : State) : (clearReader s).params = s.params := rfl
@[simp] theorem clearReader_resetPin (s : State) : (clearReader s).resetPin = s.resetPin := rfl
@[simp] theorem clearReader_mode (s : State) : (clearReader s).mode = s.mode := rfl
@[simp] theorem clearReader_pend (s : State) : (clearReader s).pend = s.pend := rfl
@[simp] theorem clearReader_low (s : State) : (clearReader s).low = s.low := rfl
@[simp] theorem clearReader_high (s : State) : (clearReader s).high = s.high := rfl
@[simp] theorem clearReader_code (s : State) : (clearReader s).code = s.code := rfl
@[simp] theorem clearReader_pending (s : State) : (clearReader s).pending = s.pending := rfl
@[simp] theorem clearReader_obuf (s : State) : (clearReader s).obuf = s.obuf := rfl
@[simp] theorem clearReader_ocnt (s : State) : (clearReader s).ocnt = s.ocnt := rfl
@[simp] theorem clearReader_symcnt (s : State) : (clearReader s).symcnt = s.symcnt := rfl
@[simp] theorem clearReader_streamSyms (s : State) : (clearReader s).streamSyms = s.streamSyms := rfl
@[simp] theorem clearReader_bitcnt (s : State) : (clearReader s).bitcnt = s.bitcnt := rfl
@[simp] theorem clearReader_hist (s : State) : (clearReader s).hist = s.hist := rfl
@[simp] theorem clearReader_histValid (s : State) : (clearReader s).histValid = s.histValid := rfl
@[simp] theorem clearReader_nord (s : State) : (clearReader s).nord = s.nord := rfl
@[simp] theorem clearReader_ceil (s : State) : (clearReader s).ceil = s.ceil := rfl
@[simp] theorem clearReader_rint (s : State) : (clearReader s).rint = s.rint := rfl
@[simp] theorem clearReader_order (s : State) : (clearReader s).order = s.order := rfl
@[simp] theorem clearReader_weight (s : State) : (clearReader s).weight = s.weight := rfl
@[simp] theorem clearReader_mem (s : State) : (clearReader s).mem = s.mem := rfl
@[simp] theorem clearReader_score (s : State) : (clearReader s).score = s.score := rfl
@[simp] theorem clearReader_total (s : State) : (clearReader s).total = s.total := rfl
@[simp] theorem clearReader_scoreIdx (s : State) : (clearReader s).scoreIdx = s.scoreIdx := rfl
@[simp] theorem clearReader_rsym (s : State) : (clearReader s).rsym = s.rsym := rfl
@[simp] theorem clearReader_rvalid (s : State) : (clearReader s).rvalid = s.rvalid := rfl
@[simp] theorem clearReader_diagSel (s : State) : (clearReader s).diagSel = s.diagSel := rfl
@[simp] theorem clearReader_inq (s : State) : (clearReader s).inq = s.inq := rfl
@[simp] theorem clearReader_eoi (s : State) : (clearReader s).eoi = s.eoi := rfl
@[simp] theorem clearReader_outq (s : State) : (clearReader s).outq = s.outq := rfl
@[simp] theorem clearReader_err (s : State) : (clearReader s).err = s.err := rfl
@[simp] theorem clearReader_done (s : State) : (clearReader s).done = s.done := rfl
@[simp] theorem clearReader_error (s : State) : (clearReader s).error = s.error := rfl
@[simp] theorem clearReader_intEnable (s : State) : (clearReader s).intEnable = s.intEnable := rfl
@[simp] theorem clearReader_hostq (s : State) : (clearReader s).hostq = s.hostq := rfl
@[simp] theorem clearReader_reads (s : State) : (clearReader s).reads = s.reads := rfl
@[simp] theorem clearReader_draws (s : State) : (clearReader s).draws = s.draws := rfl

/-! ## takeBit -/

@[simp] theorem takeBit_params (s : State) : ((takeBit s).2).params = s.params := rfl
@[simp] theorem takeBit_resetPin (s : State) : ((takeBit s).2).resetPin = s.resetPin := rfl
@[simp] theorem takeBit_mode (s : State) : ((takeBit s).2).mode = s.mode := rfl
@[simp] theorem takeBit_pend (s : State) : ((takeBit s).2).pend = s.pend := rfl
@[simp] theorem takeBit_low (s : State) : ((takeBit s).2).low = s.low := rfl
@[simp] theorem takeBit_high (s : State) : ((takeBit s).2).high = s.high := rfl
@[simp] theorem takeBit_code (s : State) : ((takeBit s).2).code = s.code := rfl
@[simp] theorem takeBit_pending (s : State) : ((takeBit s).2).pending = s.pending := rfl
@[simp] theorem takeBit_obuf (s : State) : ((takeBit s).2).obuf = s.obuf := rfl
@[simp] theorem takeBit_ocnt (s : State) : ((takeBit s).2).ocnt = s.ocnt := rfl
@[simp] theorem takeBit_rbuf (s : State) : ((takeBit s).2).rbuf = s.rbuf := rfl
@[simp] theorem takeBit_phantom (s : State) : ((takeBit s).2).phantom = s.phantom := rfl
@[simp] theorem takeBit_symcnt (s : State) : ((takeBit s).2).symcnt = s.symcnt := rfl
@[simp] theorem takeBit_streamSyms (s : State) : ((takeBit s).2).streamSyms = s.streamSyms := rfl
@[simp] theorem takeBit_hist (s : State) : ((takeBit s).2).hist = s.hist := rfl
@[simp] theorem takeBit_histValid (s : State) : ((takeBit s).2).histValid = s.histValid := rfl
@[simp] theorem takeBit_nord (s : State) : ((takeBit s).2).nord = s.nord := rfl
@[simp] theorem takeBit_ceil (s : State) : ((takeBit s).2).ceil = s.ceil := rfl
@[simp] theorem takeBit_rint (s : State) : ((takeBit s).2).rint = s.rint := rfl
@[simp] theorem takeBit_order (s : State) : ((takeBit s).2).order = s.order := rfl
@[simp] theorem takeBit_weight (s : State) : ((takeBit s).2).weight = s.weight := rfl
@[simp] theorem takeBit_mem (s : State) : ((takeBit s).2).mem = s.mem := rfl
@[simp] theorem takeBit_score (s : State) : ((takeBit s).2).score = s.score := rfl
@[simp] theorem takeBit_total (s : State) : ((takeBit s).2).total = s.total := rfl
@[simp] theorem takeBit_scoreIdx (s : State) : ((takeBit s).2).scoreIdx = s.scoreIdx := rfl
@[simp] theorem takeBit_rsym (s : State) : ((takeBit s).2).rsym = s.rsym := rfl
@[simp] theorem takeBit_rvalid (s : State) : ((takeBit s).2).rvalid = s.rvalid := rfl
@[simp] theorem takeBit_diagSel (s : State) : ((takeBit s).2).diagSel = s.diagSel := rfl
@[simp] theorem takeBit_inq (s : State) : ((takeBit s).2).inq = s.inq := rfl
@[simp] theorem takeBit_eoi (s : State) : ((takeBit s).2).eoi = s.eoi := rfl
@[simp] theorem takeBit_outq (s : State) : ((takeBit s).2).outq = s.outq := rfl
@[simp] theorem takeBit_err (s : State) : ((takeBit s).2).err = s.err := rfl
@[simp] theorem takeBit_done (s : State) : ((takeBit s).2).done = s.done := rfl
@[simp] theorem takeBit_error (s : State) : ((takeBit s).2).error = s.error := rfl
@[simp] theorem takeBit_intEnable (s : State) : ((takeBit s).2).intEnable = s.intEnable := rfl
@[simp] theorem takeBit_hostq (s : State) : ((takeBit s).2).hostq = s.hostq := rfl
@[simp] theorem takeBit_reads (s : State) : ((takeBit s).2).reads = s.reads := rfl
@[simp] theorem takeBit_draws (s : State) : ((takeBit s).2).draws = s.draws := rfl

/-! ## readBit -/

theorem readBit_frame (s : State) :
    (readBit s).2 = { s with
      rbuf := (readBit s).2.rbuf, rcnt := (readBit s).2.rcnt, inq := (readBit s).2.inq
      phantom := (readBit s).2.phantom, bitcnt := (readBit s).2.bitcnt } := by
  unfold readBit
  split
  · split <;> rfl
  · rfl

@[simp] theorem readBit_params (s : State) : ((readBit s).2).params = s.params := by rw [readBit_frame]
@[simp] theorem readBit_resetPin (s : State) : ((readBit s).2).resetPin = s.resetPin := by rw [readBit_frame]
@[simp] theorem readBit_mode (s : State) : ((readBit s).2).mode = s.mode := by rw [readBit_frame]
@[simp] theorem readBit_pend (s : State) : ((readBit s).2).pend = s.pend := by rw [readBit_frame]
@[simp] theorem readBit_low (s : State) : ((readBit s).2).low = s.low := by rw [readBit_frame]
@[simp] theorem readBit_high (s : State) : ((readBit s).2).high = s.high := by rw [readBit_frame]
@[simp] theorem readBit_code (s : State) : ((readBit s).2).code = s.code := by rw [readBit_frame]
@[simp] theorem readBit_pending (s : State) : ((readBit s).2).pending = s.pending := by rw [readBit_frame]
@[simp] theorem readBit_obuf (s : State) : ((readBit s).2).obuf = s.obuf := by rw [readBit_frame]
@[simp] theorem readBit_ocnt (s : State) : ((readBit s).2).ocnt = s.ocnt := by rw [readBit_frame]
@[simp] theorem readBit_symcnt (s : State) : ((readBit s).2).symcnt = s.symcnt := by rw [readBit_frame]
@[simp] theorem readBit_streamSyms (s : State) : ((readBit s).2).streamSyms = s.streamSyms := by rw [readBit_frame]
@[simp] theorem readBit_hist (s : State) : ((readBit s).2).hist = s.hist := by rw [readBit_frame]
@[simp] theorem readBit_histValid (s : State) : ((readBit s).2).histValid = s.histValid := by rw [readBit_frame]
@[simp] theorem readBit_nord (s : State) : ((readBit s).2).nord = s.nord := by rw [readBit_frame]
@[simp] theorem readBit_ceil (s : State) : ((readBit s).2).ceil = s.ceil := by rw [readBit_frame]
@[simp] theorem readBit_rint (s : State) : ((readBit s).2).rint = s.rint := by rw [readBit_frame]
@[simp] theorem readBit_order (s : State) : ((readBit s).2).order = s.order := by rw [readBit_frame]
@[simp] theorem readBit_weight (s : State) : ((readBit s).2).weight = s.weight := by rw [readBit_frame]
@[simp] theorem readBit_mem (s : State) : ((readBit s).2).mem = s.mem := by rw [readBit_frame]
@[simp] theorem readBit_score (s : State) : ((readBit s).2).score = s.score := by rw [readBit_frame]
@[simp] theorem readBit_total (s : State) : ((readBit s).2).total = s.total := by rw [readBit_frame]
@[simp] theorem readBit_scoreIdx (s : State) : ((readBit s).2).scoreIdx = s.scoreIdx := by rw [readBit_frame]
@[simp] theorem readBit_rsym (s : State) : ((readBit s).2).rsym = s.rsym := by rw [readBit_frame]
@[simp] theorem readBit_rvalid (s : State) : ((readBit s).2).rvalid = s.rvalid := by rw [readBit_frame]
@[simp] theorem readBit_diagSel (s : State) : ((readBit s).2).diagSel = s.diagSel := by rw [readBit_frame]
@[simp] theorem readBit_eoi (s : State) : ((readBit s).2).eoi = s.eoi := by rw [readBit_frame]
@[simp] theorem readBit_outq (s : State) : ((readBit s).2).outq = s.outq := by rw [readBit_frame]
@[simp] theorem readBit_err (s : State) : ((readBit s).2).err = s.err := by rw [readBit_frame]
@[simp] theorem readBit_done (s : State) : ((readBit s).2).done = s.done := by rw [readBit_frame]
@[simp] theorem readBit_error (s : State) : ((readBit s).2).error = s.error := by rw [readBit_frame]
@[simp] theorem readBit_intEnable (s : State) : ((readBit s).2).intEnable = s.intEnable := by rw [readBit_frame]
@[simp] theorem readBit_hostq (s : State) : ((readBit s).2).hostq = s.hostq := by rw [readBit_frame]
@[simp] theorem readBit_reads (s : State) : ((readBit s).2).reads = s.reads := by rw [readBit_frame]
@[simp] theorem readBit_draws (s : State) : ((readBit s).2).draws = s.draws := by rw [readBit_frame]

/-! ## shiftCode -/

@[simp] theorem shiftCode_params (s : State) : (shiftCode s).params = s.params := by simp [shiftCode]
@[simp] theorem shiftCode_resetPin (s : State) : (shiftCode s).resetPin = s.resetPin := by simp [shiftCode]
@[simp] theorem shiftCode_mode (s : State) : (shiftCode s).mode = s.mode := by simp [shiftCode]
@[simp] theorem shiftCode_pend (s : State) : (shiftCode s).pend = s.pend := by simp [shiftCode]
@[simp] theorem shiftCode_low (s : State) : (shiftCode s).low = s.low := by simp [shiftCode]
@[simp] theorem shiftCode_high (s : State) : (shiftCode s).high = s.high := by simp [shiftCode]
@[simp] theorem shiftCode_pending (s : State) : (shiftCode s).pending = s.pending := by simp [shiftCode]
@[simp] theorem shiftCode_obuf (s : State) : (shiftCode s).obuf = s.obuf := by simp [shiftCode]
@[simp] theorem shiftCode_ocnt (s : State) : (shiftCode s).ocnt = s.ocnt := by simp [shiftCode]
@[simp] theorem shiftCode_symcnt (s : State) : (shiftCode s).symcnt = s.symcnt := by simp [shiftCode]
@[simp] theorem shiftCode_streamSyms (s : State) : (shiftCode s).streamSyms = s.streamSyms := by simp [shiftCode]
@[simp] theorem shiftCode_hist (s : State) : (shiftCode s).hist = s.hist := by simp [shiftCode]
@[simp] theorem shiftCode_histValid (s : State) : (shiftCode s).histValid = s.histValid := by simp [shiftCode]
@[simp] theorem shiftCode_nord (s : State) : (shiftCode s).nord = s.nord := by simp [shiftCode]
@[simp] theorem shiftCode_ceil (s : State) : (shiftCode s).ceil = s.ceil := by simp [shiftCode]
@[simp] theorem shiftCode_rint (s : State) : (shiftCode s).rint = s.rint := by simp [shiftCode]
@[simp] theorem shiftCode_order (s : State) : (shiftCode s).order = s.order := by simp [shiftCode]
@[simp] theorem shiftCode_weight (s : State) : (shiftCode s).weight = s.weight := by simp [shiftCode]
@[simp] theorem shiftCode_mem (s : State) : (shiftCode s).mem = s.mem := by simp [shiftCode]
@[simp] theorem shiftCode_score (s : State) : (shiftCode s).score = s.score := by simp [shiftCode]
@[simp] theorem shiftCode_total (s : State) : (shiftCode s).total = s.total := by simp [shiftCode]
@[simp] theorem shiftCode_scoreIdx (s : State) : (shiftCode s).scoreIdx = s.scoreIdx := by simp [shiftCode]
@[simp] theorem shiftCode_rsym (s : State) : (shiftCode s).rsym = s.rsym := by simp [shiftCode]
@[simp] theorem shiftCode_rvalid (s : State) : (shiftCode s).rvalid = s.rvalid := by simp [shiftCode]
@[simp] theorem shiftCode_diagSel (s : State) : (shiftCode s).diagSel = s.diagSel := by simp [shiftCode]
@[simp] theorem shiftCode_eoi (s : State) : (shiftCode s).eoi = s.eoi := by simp [shiftCode]
@[simp] theorem shiftCode_outq (s : State) : (shiftCode s).outq = s.outq := by simp [shiftCode]
@[simp] theorem shiftCode_err (s : State) : (shiftCode s).err = s.err := by simp [shiftCode]
@[simp] theorem shiftCode_done (s : State) : (shiftCode s).done = s.done := by simp [shiftCode]
@[simp] theorem shiftCode_error (s : State) : (shiftCode s).error = s.error := by simp [shiftCode]
@[simp] theorem shiftCode_intEnable (s : State) : (shiftCode s).intEnable = s.intEnable := by simp [shiftCode]
@[simp] theorem shiftCode_hostq (s : State) : (shiftCode s).hostq = s.hostq := by simp [shiftCode]
@[simp] theorem shiftCode_reads (s : State) : (shiftCode s).reads = s.reads := by simp [shiftCode]
@[simp] theorem shiftCode_draws (s : State) : (shiftCode s).draws = s.draws := by simp [shiftCode]

/-! ## shiftCodeMany -/

theorem shiftCodeMany_frame (n : Nat) (s : State) :
    shiftCodeMany n s = { s with
      rbuf := (shiftCodeMany n s).rbuf, rcnt := (shiftCodeMany n s).rcnt, inq := (shiftCodeMany n s).inq
      phantom := (shiftCodeMany n s).phantom, bitcnt := (shiftCodeMany n s).bitcnt
      code := (shiftCodeMany n s).code } := by
  induction n generalizing s with
  | zero => rfl
  | succ n ih => rw [shiftCodeMany, ih, shiftCode, readBit_frame]

@[simp] theorem shiftCodeMany_params (n : Nat) (s : State) : (shiftCodeMany n s).params = s.params := by rw [shiftCodeMany_frame]
@[simp] theorem shiftCodeMany_resetPin (n : Nat) (s : State) : (shiftCodeMany n s).resetPin = s.resetPin := by rw [shiftCodeMany_frame]
@[simp] theorem shiftCodeMany_mode (n : Nat) (s : State) : (shiftCodeMany n s).mode = s.mode := by rw [shiftCodeMany_frame]
@[simp] theorem shiftCodeMany_pend (n : Nat) (s : State) : (shiftCodeMany n s).pend = s.pend := by rw [shiftCodeMany_frame]
@[simp] theorem shiftCodeMany_low (n : Nat) (s : State) : (shiftCodeMany n s).low = s.low := by rw [shiftCodeMany_frame]
@[simp] theorem shiftCodeMany_high (n : Nat) (s : State) : (shiftCodeMany n s).high = s.high := by rw [shiftCodeMany_frame]
@[simp] theorem shiftCodeMany_pending (n : Nat) (s : State) : (shiftCodeMany n s).pending = s.pending := by rw [shiftCodeMany_frame]
@[simp] theorem shiftCodeMany_obuf (n : Nat) (s : State) : (shiftCodeMany n s).obuf = s.obuf := by rw [shiftCodeMany_frame]
@[simp] theorem shiftCodeMany_ocnt (n : Nat) (s : State) : (shiftCodeMany n s).ocnt = s.ocnt := by rw [shiftCodeMany_frame]
@[simp] theorem shiftCodeMany_symcnt (n : Nat) (s : State) : (shiftCodeMany n s).symcnt = s.symcnt := by rw [shiftCodeMany_frame]
@[simp] theorem shiftCodeMany_streamSyms (n : Nat) (s : State) : (shiftCodeMany n s).streamSyms = s.streamSyms := by rw [shiftCodeMany_frame]
@[simp] theorem shiftCodeMany_hist (n : Nat) (s : State) : (shiftCodeMany n s).hist = s.hist := by rw [shiftCodeMany_frame]
@[simp] theorem shiftCodeMany_histValid (n : Nat) (s : State) : (shiftCodeMany n s).histValid = s.histValid := by rw [shiftCodeMany_frame]
@[simp] theorem shiftCodeMany_nord (n : Nat) (s : State) : (shiftCodeMany n s).nord = s.nord := by rw [shiftCodeMany_frame]
@[simp] theorem shiftCodeMany_ceil (n : Nat) (s : State) : (shiftCodeMany n s).ceil = s.ceil := by rw [shiftCodeMany_frame]
@[simp] theorem shiftCodeMany_rint (n : Nat) (s : State) : (shiftCodeMany n s).rint = s.rint := by rw [shiftCodeMany_frame]
@[simp] theorem shiftCodeMany_order (n : Nat) (s : State) : (shiftCodeMany n s).order = s.order := by rw [shiftCodeMany_frame]
@[simp] theorem shiftCodeMany_weight (n : Nat) (s : State) : (shiftCodeMany n s).weight = s.weight := by rw [shiftCodeMany_frame]
@[simp] theorem shiftCodeMany_mem (n : Nat) (s : State) : (shiftCodeMany n s).mem = s.mem := by rw [shiftCodeMany_frame]
@[simp] theorem shiftCodeMany_score (n : Nat) (s : State) : (shiftCodeMany n s).score = s.score := by rw [shiftCodeMany_frame]
@[simp] theorem shiftCodeMany_total (n : Nat) (s : State) : (shiftCodeMany n s).total = s.total := by rw [shiftCodeMany_frame]
@[simp] theorem shiftCodeMany_scoreIdx (n : Nat) (s : State) : (shiftCodeMany n s).scoreIdx = s.scoreIdx := by rw [shiftCodeMany_frame]
@[simp] theorem shiftCodeMany_rsym (n : Nat) (s : State) : (shiftCodeMany n s).rsym = s.rsym := by rw [shiftCodeMany_frame]
@[simp] theorem shiftCodeMany_rvalid (n : Nat) (s : State) : (shiftCodeMany n s).rvalid = s.rvalid := by rw [shiftCodeMany_frame]
@[simp] theorem shiftCodeMany_diagSel (n : Nat) (s : State) : (shiftCodeMany n s).diagSel = s.diagSel := by rw [shiftCodeMany_frame]
@[simp] theorem shiftCodeMany_eoi (n : Nat) (s : State) : (shiftCodeMany n s).eoi = s.eoi := by rw [shiftCodeMany_frame]
@[simp] theorem shiftCodeMany_outq (n : Nat) (s : State) : (shiftCodeMany n s).outq = s.outq := by rw [shiftCodeMany_frame]
@[simp] theorem shiftCodeMany_err (n : Nat) (s : State) : (shiftCodeMany n s).err = s.err := by rw [shiftCodeMany_frame]
@[simp] theorem shiftCodeMany_done (n : Nat) (s : State) : (shiftCodeMany n s).done = s.done := by rw [shiftCodeMany_frame]
@[simp] theorem shiftCodeMany_error (n : Nat) (s : State) : (shiftCodeMany n s).error = s.error := by rw [shiftCodeMany_frame]
@[simp] theorem shiftCodeMany_intEnable (n : Nat) (s : State) : (shiftCodeMany n s).intEnable = s.intEnable := by rw [shiftCodeMany_frame]
@[simp] theorem shiftCodeMany_hostq (n : Nat) (s : State) : (shiftCodeMany n s).hostq = s.hostq := by rw [shiftCodeMany_frame]
@[simp] theorem shiftCodeMany_reads (n : Nat) (s : State) : (shiftCodeMany n s).reads = s.reads := by rw [shiftCodeMany_frame]
@[simp] theorem shiftCodeMany_draws (n : Nat) (s : State) : (shiftCodeMany n s).draws = s.draws := by rw [shiftCodeMany_frame]

/-! ## hostRead -/

@[simp] theorem hostRead_params (v : Word) (s : State) : (hostRead v s).params = s.params := rfl
@[simp] theorem hostRead_resetPin (v : Word) (s : State) : (hostRead v s).resetPin = s.resetPin := rfl
@[simp] theorem hostRead_mode (v : Word) (s : State) : (hostRead v s).mode = s.mode := rfl
@[simp] theorem hostRead_pend (v : Word) (s : State) : (hostRead v s).pend = s.pend := rfl
@[simp] theorem hostRead_low (v : Word) (s : State) : (hostRead v s).low = s.low := rfl
@[simp] theorem hostRead_high (v : Word) (s : State) : (hostRead v s).high = s.high := rfl
@[simp] theorem hostRead_code (v : Word) (s : State) : (hostRead v s).code = s.code := rfl
@[simp] theorem hostRead_pending (v : Word) (s : State) : (hostRead v s).pending = s.pending := rfl
@[simp] theorem hostRead_obuf (v : Word) (s : State) : (hostRead v s).obuf = s.obuf := rfl
@[simp] theorem hostRead_ocnt (v : Word) (s : State) : (hostRead v s).ocnt = s.ocnt := rfl
@[simp] theorem hostRead_rbuf (v : Word) (s : State) : (hostRead v s).rbuf = s.rbuf := rfl
@[simp] theorem hostRead_rcnt (v : Word) (s : State) : (hostRead v s).rcnt = s.rcnt := rfl
@[simp] theorem hostRead_phantom (v : Word) (s : State) : (hostRead v s).phantom = s.phantom := rfl
@[simp] theorem hostRead_symcnt (v : Word) (s : State) : (hostRead v s).symcnt = s.symcnt := rfl
@[simp] theorem hostRead_streamSyms (v : Word) (s : State) : (hostRead v s).streamSyms = s.streamSyms := rfl
@[simp] theorem hostRead_bitcnt (v : Word) (s : State) : (hostRead v s).bitcnt = s.bitcnt := rfl
@[simp] theorem hostRead_hist (v : Word) (s : State) : (hostRead v s).hist = s.hist := rfl
@[simp] theorem hostRead_histValid (v : Word) (s : State) : (hostRead v s).histValid = s.histValid := rfl
@[simp] theorem hostRead_nord (v : Word) (s : State) : (hostRead v s).nord = s.nord := rfl
@[simp] theorem hostRead_ceil (v : Word) (s : State) : (hostRead v s).ceil = s.ceil := rfl
@[simp] theorem hostRead_rint (v : Word) (s : State) : (hostRead v s).rint = s.rint := rfl
@[simp] theorem hostRead_order (v : Word) (s : State) : (hostRead v s).order = s.order := rfl
@[simp] theorem hostRead_weight (v : Word) (s : State) : (hostRead v s).weight = s.weight := rfl
@[simp] theorem hostRead_mem (v : Word) (s : State) : (hostRead v s).mem = s.mem := rfl
@[simp] theorem hostRead_score (v : Word) (s : State) : (hostRead v s).score = s.score := rfl
@[simp] theorem hostRead_total (v : Word) (s : State) : (hostRead v s).total = s.total := rfl
@[simp] theorem hostRead_scoreIdx (v : Word) (s : State) : (hostRead v s).scoreIdx = s.scoreIdx := rfl
@[simp] theorem hostRead_rsym (v : Word) (s : State) : (hostRead v s).rsym = s.rsym := rfl
@[simp] theorem hostRead_rvalid (v : Word) (s : State) : (hostRead v s).rvalid = s.rvalid := rfl
@[simp] theorem hostRead_diagSel (v : Word) (s : State) : (hostRead v s).diagSel = s.diagSel := rfl
@[simp] theorem hostRead_inq (v : Word) (s : State) : (hostRead v s).inq = s.inq := rfl
@[simp] theorem hostRead_eoi (v : Word) (s : State) : (hostRead v s).eoi = s.eoi := rfl
@[simp] theorem hostRead_outq (v : Word) (s : State) : (hostRead v s).outq = s.outq := rfl
@[simp] theorem hostRead_err (v : Word) (s : State) : (hostRead v s).err = s.err := rfl
@[simp] theorem hostRead_done (v : Word) (s : State) : (hostRead v s).done = s.done := rfl
@[simp] theorem hostRead_error (v : Word) (s : State) : (hostRead v s).error = s.error := rfl
@[simp] theorem hostRead_intEnable (v : Word) (s : State) : (hostRead v s).intEnable = s.intEnable := rfl
@[simp] theorem hostRead_hostq (v : Word) (s : State) : (hostRead v s).hostq = s.hostq := rfl
@[simp] theorem hostRead_draws (v : Word) (s : State) : (hostRead v s).draws = s.draws := rfl

/-! ## resetBlock -/

@[simp] theorem resetBlock_params (s : State) : (resetBlock s).params = s.params := rfl
@[simp] theorem resetBlock_resetPin (s : State) : (resetBlock s).resetPin = s.resetPin := rfl
@[simp] theorem resetBlock_mode (s : State) : (resetBlock s).mode = (State.resetWith s.params).mode := rfl
@[simp] theorem resetBlock_pend (s : State) : (resetBlock s).pend = (State.resetWith s.params).pend := rfl
@[simp] theorem resetBlock_low (s : State) : (resetBlock s).low = (State.resetWith s.params).low := rfl
@[simp] theorem resetBlock_high (s : State) : (resetBlock s).high = (State.resetWith s.params).high := rfl
@[simp] theorem resetBlock_code (s : State) : (resetBlock s).code = (State.resetWith s.params).code := rfl
@[simp] theorem resetBlock_pending (s : State) : (resetBlock s).pending = (State.resetWith s.params).pending := rfl
@[simp] theorem resetBlock_obuf (s : State) : (resetBlock s).obuf = (State.resetWith s.params).obuf := rfl
@[simp] theorem resetBlock_ocnt (s : State) : (resetBlock s).ocnt = (State.resetWith s.params).ocnt := rfl
@[simp] theorem resetBlock_rbuf (s : State) : (resetBlock s).rbuf = (State.resetWith s.params).rbuf := rfl
@[simp] theorem resetBlock_rcnt (s : State) : (resetBlock s).rcnt = (State.resetWith s.params).rcnt := rfl
@[simp] theorem resetBlock_phantom (s : State) : (resetBlock s).phantom = (State.resetWith s.params).phantom := rfl
@[simp] theorem resetBlock_symcnt (s : State) : (resetBlock s).symcnt = (State.resetWith s.params).symcnt := rfl
@[simp] theorem resetBlock_streamSyms (s : State) : (resetBlock s).streamSyms = (State.resetWith s.params).streamSyms := rfl
@[simp] theorem resetBlock_bitcnt (s : State) : (resetBlock s).bitcnt = (State.resetWith s.params).bitcnt := rfl
@[simp] theorem resetBlock_hist (s : State) : (resetBlock s).hist = (State.resetWith s.params).hist := rfl
@[simp] theorem resetBlock_histValid (s : State) : (resetBlock s).histValid = (State.resetWith s.params).histValid := rfl
@[simp] theorem resetBlock_nord (s : State) : (resetBlock s).nord = (State.resetWith s.params).nord := rfl
@[simp] theorem resetBlock_ceil (s : State) : (resetBlock s).ceil = (State.resetWith s.params).ceil := rfl
@[simp] theorem resetBlock_rint (s : State) : (resetBlock s).rint = (State.resetWith s.params).rint := rfl
@[simp] theorem resetBlock_order (s : State) : (resetBlock s).order = (State.resetWith s.params).order := rfl
@[simp] theorem resetBlock_weight (s : State) : (resetBlock s).weight = (State.resetWith s.params).weight := rfl
@[simp] theorem resetBlock_mem (s : State) : (resetBlock s).mem = (State.resetWith s.params).mem := rfl
@[simp] theorem resetBlock_score (s : State) : (resetBlock s).score = (State.resetWith s.params).score := rfl
@[simp] theorem resetBlock_total (s : State) : (resetBlock s).total = (State.resetWith s.params).total := rfl
@[simp] theorem resetBlock_scoreIdx (s : State) : (resetBlock s).scoreIdx = (State.resetWith s.params).scoreIdx := rfl
@[simp] theorem resetBlock_rsym (s : State) : (resetBlock s).rsym = (State.resetWith s.params).rsym := rfl
@[simp] theorem resetBlock_rvalid (s : State) : (resetBlock s).rvalid = (State.resetWith s.params).rvalid := rfl
@[simp] theorem resetBlock_diagSel (s : State) : (resetBlock s).diagSel = (State.resetWith s.params).diagSel := rfl
@[simp] theorem resetBlock_inq (s : State) : (resetBlock s).inq = (State.resetWith s.params).inq := rfl
@[simp] theorem resetBlock_eoi (s : State) : (resetBlock s).eoi = (State.resetWith s.params).eoi := rfl
@[simp] theorem resetBlock_outq (s : State) : (resetBlock s).outq = (State.resetWith s.params).outq := rfl
@[simp] theorem resetBlock_err (s : State) : (resetBlock s).err = (State.resetWith s.params).err := rfl
@[simp] theorem resetBlock_done (s : State) : (resetBlock s).done = (State.resetWith s.params).done := rfl
@[simp] theorem resetBlock_error (s : State) : (resetBlock s).error = (State.resetWith s.params).error := rfl
@[simp] theorem resetBlock_intEnable (s : State) : (resetBlock s).intEnable = (State.resetWith s.params).intEnable := rfl
@[simp] theorem resetBlock_hostq (s : State) : (resetBlock s).hostq = s.hostq := rfl
@[simp] theorem resetBlock_reads (s : State) : (resetBlock s).reads = s.reads := rfl
@[simp] theorem resetBlock_draws (s : State) : (resetBlock s).draws = s.draws := rfl

/-! ## Values written -/

@[simp] theorem reject_error (e : ErrCause) (s : State) : (reject e s).error = true := rfl
@[simp] theorem raiseFault_error (e : ErrCause) (s : State) : (raiseFault e s).error = true := rfl
@[simp] theorem raiseFault_mode (e : ErrCause) (s : State) : (raiseFault e s).mode = .fault := rfl
@[simp] theorem leaveStream_mode (s : State) : (leaveStream s).mode = .idle := rfl
@[simp] theorem leaveStream_inq (s : State) : (leaveStream s).inq = [] := rfl
@[simp] theorem leaveStream_eoi (s : State) : (leaveStream s).eoi = false := rfl
@[simp] theorem leaveStream_rcnt (s : State) : (leaveStream s).rcnt = 0 := rfl
@[simp] theorem leaveStream_rbuf (s : State) : (leaveStream s).rbuf = 0 := rfl
@[simp] theorem leaveStream_phantom (s : State) : (leaveStream s).phantom = 0 := rfl
@[simp] theorem clearReader_rcnt (s : State) : (clearReader s).rcnt = 0 := rfl
@[simp] theorem clearReader_rbuf (s : State) : (clearReader s).rbuf = 0 := rfl
@[simp] theorem clearReader_phantom (s : State) : (clearReader s).phantom = 0 := rfl
@[simp] theorem complete_pend (s : State) : (complete s).pend = none := rfl
@[simp] theorem hostRead_reads (v : Word) (s : State) : (hostRead v s).reads = v :: s.reads := rfl
@[simp] theorem refresh_symcnt (s : State) : (refresh s).symcnt = 0 := rfl
@[simp] theorem shiftBounds_low (c : RenormCase) (s : State) : (shiftBounds c s).low = lowNext c s.low := rfl
@[simp] theorem shiftBounds_high (c : RenormCase) (s : State) : (shiftBounds c s).high = highNext c s.high := rfl
@[simp] theorem emitPend_pending (b : Bool) (s : State) : (emitPend b s).pending = 0 := rfl
@[simp] theorem flushBits_pending (s : State) : (flushBits s).pending = 0 := rfl
@[simp] theorem encNarrowed_low (s : State) (sym : Byte) : (encNarrowed s sym).low = (encNarrow s sym).1 := rfl
@[simp] theorem encNarrowed_high (s : State) (sym : Byte) : (encNarrowed s sym).high = (encNarrow s sym).2 := rfl

end Sys2Proof.Machine
end

