-- ==== Sys2Proof/Laws/Memory.lean ====
section
/-! SUPPORT. Laws of vectors and of the table memory: what a read returns after a write or a map over the entries, and
that every operation keeps the canonical form. -/

namespace Sys2Proof.Machine

/-! ## Vectors -/

@[simp] theorem tabulate_getElem {α : Type} (n : Nat) (f : Nat → α) (j : Nat) (h : j < n) :
    (tabulate n f)[j] = f j := by
  simp [tabulate]

@[simp] theorem mapVec_getElem {α β : Type} {n : Nat} (f : α → β) (v : Vector α n) (j : Nat) (h : j < n) :
    (mapVec f v)[j] = f v[j] := by
  simp [mapVec]

@[simp] theorem zipVec_getElem {α β γ : Type} {n : Nat} (f : α → β → γ) (v : Vector α n) (w : Vector β n) (j : Nat)
    (h : j < n) : (zipVec f v w)[j] = f v[j] w[j] := by
  simp [zipVec]

theorem mapVec_toList {α β : Type} {n : Nat} (f : α → β) (v : Vector α n) : (mapVec f v).toList = v.toList.map f := by
  simp [mapVec]

/-! ## Entries by key -/

theorem entryKey_inj {k i k' i' : Nat} (hi : i < 2 ^ 20) (hi' : i' < 2 ^ 20) (h : entryKey k i = entryKey k' i') :
    k = k' ∧ i = i' := by
  unfold entryKey at h
  omega

theorem find_filter_of_imp {l : Memory} {p q : Nat × Entry → Bool} (h : ∀ c, p c = true → q c = true) :
    (l.filter q).find? p = l.find? p := by
  induction l with
  | nil => rfl
  | cons c l ih =>
    by_cases hp : p c = true
    · simp [h c hp, hp]
    · by_cases hq : q c = true <;> simp [hq, hp, ih]

theorem find_filter_of_not {l : Memory} {p q : Nat × Entry → Bool} (h : ∀ c, p c = true → q c = false) :
    (l.filter q).find? p = none := by
  simp only [List.find?_eq_none, List.mem_filter, Bool.not_eq_true, and_imp]
  intro c _ hq
  by_cases hp : p c = true
  · simp [h c hp] at hq
  · simpa using hp

/-- A read of the entry just written. -/
@[simp] theorem Memory.get_put_same (m : Memory) (a : Nat) (e : Entry) : (m.put a e).get a = e := by
  unfold Memory.get Memory.put
  rw [List.append_assoc, List.find?_append, find_filter_of_not (by simp), List.find?_append,
    find_filter_of_not (by simp)]
  by_cases h : e = Entry.initial <;> simp [h]

/-- A read of another entry than the one written. -/
theorem Memory.get_put_other (m : Memory) {a b : Nat} (e : Entry) (h : b ≠ a) : (m.put a e).get b = m.get b := by
  unfold Memory.get Memory.put
  have hmid : (if e = Entry.initial then ([] : Memory) else [(a, e)]).find? (fun c => c.1 == b) = none := by
    split <;> simp [Ne.symm h]
  rw [List.append_assoc, List.find?_append, List.find?_append, hmid]
  rcases Nat.lt_or_gt_of_ne h with hlt | hgt
  · rw [find_filter_of_imp (by simp; omega), find_filter_of_not (q := fun c => decide (a < c.1)) (by simp; omega)]
    simp
  · rw [find_filter_of_not (q := fun c => decide (c.1 < a)) (by simp; omega), find_filter_of_imp (by simp; omega)]
    simp

theorem Memory.get_put (m : Memory) (a b : Nat) (e : Entry) :
    (m.put a e).get b = if b = a then e else m.get b := by
  split
  · next h => rw [h, Memory.get_put_same]
  · next h => exact Memory.get_put_other m e h

/-- A write keeps the canonical form. -/
theorem Memory.put_wf {m : Memory} (a : Nat) (e : Entry) (h : m.wf) : (m.put a e).wf := by
  obtain ⟨hs, hn⟩ := h
  constructor
  · unfold Memory.put
    simp only [List.pairwise_append, List.mem_append, List.mem_filter, decide_eq_true_eq]
    refine ⟨⟨hs.filter _, by split <;> simp, ?_⟩, hs.filter _, ?_⟩
    · intro c hc d hd
      split at hd <;> simp at hd
      rw [hd]
      exact hc.2
    · rintro c (hc | hc) d hd
      · omega
      · split at hc <;> simp at hc
        rw [hc]
        exact hd.2
  · intro c hc
    unfold Memory.put at hc
    simp only [List.mem_append, List.mem_filter] at hc
    rcases hc with (hc | hc) | hc
    · exact hn c hc.1
    · split at hc
      · simp at hc
      · next he => simp only [List.mem_singleton] at hc; rw [hc]; exact he
    · exact hn c hc.1

/-- What a write can list: what was listed, or the entry written. -/
theorem Memory.mem_put {m : Memory} {a : Nat} {e : Entry} {c : Nat × Entry} (h : c ∈ m.put a e) :
    c ∈ m ∨ c = (a, e) := by
  unfold Memory.put at h
  simp only [List.mem_append, List.mem_filter] at h
  rcases h with (h | h) | h
  · exact .inl h.1
  · split at h
    · simp at h
    · simp only [List.mem_singleton] at h; exact .inr h
  · exact .inl h.1

/-- What a read returns: a listed entry, or the initial one. -/
theorem Memory.get_cases (m : Memory) (a : Nat) : (a, m.get a) ∈ m ∨ m.get a = Entry.initial := by
  unfold Memory.get
  split
  · next c hc =>
    have h1 := List.mem_of_find?_eq_some hc
    have h2 := List.find?_some hc
    simp only [beq_iff_eq] at h2
    left
    rw [← h2]
    exact h1
  · exact .inr rfl

/-- A map over the entries keeps the canonical form. -/
theorem Memory.mapEntries_wf {m : Memory} (f : Entry → Entry) (h : m.wf) : (m.mapEntries f).wf := by
  refine ⟨?_, ?_⟩
  · refine List.Pairwise.filter _ (List.pairwise_map.mpr ?_)
    exact h.1.imp id
  · intro c hc
    unfold Memory.mapEntries at hc
    simp only [List.mem_filter, decide_eq_true_eq] at hc
    exact hc.2

/-- What a map over the entries can list. -/
theorem Memory.mem_mapEntries {m : Memory} {f : Entry → Entry} {c : Nat × Entry} (h : c ∈ m.mapEntries f) :
    ∃ d ∈ m, c = (d.1, f d.2) := by
  unfold Memory.mapEntries at h
  simp only [List.mem_filter, List.mem_map] at h
  obtain ⟨⟨d, hd, rfl⟩, _⟩ := h
  exact ⟨d, hd, rfl⟩

/-- A read after a map over the entries of a canonical memory. -/
theorem Memory.get_mapEntries {m : Memory} {f : Entry → Entry} (hf : f Entry.initial = Entry.initial) (h : m.wf)
    (a : Nat) : (m.mapEntries f).get a = f (m.get a) := by
  have hs := h.1
  clear h
  induction m with
  | nil => simp [Memory.mapEntries, Memory.get, hf]
  | cons c m ih =>
    rw [List.pairwise_cons] at hs
    have hcons : Memory.mapEntries f (c :: m) =
        (if f c.2 = Entry.initial then [] else [(c.1, f c.2)]) ++ Memory.mapEntries f m := by
      unfold Memory.mapEntries
      by_cases hc : f c.2 = Entry.initial <;> simp [hc]
    have ih' := ih hs.2
    unfold Memory.get at ih' ⊢
    rw [hcons, List.find?_append, List.find?_cons]
    by_cases ha : c.1 = a
    · have hnone : (Memory.mapEntries f m).find? (fun d => d.1 == a) = none := by
        simp only [List.find?_eq_none]
        intro d hd
        obtain ⟨d', hd', rfl⟩ := Memory.mem_mapEntries hd
        have := hs.1 d' hd'
        simp only [beq_iff_eq]
        omega
      by_cases hc : f c.2 = Entry.initial <;> simp [hc, ha, hnone]
    · have hb : (c.1 == a) = false := beq_eq_false_iff_ne.mpr ha
      have hif : (if f c.2 = Entry.initial then ([] : Memory) else [(c.1, f c.2)]).find? (fun d => d.1 == a) = none := by
        split <;> simp [ha]
      rw [hif]
      simpa [hb] using ih'

end Sys2Proof.Machine
end

