-- ==== Sys2Proof/Laws/Predictor.lean ====
section
/-! SUPPORT. Laws of the predictor: the active slots, the index range, the scores, and what an update and a refresh do
to each entry. -/

namespace Sys2Proof.Machine

/-! ## Slots and indices -/

@[simp] theorem mem_indexValues (k : Fin 8) : k ∈ indexValues := by revert k; decide

@[simp] theorem mem_activeSlots (s : State) (k : Fin 8) : k ∈ activeSlots s ↔ k.val < s.nord.toNat := by
  simp [activeSlots]

theorem activeSlots_nodup (s : State) : (activeSlots s).Nodup := List.Nodup.filter _ (by decide)

theorem activeSlots_length_le (s : State) : (activeSlots s).length ≤ 8 :=
  Nat.le_trans (List.length_filter_le _ _) (by decide)

theorem indexOf_lt (s : State) (k : Fin 8) (h : s.params.tableBits ≤ 32) : indexOf s k < 2 ^ s.params.tableBits := by
  unfold indexOf
  rw [BitVec.toNat_ushiftRight, Nat.shiftRight_eq_div_pow]
  have := (ctxHash s k * Config.gold).isLt
  apply Nat.div_lt_of_lt_mul
  rw [← Nat.pow_add]
  rw [show 32 - s.params.tableBits + s.params.tableBits = 32 by omega]
  exact this

/-! ## Scores -/

theorem mix_fold_getElem (rows : List (Nat × Entry)) (acc : Vector Nat 256) (j : Nat) (h : j < 256) :
    (rows.foldl (fun acc r => zipVec (fun a p => a + r.1 * p.toNat) acc r.2.prob) acc)[j] =
      acc[j] + (rows.map (fun r => r.1 * r.2.prob[j].toNat)).sum := by
  induction rows generalizing acc with
  | nil => simp
  | cons r rows ih => simp [ih, Nat.add_assoc]

theorem mix_getElem (rows : List (Nat × Entry)) (j : Nat) (h : j < 256) :
    (mix rows)[j] = (rows.map (fun r => r.1 * r.2.prob[j].toNat)).sum := by
  simp [mix, mix_fold_getElem]

theorem mix_mixRows (s : State) (x : Fin 256) : (mix (mixRows s))[x] = mixedScore s x := by
  simp only [Fin.getElem_fin]
  rw [mix_getElem]
  simp [mixRows, mixedScore, List.map_map, Function.comp_def, State.entry, slotKey]

theorem sum_map_le {α : Type} (l : List α) (f : α → Nat) (b : Nat) (h : ∀ a ∈ l, f a ≤ b) :
    (l.map f).sum ≤ l.length * b := by
  induction l with
  | nil => simp
  | cons a l ih =>
    have h1 := h a (by simp)
    have h2 := ih (fun x hx => h x (by simp [hx]))
    simp only [List.map_cons, List.sum_cons, List.length_cons, Nat.add_mul]
    omega

/-- A score is at most 8 · 2047 · 255 < 2^22 (40_predictor.md R103, 00_scope.md R12). -/
theorem mixedScore_le (s : State) (x : Fin 256) : mixedScore s x ≤ 8 * (2047 * 255) := by
  refine Nat.le_trans (sum_map_le _ _ (2047 * 255) ?_) (Nat.mul_le_mul_right _ (activeSlots_length_le s))
  intro k _
  have h1 := s.weight[k].isLt
  have h2 := (s.entry k.val (indexOf s k)).prob[x].isLt
  exact Nat.mul_le_mul (by omega) (by omega)

theorem predict_score (s : State) (x : Fin 256) : ((predict s).score[x]).toNat = mixedScore s x := by
  have h := mixedScore_le s x
  unfold predict
  simp only [Fin.getElem_fin, mapVec_getElem, BitVec.toNat_ofNat]
  rw [← Fin.getElem_fin, mix_mixRows]
  exact Nat.mod_eq_of_lt (by omega)

theorem freq_predict (s : State) (sym : Byte) : freq (predict s) sym = mixedScore s sym.toFin := by
  unfold freq
  rw [Vector.getElem?_eq_getElem sym.isLt]
  exact predict_score s sym.toFin

theorem score_toList (s : State) :
    (predict s).score.toList.map BitVec.toNat = (List.finRange 256).map (mixedScore s) := by
  apply List.ext_getElem
  · simp
  · intro j h1 h2
    simp only [List.length_map, Vector.length_toList] at h1
    have := predict_score s ⟨j, h1⟩
    simp only [Fin.getElem_fin] at this
    simpa using this

theorem scoreSum_predict (s : State) :
    scoreSum (predict s).score.toList = ((List.finRange 256).map (mixedScore s)).sum := by
  unfold scoreSum
  rw [score_toList]

theorem total_bound (s : State) : ((List.finRange 256).map (mixedScore s)).sum < 2 ^ 30 := by
  have h := sum_map_le (List.finRange 256) (mixedScore s) (8 * (2047 * 255)) (fun x _ => mixedScore_le s x)
  have : (List.finRange 256).length = 256 := List.length_finRange
  rw [this] at h
  omega

/-- TOTAL is the exact sum of the stored scores (R103). -/
theorem total_predict (s : State) : (predict s).total.toNat = scoreSum (predict s).score.toList := by
  have h := total_bound s
  rw [← scoreSum_predict] at h
  show (BitVec.ofNat 30 (scoreSum (predict s).score.toList)).toNat = _
  rw [BitVec.toNat_ofNat]
  exact Nat.mod_eq_of_lt h

/-! ## Update -/

theorem update_fold_get (s : State) (sym : Byte) (hT : s.params.tableBits ≤ 20) (slots : List (Fin 8)) (m : Memory)
    (hn : slots.Nodup) (k : Fin 8) (i : Nat) (hi : i < 2 ^ 20) :
    (slots.foldl (fun m k => m.put (slotKey s k) (touch s.ceil sym (m.get (slotKey s k)))) m).get (entryKey k.val i) =
      if k ∈ slots ∧ i = indexOf s k then touch s.ceil sym (m.get (entryKey k.val i)) else m.get (entryKey k.val i) := by
  induction slots generalizing m with
  | nil => simp
  | cons a slots ih =>
    rw [List.nodup_cons] at hn
    rw [List.foldl_cons, ih _ hn.2]
    have hidx : indexOf s a < 2 ^ 20 :=
      Nat.lt_of_lt_of_le (indexOf_lt s a (by omega)) (Nat.pow_le_pow_right (by omega) hT)
    by_cases ha : k = a
    · subst ha
      by_cases hk : i = indexOf s k
      · subst hk
        simp [hn.1, slotKey]
      · have hne : entryKey k.val i ≠ slotKey s k := fun h => hk (entryKey_inj hi hidx h).2
        simp [hk, Memory.get_put_other _ _ hne]
    · have hne : entryKey k.val i ≠ slotKey s a := fun h => ha (Fin.ext (entryKey_inj hi hidx h).1)
      simp [ha, Memory.get_put_other _ _ hne]

/-- What Update does to every entry (R105, 20_memory.md R76): the entry of each active slot at its index is touched,
and no other. -/
theorem update_entry (s : State) (sym : Byte) (hT : s.params.tableBits ≤ 20) (k : Fin 8) (i : Nat) (hi : i < 2 ^ 20) :
    (update s sym).entry k.val i =
      if k.val < s.nord.toNat ∧ i = indexOf s k then touch s.ceil sym (s.entry k.val i) else s.entry k.val i := by
  have := update_fold_get s sym hT (activeSlots s) s.mem (activeSlots_nodup s) k i hi
  simpa [State.entry, update] using this

/-! ## Refresh -/

@[simp] theorem requant_initial : requant Entry.initial = Entry.initial := rfl

/-- What Refresh does to every entry (R108). -/
theorem refresh_entry (s : State) (h : s.mem.wf) (k i : Nat) : (refresh s).entry k i = requant (s.entry k i) :=
  Memory.get_mapEntries requant_initial h _

/-! ## The entry invariant (10_state.md R53) -/

theorem vector_mem_toList {α : Type} {n : Nat} {v : Vector α n} {a : α} (h : a ∈ v.toList) :
    ∃ j, ∃ h : j < n, v[j] = a := by
  obtain ⟨j, hj, rfl⟩ := List.getElem_of_mem h
  exact ⟨j, by simpa using hj, by simp⟩

theorem initial_ok : Entry.initial.ok := by
  refine ⟨?_, by decide, ?_⟩
  · intro c hc
    obtain ⟨j, hj, rfl⟩ := vector_mem_toList hc
    simp [Entry.initial]
  · intro p hp
    obtain ⟨j, hj, rfl⟩ := vector_mem_toList hp
    simp [Entry.initial, Config.pinit]

theorem quant_bounds (c t : Nat) : 1 ≤ quant c t ∧ quant c t ≤ 255 := by
  unfold quant Config.pmin Config.pmax
  omega

theorem requant_ok {e : Entry} (h : e.ok) : (requant e).ok := by
  unfold requant
  split
  · refine ⟨h.1, h.2.1, ?_⟩
    intro p hp
    simp only [mapVec_toList, List.mem_map] at hp
    obtain ⟨c, _, rfl⟩ := hp
    have := quant_bounds c.toNat e.tot.toNat
    rw [BitVec.toNat_ofNat, Nat.mod_eq_of_lt (by omega)]
    exact this.1
  · exact h

theorem decay_ok {ceil : BitVec 15} {e : Entry} (hc : ∀ c ∈ e.cnt.toList, c.toNat ≤ e.tot.toNat)
    (ht : e.tot.toNat ≤ 32768) (hp : ∀ p ∈ e.prob.toList, 1 ≤ p.toNat) : (decay ceil e).ok := by
  have hceil := ceil.isLt
  unfold decay
  split
  · refine ⟨?_, ?_, hp⟩
    · intro c hc'
      simp only [mapVec_toList, List.mem_map] at hc'
      obtain ⟨d, hd, rfl⟩ := hc'
      have := hc d hd
      simp only [BitVec.toNat_udiv]
      exact Nat.div_le_div_right this
    · simp only [BitVec.toNat_udiv]
      show e.tot.toNat / 2 ≤ 32767
      omega
  · exact ⟨hc, by omega, hp⟩

theorem touch_ok {ceil : BitVec 15} {sym : Byte} {e : Entry} (h : e.ok) : (touch ceil sym e).ok := by
  obtain ⟨hc, ht, hp⟩ := h
  have htot : (e.tot + 1).toNat = e.tot.toNat + 1 := by
    rw [BitVec.toNat_add]; simp; omega
  unfold touch
  apply decay_ok
  · intro c hc'
    obtain ⟨j, hj, rfl⟩ := vector_mem_toList hc'
    have hj' : (e.cnt[j]).toNat ≤ e.tot.toNat := hc _ (by simp)
    have hs' : (e.cnt[sym.toNat]).toNat ≤ e.tot.toNat := hc _ (by simp)
    show _ ≤ (e.tot + 1).toNat
    rw [htot]
    by_cases hjs : sym.toNat = j
    · subst hjs
      rw [Vector.getElem_set_self, BitVec.toNat_add]
      simp
      omega
    · rw [Vector.getElem_set_ne _ _ hjs]
      omega
  · show (e.tot + 1).toNat ≤ 32768
    omega
  · exact hp

/-- Every entry of a canonical, safe table memory keeps R53, the unlisted ones included. -/
theorem get_ok {m : Memory} (h : ∀ c ∈ m, c.2.ok) (a : Nat) : (m.get a).ok := by
  rcases Memory.get_cases m a with hm | hi
  · exact h _ hm
  · rw [hi]; exact initial_ok

/-! ## The tables' invariant under the predictor's functions -/

/-- `TablesOk` reads only the table memory and the parameters. -/
theorem TablesOk.congr {s t : State} (h : TablesOk s) (h1 : t.mem = s.mem) (h2 : t.params = s.params) :
    TablesOk t := by
  unfold TablesOk at *
  rw [h1, h2]
  exact h

theorem slotKey_bounds (s : State) (hT : s.params.tableBits ≤ 20) (k : Fin 8) :
    slotKey s k < 8 * 2 ^ 20 ∧ slotKey s k % 2 ^ 20 < 2 ^ s.params.tableBits := by
  have h1 := indexOf_lt s k (by omega)
  have h2 : indexOf s k < 2 ^ 20 := Nat.lt_of_lt_of_le h1 (Nat.pow_le_pow_right (by omega) hT)
  have hk := k.isLt
  unfold slotKey entryKey
  constructor
  · omega
  · rw [show (k.val * 2 ^ 20 + indexOf s k) % 2 ^ 20 = indexOf s k by omega]
    exact h1

theorem put_tablesOk {s : State} {a : Nat} {e : Entry} (h : TablesOk s) (he : e.ok)
    (ha : a < 8 * 2 ^ 20 ∧ a % 2 ^ 20 < 2 ^ s.params.tableBits) : TablesOk { s with mem := s.mem.put a e } := by
  refine ⟨Memory.put_wf _ _ h.1, ?_⟩
  intro c hc
  rcases Memory.mem_put hc with hc | rfl
  · exact h.2 c hc
  · exact ⟨he, ha⟩

theorem update_tablesOk {s : State} (sym : Byte) (hT : s.params.tableBits ≤ 20) (h : TablesOk s) :
    TablesOk (update s sym) := by
  have key : ∀ (slots : List (Fin 8)) (m : Memory), TablesOk { s with mem := m } → TablesOk { s with
      mem := slots.foldl (fun m k => m.put (slotKey s k) (touch s.ceil sym (m.get (slotKey s k)))) m } := by
    intro slots
    induction slots with
    | nil => intro m hm; exact hm
    | cons k slots ih =>
      intro m hm
      refine ih _ (put_tablesOk (s := { s with mem := m }) hm (touch_ok ?_) (slotKey_bounds s hT k))
      rcases Memory.get_cases m (slotKey s k) with h' | h'
      · exact (hm.2 _ h').1
      · rw [h']
        exact initial_ok
  exact key _ _ h

theorem refresh_tablesOk {s : State} (h : TablesOk s) : TablesOk (refresh s) := by
  refine ⟨Memory.mapEntries_wf _ h.1, ?_⟩
  intro c hc
  obtain ⟨d, hd, rfl⟩ := Memory.mem_mapEntries hc
  exact ⟨requant_ok (h.2 d hd).1, (h.2 d hd).2⟩

/-- The two ways the symbol count ends (R110). -/
theorem countSymbol_cases (s : State) :
    (s.rint ≤ s.symcnt + 1 ∧ countSymbol s = refresh s) ∨
      (s.symcnt + 1 < s.rint ∧ countSymbol s = { s with symcnt := s.symcnt + 1 }) := by
  unfold countSymbol
  by_cases h : s.rint ≤ s.symcnt + 1
  · refine .inl ⟨h, ?_⟩
    simp only [decide_eq_true h, if_true]
    rfl
  · refine .inr ⟨BitVec.not_le.mp h, ?_⟩
    simp only [decide_eq_false h, Bool.false_eq_true, if_false]

theorem tail_tablesOk {s : State} (sym : Byte) (hT : s.params.tableBits ≤ 20) (h : TablesOk s) :
    TablesOk (tail s sym) := by
  have h1 : TablesOk (histShift (update s sym) sym) := update_tablesOk sym hT h
  unfold tail
  rcases countSymbol_cases (histShift (update s sym) sym) with ⟨_, he⟩ | ⟨_, he⟩ <;> rw [he]
  · exact refresh_tablesOk h1
  · exact h1

/-! ## Tail, register by register and entry by entry (40_predictor.md R110) -/

theorem update_wf (s : State) (sym : Byte) (h : s.mem.wf) : (update s sym).mem.wf := by
  unfold update
  simp only
  generalize activeSlots s = l
  suffices ∀ m : Memory, m.wf → (l.foldl (fun m k => m.put (slotKey s k) (touch s.ceil sym (m.get (slotKey s k)))) m).wf from
    this _ h
  induction l with
  | nil => exact fun m hm => hm
  | cons a l ih => exact fun m hm => ih _ (Memory.put_wf _ _ hm)

/-- What Tail writes: the table memory, the history with its count, and SYMCNT; nothing else. -/
theorem tail_registers (s : State) (sym : Byte) :
    tail s sym = { s with
      mem := (tail s sym).mem, hist := (tail s sym).hist, histValid := (tail s sym).histValid
      symcnt := if s.rint ≤ s.symcnt + 1 then 0 else s.symcnt + 1 } ∧
    (tail s sym).hist[0] = sym ∧ (∀ j : Fin 31, (tail s sym).hist[j.val + 1] = s.hist[j.val]) ∧
    (tail s sym).histValid.toNat = min (s.histValid.toNat + 1) 32 := by
  have hh : (tail s sym).hist = (histShift s sym).hist := rfl
  have hv : (tail s sym).histValid = (histShift s sym).histValid := rfl
  refine ⟨?_, ?_, ?_, ?_⟩
  · unfold tail
    rcases countSymbol_cases (histShift (update s sym) sym) with ⟨hd, he⟩ | ⟨hd, he⟩ <;> rw [he]
    · rw [if_pos (show s.rint ≤ s.symcnt + 1 from hd)]; rfl
    · rw [if_neg (BitVec.not_le.mpr (show s.symcnt + 1 < s.rint from hd))]; rfl
  · simp [hh, histShift]
  · intro j
    have := j.isLt
    simp [hh, histShift, histByte, show j.val < 32 by omega]
  · simp [hv, histShift]

/-- What Tail does to every entry: Update on the indices before the shift, then the automatic refresh where it is due. -/
theorem tail_entry (s : State) (sym : Byte) (hT : s.params.tableBits ≤ 20) (h : s.mem.wf) (k : Fin 8) (i : Nat)
    (hi : i < 2 ^ 20) :
    (tail s sym).entry k.val i =
      if s.rint ≤ s.symcnt + 1 then
        requant (if k.val < s.nord.toNat ∧ i = indexOf s k then touch s.ceil sym (s.entry k.val i) else s.entry k.val i)
      else if k.val < s.nord.toNat ∧ i = indexOf s k then touch s.ceil sym (s.entry k.val i) else s.entry k.val i := by
  have hu := update_entry s sym hT k i hi
  unfold tail
  rcases countSymbol_cases (histShift (update s sym) sym) with ⟨hd, he⟩ | ⟨hd, he⟩ <;> rw [he]
  · rw [refresh_entry _ (show (histShift (update s sym) sym).mem.wf from update_wf s sym h), if_pos (show s.rint ≤ s.symcnt + 1 from hd), ← hu]; rfl
  · rw [if_neg (BitVec.not_le.mpr (show s.symcnt + 1 < s.rint from hd)), ← hu]; rfl

end Sys2Proof.Machine
end

