-- ==== Sys2Proof/Laws/Encoder.lean ====
section
/-! SUPPORT. Laws of the encoder: narrowing, one renormalization pass on the bounds, the frame of renormalization, and
the numbers that sequences of bits stand for. -/

namespace Sys2Proof.Machine

/-! ## One renormalization pass on the bounds (41_encoder.md R134) -/

theorem half_eq : Config.half = 2 ^ 31 := rfl

theorem quarter_eq : Config.quarter = 2 ^ 30 := rfl

theorem threeq_eq : Config.threeq = 3 * 2 ^ 30 := rfl

theorem renormCase_e1_iff (lo hi : Word) : renormCase lo hi = .e1 ↔ hi.toNat < 2 ^ 31 := by
  unfold renormCase
  rw [half_eq, quarter_eq, threeq_eq]
  split_ifs <;> simp_all

theorem renormCase_e2_iff (lo hi : Word) : renormCase lo hi = .e2 ↔ 2 ^ 31 ≤ hi.toNat ∧ 2 ^ 31 ≤ lo.toNat := by
  unfold renormCase
  rw [half_eq, quarter_eq, threeq_eq]
  split_ifs <;> simp_all

theorem renormCase_e3_iff (lo hi : Word) : renormCase lo hi = .e3 ↔
    2 ^ 30 ≤ lo.toNat ∧ lo.toNat < 2 ^ 31 ∧ 2 ^ 31 ≤ hi.toNat ∧ hi.toNat < 3 * 2 ^ 30 := by
  unfold renormCase
  rw [half_eq, quarter_eq, threeq_eq]
  split_ifs <;> simp_all

/-- The loop ends exactly on a renormalized interval. -/
theorem renormCase_done_iff (lo hi : Word) : renormCase lo hi = .done ↔ Renormalized lo hi := by
  unfold renormCase Renormalized
  rw [half_eq, quarter_eq, threeq_eq]
  split_ifs <;> (simp_all; try omega)

theorem renormOffset_toNat (c : RenormCase) :
    (renormOffset c).toNat = match c with | .e1 => 0 | .e2 => 2 ^ 31 | .e3 => 2 ^ 30 | .done => 0 := by
  cases c <;> rfl

theorem lowNext_toNat (c : RenormCase) (lo : Word) :
    (lowNext c lo).toNat = 2 * (lo.toNat + (2 ^ 32 - (renormOffset c).toNat)) % 2 ^ 32 := by
  unfold lowNext
  rw [BitVec.toNat_shiftLeft, Nat.shiftLeft_eq, BitVec.toNat_sub]
  have := (renormOffset c).isLt
  omega

theorem or_one_toNat (x : Word) : (x <<< 1 ||| 1#32).toNat = 2 * x.toNat % 2 ^ 32 + 1 := by
  have h : x <<< 1 ||| 1#32 = x <<< 1 + 1#32 := by
    rw [BitVec.add_eq_or_of_and_eq_zero]
    ext i hi
    by_cases h0 : i = 0 <;> simp [h0, BitVec.getElem_one]
  have hx := x.isLt
  rw [h, BitVec.toNat_add, BitVec.toNat_shiftLeft, Nat.shiftLeft_eq]
  simp only [BitVec.toNat_ofNat]
  omega

theorem highNext_toNat (c : RenormCase) (hi : Word) :
    (highNext c hi).toNat = 2 * (hi.toNat + (2 ^ 32 - (renormOffset c).toNat)) % 2 ^ 32 + 1 := by
  unfold highNext
  rw [or_one_toNat, BitVec.toNat_sub]
  have := (renormOffset c).isLt
  omega

/-- On an ordered interval a pass subtracts without borrow and doubles without overflow (R134, R155). -/
theorem pass_toNat {lo hi : Word} (h : lo.toNat ≤ hi.toNat) {c : RenormCase} (hc : renormCase lo hi = c)
    (hne : c ≠ .done) :
    (renormOffset c).toNat ≤ lo.toNat ∧ hi.toNat - (renormOffset c).toNat < 2 ^ 31 ∧
      (lowNext c lo).toNat = 2 * (lo.toNat - (renormOffset c).toNat) ∧
      (highNext c hi).toNat = 2 * (hi.toNat - (renormOffset c).toNat) + 1 := by
  rw [lowNext_toNat, highNext_toNat, renormOffset_toNat]
  have h1 := lo.isLt
  have h2 := hi.isLt
  cases c with
  | e1 => rw [renormCase_e1_iff] at hc; simp only; omega
  | e2 => rw [renormCase_e2_iff] at hc; simp only; omega
  | e3 => rw [renormCase_e3_iff] at hc; simp only; omega
  | done => exact absurd rfl hne

/-- A pass on bounds whose low n bits are 0 in LOW and 1 in HIGH leaves n + 1 such bits, whatever the bounds. This is
why the loop ends (assumption 10). -/
theorem pass_dvd {lo hi : Word} {n : Nat} (hn : n ≤ 31) (hl : 2 ^ n ∣ lo.toNat) (hh : 2 ^ n ∣ hi.toNat + 1)
    {c : RenormCase} (hc : renormCase lo hi = c) (hne : c ≠ .done) :
    2 ^ (n + 1) ∣ (lowNext c lo).toNat ∧ 2 ^ (n + 1) ∣ (highNext c hi).toNat + 1 := by
  have hlo := lo.isLt
  have hhi := hi.isLt
  have hp : 2 ^ (n + 1) ∣ 2 ^ 32 := Nat.pow_dvd_pow 2 (by omega)
  have key : ∀ x off : Nat, 2 ^ n ∣ x → 2 ^ n ∣ off → off ≤ 2 ^ 32 →
      2 ^ (n + 1) ∣ 2 * (x + (2 ^ 32 - off)) % 2 ^ 32 := by
    intro x off hx ho hle
    refine (Nat.dvd_mod_iff hp).mpr ?_
    rw [Nat.pow_succ, Nat.mul_comm]
    exact Nat.mul_dvd_mul_left 2 (Nat.dvd_add hx (Nat.dvd_sub (Nat.pow_dvd_pow 2 (by omega)) ho))
  have hoff : 2 ^ n ∣ (renormOffset c).toNat := by
    rw [renormOffset_toNat]
    cases c with
    | e1 => exact Nat.dvd_zero _
    | e2 => exact Nat.pow_dvd_pow 2 hn
    | e3 =>
      rw [renormCase_e3_iff] at hc
      refine Nat.pow_dvd_pow 2 ?_
      by_contra hcon
      obtain rfl : n = 31 := by omega
      obtain ⟨k, hk⟩ := hl
      omega
    | done => exact Nat.dvd_zero _
  refine ⟨?_, ?_⟩
  · rw [lowNext_toNat]
    exact key _ _ hl hoff (by have := (renormOffset c).isLt; omega)
  · have h1 := key (hi.toNat + 1) _ hh hoff (by have := (renormOffset c).isLt; omega)
    rw [highNext_toNat]
    have hlt := (renormOffset c).isLt
    have h2 : 2 * (hi.toNat + 1 + (2 ^ 32 - (renormOffset c).toNat)) =
        2 * (hi.toNat + (2 ^ 32 - (renormOffset c).toNat)) + 2 := by omega
    rw [h2] at h1
    have h3 := (Nat.dvd_mod_iff hp).mp h1
    have h4 : 2 * (hi.toNat + (2 ^ 32 - (renormOffset c).toNat)) % 2 ^ 32 + 1 + 1 + 2 ^ 32 *
        (2 * (hi.toNat + (2 ^ 32 - (renormOffset c).toNat)) / 2 ^ 32) =
        2 * (hi.toNat + (2 ^ 32 - (renormOffset c).toNat)) + 2 := by omega
    rw [← h4] at h3
    exact (Nat.dvd_add_left (Nat.dvd_trans hp (Nat.dvd_mul_right _ _))).mp h3

/-- LOW = 0 and HIGH = TOP end the loop. -/
theorem renormalized_of_dvd {lo hi : Word} (hl : 2 ^ 32 ∣ lo.toNat) (hh : 2 ^ 32 ∣ hi.toNat + 1) :
    Renormalized lo hi := by
  have h1 := lo.isLt
  have h2 := hi.isLt
  unfold Renormalized
  rw [half_eq, quarter_eq, threeq_eq]
  obtain ⟨a, ha⟩ := hl
  obtain ⟨b, hb⟩ := hh
  omega

/-- An underflow pass leaves an interval that straddles the midpoint (R139). -/
theorem e3_straddles {lo hi : Word} (h : renormCase lo hi = .e3) :
    (lowNext .e3 lo).toNat < 2 ^ 31 ∧ 2 ^ 31 ≤ (highNext .e3 hi).toNat := by
  rw [renormCase_e3_iff] at h
  rw [lowNext_toNat, highNext_toNat, renormOffset_toNat]
  have h1 := lo.isLt
  have h2 := hi.isLt
  simp only
  omega

/-! ## The frame of renormalization -/

/-- RenormEnc writes LOW, HIGH, PENDING, the packer, BITCNT and OUTQ, and nothing else (R130). -/
theorem renormEnc_frame (n : Nat) (s : State) :
    (renormEnc n s).1 = { s with
      low := (renormEnc n s).1.low, high := (renormEnc n s).1.high, pending := (renormEnc n s).1.pending
      obuf := (renormEnc n s).1.obuf, ocnt := (renormEnc n s).1.ocnt, bitcnt := (renormEnc n s).1.bitcnt
      outq := (renormEnc n s).1.outq } := by
  induction n generalizing s with
  | zero => rfl
  | succ n ih =>
    have hp : ∀ b, emitPend b s = { s with
        pending := (emitPend b s).pending, obuf := (emitPend b s).obuf, ocnt := (emitPend b s).ocnt
        bitcnt := (emitPend b s).bitcnt, outq := (emitPend b s).outq } := by
      intro b
      simp only [emitPend]
      rw [emitMany_frame]
      rfl
    unfold renormEnc
    cases renormCase s.low s.high with
    | e1 => simp only; rw [ih, hp]; rfl
    | e2 => simp only; rw [ih, hp]; rfl
    | e3 =>
      simp only
      split
      · rfl
      · rw [ih]; rfl
    | done => rfl

/-! ## Coded bits -/

theorem packerBits_length (s : State) : (packerBits s).length = s.ocnt.toNat := by simp [packerBits]

/-- The number of a longer sequence of bits: the first part moves up by the second's length. -/
theorem bitsValue_append (l m : List Bool) : bitsValue (l ++ m) = bitsValue l * 2 ^ m.length + bitsValue m := by
  have key : ∀ (m : List Bool) (a : Nat), m.foldl (fun n b => 2 * n + b.toNat) a =
      a * 2 ^ m.length + m.foldl (fun n b => 2 * n + b.toNat) 0 := by
    intro m
    induction m with
    | nil => intro a; simp
    | cons b m ih =>
      intro a
      simp only [List.foldl_cons, List.length_cons]
      rw [ih (2 * a + b.toNat), ih (2 * 0 + b.toNat)]
      ring
  simp only [bitsValue, List.foldl_append]
  exact key m _

@[simp] theorem bitsValue_singleton (b : Bool) : bitsValue [b] = b.toNat := by simp [bitsValue]

theorem bitsValue_replicate (n : Nat) (b : Bool) : bitsValue (List.replicate n b) = if b then 2 ^ n - 1 else 0 := by
  induction n with
  | zero => cases b <;> rfl
  | succ n ih =>
    rw [List.replicate_succ', bitsValue_append, ih]
    have := Nat.one_le_two_pow (n := n)
    cases b
    · simp
    · simp only [if_true, bitsValue_singleton, List.length_singleton, Bool.toNat_true, Nat.pow_succ]
      omega

end Sys2Proof.Machine
end

