-- ==== Sys2Proof/Laws/Decoder.lean ====
section
/-! SUPPORT. Laws of the decoder: the code register's shift, one decoder pass, the frame of renormalization, and the
cumulative scores that the symbol search walks. -/

namespace Sys2Proof.Machine

/-! ## Code and passes -/

theorem shiftCode_code (s : State) :
    (shiftCode s).code.toNat = 2 * s.code.toNat % 2 ^ 32 + (readBit s).1.toNat := by
  have hcode : (shiftCode s).code = s.code <<< 1 ||| (if (readBit s).1 then 1#32 else 0#32) := rfl
  rw [hcode]
  cases (readBit s).1
  · simp [BitVec.toNat_shiftLeft, Nat.shiftLeft_eq, Nat.mul_comm]
  · simpa using or_one_toNat s.code

/-- On an interval that holds CODE, a decoder pass keeps CODE inside (42_decoder.md R164). -/
theorem decPass_holds {s : State} (h1 : s.low.toNat ≤ s.code.toNat) (h2 : s.code.toNat ≤ s.high.toNat)
    {c : RenormCase} (hc : renormCase s.low s.high = c) (hne : c ≠ .done) :
    let t := shiftCode (shiftBounds c { s with code := s.code - renormOffset c })
    t.low.toNat ≤ t.code.toNat ∧ t.code.toNat ≤ t.high.toNat := by
  obtain ⟨p1, p2, p3, p4⟩ := pass_toNat (Nat.le_trans h1 h2) hc hne
  have hcode : (s.code - renormOffset c).toNat = s.code.toNat - (renormOffset c).toNat :=
    BitVec.toNat_sub_of_le (by rw [BitVec.le_def]; omega)
  simp only [shiftCode_low, shiftCode_high, shiftBounds_low, shiftBounds_high, p3, p4, shiftCode_code,
    shiftBounds_code, hcode]
  have hb := Bool.toNat_le (readBit (shiftBounds c { s with code := s.code - renormOffset c })).1
  omega

/-! ## The frame of renormalization -/

/-- RenormDec writes LOW, HIGH, CODE, the reader, PHANTOM, INQ and BITCNT, and nothing else (R150). -/
theorem renormDec_frame (n : Nat) (s : State) :
    renormDec n s = { s with
      low := (renormDec n s).low, high := (renormDec n s).high, code := (renormDec n s).code
      rbuf := (renormDec n s).rbuf, rcnt := (renormDec n s).rcnt, phantom := (renormDec n s).phantom
      inq := (renormDec n s).inq, bitcnt := (renormDec n s).bitcnt } := by
  induction n generalizing s with
  | zero => rfl
  | succ n ih =>
    have hs : ∀ t : State, shiftCode t = { t with
        code := (shiftCode t).code, rbuf := (shiftCode t).rbuf, rcnt := (shiftCode t).rcnt
        phantom := (shiftCode t).phantom, inq := (shiftCode t).inq, bitcnt := (shiftCode t).bitcnt } :=
      fun t => shiftCodeMany_frame 1 t
    unfold renormDec
    cases renormCase s.low s.high with
    | done => rfl
    | e1 => simp only; rw [ih, hs]; rfl
    | e2 => simp only; rw [ih, hs]; rfl
    | e3 => simp only; rw [ih, hs]; rfl

/-! ## Cumulative scores -/

theorem scoreSum_append (l m : List (BitVec 22)) : scoreSum (l ++ m) = scoreSum l + scoreSum m := by
  simp [scoreSum]

theorem cum_add_freq (p : State) (y : Byte) :
    cum p y + freq p y = scoreSum (p.score.toList.take (y.toNat + 1)) := by
  have hy : y.toNat < p.score.toList.length := by simpa using y.isLt
  have hy' : y.toNat < 256 := y.isLt
  unfold cum freq
  rw [← List.take_append_getElem hy, scoreSum_append, Vector.getElem?_eq_getElem hy']
  simp [scoreSum]

/-- The scores below a symbol grow with the symbol. -/
theorem scoreSum_take_mono (l : List (BitVec 22)) {a b : Nat} (h : a ≤ b) :
    scoreSum (l.take a) ≤ scoreSum (l.take b) := by
  obtain ⟨c, rfl⟩ := Nat.exists_eq_add_of_le h
  rw [List.take_add, scoreSum_append]
  omega

end Sys2Proof.Machine
end

