-- ==== Sys2Proof/Laws/PerInstr.lean ====
section
/-! SUPPORT. A law of every operation, one lemma for each constructor: what a well-formed operation is encoded as is
admitted by the block, a command word whose reserved field is 0 (30_encoding.md R80, R82) or a 32-bit access at a
multiple of 4 (20_memory.md R63). -/

namespace Sys2Proof.Laws.Admitted

/-- A command word with RSV = 0, or an access of four bytes at an aligned offset. -/
def Packet : Sys2Proof.Packet → Prop
  | .command w => rsvField w = 0
  | .access a => a.bytes = 4 ∧ a.off.toNat % 4 = 0

/-- The law. -/
def Statement (i : Instr) : Prop := WellFormed i = true → Packet (encode i)

theorem command (op : BitVec 8) (sym : Byte) : Packet (.command (cmdWord op sym)) := by
  show rsvField (cmdWord op sym) = 0
  unfold rsvField cmdWord
  ext j hj
  simp only [BitVec.getElem_extractLsb', BitVec.getLsbD_append, BitVec.getLsbD_zero]
  simp [show 8 + j < 24 by omega, show ¬ 8 + j < 8 by omega]

theorem read (r : Reg) (h : (BitVec.ofNat 12 r.offset).toNat % 4 = 0) : Packet (readAccess r) := ⟨rfl, h⟩

theorem write (r : Reg) (v : Word) (h : (BitVec.ofNat 12 r.offset).toNat % 4 = 0) : Packet (writeAccess r v) :=
  ⟨rfl, h⟩

theorem indexed (base : Nat) (k : Fin 8) (h : base % 4 = 0) : (BitVec.ofNat 12 (base + 4 * k.val)).toNat % 4 = 0 := by
  rw [BitVec.toNat_ofNat]
  omega

theorem nop : Statement .nop := fun _ => command _ _
theorem softReset : Statement .softReset := fun _ => command _ _
theorem tblClear : Statement .tblClear := fun _ => command _ _
theorem ctxClear : Statement .ctxClear := fun _ => command _ _
theorem refresh : Statement .refresh := fun _ => command _ _
theorem abort : Statement .abort := fun _ => command _ _
theorem predict : Statement .predict := fun _ => command _ _
theorem learn (sym : Byte) : Statement (.learn sym) := fun _ => command _ _
theorem encStart : Statement .encStart := fun _ => command _ _
theorem encSym (sym : Byte) : Statement (.encSym sym) := fun _ => command _ _
theorem encFlush : Statement .encFlush := fun _ => command _ _
theorem decStart : Statement .decStart := fun _ => command _ _
theorem decSym : Statement .decSym := fun _ => command _ _
theorem decEnd : Statement .decEnd := fun _ => command _ _
theorem rdId : Statement .rdId := fun _ => read _ rfl
theorem wrId (v : Word) : Statement (.wrId v) := fun _ => write _ v rfl
theorem rdVersion : Statement .rdVersion := fun _ => read _ rfl
theorem wrVersion (v : Word) : Statement (.wrVersion v) := fun _ => write _ v rfl
theorem rdParam : Statement .rdParam := fun _ => read _ rfl
theorem wrParam (v : Word) : Statement (.wrParam v) := fun _ => write _ v rfl
theorem rdCmd : Statement .rdCmd := fun _ => read _ rfl
theorem wrCmd (v : Word) : Statement (.wrCmd v) := fun _ => write _ v rfl
theorem rdStatus : Statement .rdStatus := fun _ => read _ rfl
theorem wrStatus (v : Word) : Statement (.wrStatus v) := fun _ => write _ v rfl
theorem rdErr : Statement .rdErr := fun _ => read _ rfl
theorem wrErr (v : Word) : Statement (.wrErr v) := fun _ => write _ v rfl
theorem rdIntStatus : Statement .rdIntStatus := fun _ => read _ rfl
theorem wrIntStatus (v : Word) : Statement (.wrIntStatus v) := fun _ => write _ v rfl
theorem rdIntEnable : Statement .rdIntEnable := fun _ => read _ rfl
theorem wrIntEnable (v : Word) : Statement (.wrIntEnable v) := fun _ => write _ v rfl
theorem rdDin : Statement .rdDin := fun _ => read _ rfl
theorem wrDin (v : Word) : Statement (.wrDin v) := fun _ => write _ v rfl
theorem rdEoi : Statement .rdEoi := fun _ => read _ rfl
theorem wrEoi (v : Word) : Statement (.wrEoi v) := fun _ => write _ v rfl
theorem rdDout : Statement .rdDout := fun _ => read _ rfl
theorem wrDout (v : Word) : Statement (.wrDout v) := fun _ => write _ v rfl
theorem rdResult : Statement .rdResult := fun _ => read _ rfl
theorem wrResult (v : Word) : Statement (.wrResult v) := fun _ => write _ v rfl
theorem rdTotal : Statement .rdTotal := fun _ => read _ rfl
theorem wrTotal (v : Word) : Statement (.wrTotal v) := fun _ => write _ v rfl
theorem rdSymcnt : Statement .rdSymcnt := fun _ => read _ rfl
theorem wrSymcnt (v : Word) : Statement (.wrSymcnt v) := fun _ => write _ v rfl
theorem rdStreamSyms : Statement .rdStreamSyms := fun _ => read _ rfl
theorem wrStreamSyms (v : Word) : Statement (.wrStreamSyms v) := fun _ => write _ v rfl
theorem rdBitcnt : Statement .rdBitcnt := fun _ => read _ rfl
theorem wrBitcnt (v : Word) : Statement (.wrBitcnt v) := fun _ => write _ v rfl
theorem rdLow : Statement .rdLow := fun _ => read _ rfl
theorem wrLow (v : Word) : Statement (.wrLow v) := fun _ => write _ v rfl
theorem rdHigh : Statement .rdHigh := fun _ => read _ rfl
theorem wrHigh (v : Word) : Statement (.wrHigh v) := fun _ => write _ v rfl
theorem rdCode : Statement .rdCode := fun _ => read _ rfl
theorem wrCode (v : Word) : Statement (.wrCode v) := fun _ => write _ v rfl
theorem rdPending : Statement .rdPending := fun _ => read _ rfl
theorem wrPending (v : Word) : Statement (.wrPending v) := fun _ => write _ v rfl
theorem rdHistValid : Statement .rdHistValid := fun _ => read _ rfl
theorem wrHistValid (v : Word) : Statement (.wrHistValid v) := fun _ => write _ v rfl
theorem rdPhantom : Statement .rdPhantom := fun _ => read _ rfl
theorem wrPhantom (v : Word) : Statement (.wrPhantom v) := fun _ => write _ v rfl
theorem rdCfgNord : Statement .rdCfgNord := fun _ => read _ rfl
theorem wrCfgNord (v : Word) : Statement (.wrCfgNord v) := fun _ => write _ v rfl
theorem rdCfgCeil : Statement .rdCfgCeil := fun _ => read _ rfl
theorem wrCfgCeil (v : Word) : Statement (.wrCfgCeil v) := fun _ => write _ v rfl
theorem rdCfgRint : Statement .rdCfgRint := fun _ => read _ rfl
theorem wrCfgRint (v : Word) : Statement (.wrCfgRint v) := fun _ => write _ v rfl
theorem rdScoreIdx : Statement .rdScoreIdx := fun _ => read _ rfl
theorem wrScoreIdx (v : Word) : Statement (.wrScoreIdx v) := fun _ => write _ v rfl
theorem rdScoreData : Statement .rdScoreData := fun _ => read _ rfl
theorem wrScoreData (v : Word) : Statement (.wrScoreData v) := fun _ => write _ v rfl
theorem rdDiagSel : Statement .rdDiagSel := fun _ => read _ rfl
theorem wrDiagSel (v : Word) : Statement (.wrDiagSel v) := fun _ => write _ v rfl
theorem rdDiagData : Statement .rdDiagData := fun _ => read _ rfl
theorem wrDiagData (v : Word) : Statement (.wrDiagData v) := fun _ => write _ v rfl
theorem rdDiagTotal : Statement .rdDiagTotal := fun _ => read _ rfl
theorem wrDiagTotal (v : Word) : Statement (.wrDiagTotal v) := fun _ => write _ v rfl
theorem rdOrder (k : Fin 8) : Statement (.rdOrder k) := fun _ => read _ (indexed 0x0A0 k rfl)
theorem wrOrder (k : Fin 8) (v : Word) : Statement (.wrOrder k v) := fun _ => write _ v (indexed 0x0A0 k rfl)
theorem rdWeight (k : Fin 8) : Statement (.rdWeight k) := fun _ => read _ (indexed 0x0C0 k rfl)
theorem wrWeight (k : Fin 8) (v : Word) : Statement (.wrWeight k v) := fun _ => write _ v (indexed 0x0C0 k rfl)
theorem rdHist (j : Fin 8) : Statement (.rdHist j) := fun _ => read _ (indexed 0x140 j rfl)
theorem wrHist (j : Fin 8) (v : Word) : Statement (.wrHist j v) := fun _ => write _ v (indexed 0x140 j rfl)
theorem rdIdx (k : Fin 8) : Statement (.rdIdx k) := fun _ => read _ (indexed 0x160 k rfl)
theorem wrIdx (k : Fin 8) (v : Word) : Statement (.wrIdx k v) := fun _ => write _ v (indexed 0x160 k rfl)
theorem unmapped (off : BitVec 12) (kind : AccessKind) : Statement (.unmapped off kind) := by
  intro h
  simp only [WellFormed, Bool.and_eq_true, beq_iff_eq] at h
  exact ⟨rfl, h.1⟩

end Sys2Proof.Laws.Admitted
end

