-- ==== Sys2Proof/Laws/Step.lean ====
section
/-! SUPPORT. Laws of the step: the ways a step reaches a next state, what decodes to what, and what each host access can
do, each said once so that a claim about every step is a case analysis over these. -/

namespace Sys2Proof.Machine

/-! ## What decodes to what -/

/-- The words of the fourteen commands (30_encoding.md R83). -/
theorem decodeCmd_cases {w : Word} {i : Instr} (h : decodeCmd w = .ok i) :
    i = .nop ∨ i = .softReset ∨ i = .tblClear ∨ i = .ctxClear ∨ i = .refresh ∨ i = .abort ∨ i = .predict ∨
      (∃ x, i = .learn x) ∨ i = .encStart ∨ (∃ x, i = .encSym x) ∨ i = .encFlush ∨ i = .decStart ∨ i = .decSym ∨
      i = .decEnd := by
  unfold decodeCmd cmdForm at h
  split at h
  · cases h
  · rename_i form hform
    split at hform <;> first
      | (cases hform; split at h; · cases h
         simp only at h; split at h <;> cases h; simp)
      | (cases hform; split at h; · cases h
         cases h; simp)
      | cases hform

/-- An admitted access is a read or a write of a register at its offset, or an access to an unmapped offset (R90). -/
theorem decodeAccess_cases {a : Access} {i : Instr} (h : decodeAccess a = .ok i) :
    a.bytes = 4 ∧ a.off.toNat % 4 = 0 ∧
      ((∃ r, regAt a.off = some r ∧ a.kind = .read ∧ i = readOf r) ∨
        (∃ r v, regAt a.off = some r ∧ a.kind = .write v ∧ i = writeOf v r) ∨
        (regAt a.off = none ∧ i = .unmapped a.off a.kind)) := by
  unfold decodeAccess at h
  split at h
  · cases h
  · split at h
    · cases h
    · refine ⟨by omega, by omega, ?_⟩
      split at h <;> cases h
      · exact .inl ⟨_, by assumption, by assumption, rfl⟩
      · exact .inr (.inl ⟨_, _, by assumption, by assumption, rfl⟩)
      · exact .inr (.inr ⟨by assumption, rfl⟩)

/-- The register found at an offset lies there. -/
theorem regAt_offset {off : BitVec 12} {r : Reg} (h : regAt off = some r) : r.offset = off.toNat := by
  simpa using List.find?_some h

/-! ## The ways to a next state (43_control.md R176, 20_memory.md R69) -/

theorem step_cases {s t : State} (h : step s = .next t) :
    (∃ w i, s.pend = some w ∧ decodeCmd w = .ok i ∧ s.resetPin = false ∧ exec i s = .next t) ∨
    (∃ ev rest a i, s.hostq = ev :: rest ∧ ev.act = .access a ∧ decodeAccess a = .ok i ∧ s.resetPin = false ∧
      exec i { s with hostq := rest } = .next t) ∨
    (∃ ev rest, s.hostq = ev :: rest ∧ ev.act = .assertReset ∧
      t = { resetBlock { s with hostq := rest } with resetPin := true }) ∨
    (∃ ev rest, s.hostq = ev :: rest ∧ ev.act = .releaseReset ∧ t = { s with hostq := rest, resetPin := false }) ∨
    t = s := by
  unfold step fetch at h
  split at h
  · rename_i i u hf
    split at hf
    · rename_i hb
      have hpin : s.resetPin = false := by
        unfold blockTurn at hb
        cases hp : s.resetPin <;> simp [hp] at hb ⊢
      split at hf
      · rename_i w hw
        unfold fetchBlock at hf
        split at hf <;> cases hf
        exact .inl ⟨w, i, hw, by assumption, hpin, h⟩
      · cases hf
    · split at hf
      · rename_i ev rest hq
        unfold fetchHost at hf
        split at hf
        · rename_i a ha
          split at hf
          · cases hf
          · rename_i hpin
            split at hf <;> cases hf
            exact .inr (.inl ⟨ev, rest, a, i, hq, ha, by assumption, by simpa using hpin, h⟩)
        · cases hf
        · cases hf
      · cases hf
  · rename_i u hf
    cases h
    split at hf
    · split at hf
      · unfold fetchBlock at hf
        split at hf <;> cases hf
      · cases hf
        exact .inr (.inr (.inr (.inr rfl)))
    · split at hf
      · rename_i ev rest hq
        unfold fetchHost at hf
        split at hf
        · split at hf
          · cases hf
          · split at hf <;> cases hf
        · cases hf
          exact .inr (.inr (.inl ⟨ev, rest, hq, by assumption, rfl⟩))
        · cases hf
          exact .inr (.inr (.inr (.inl ⟨ev, rest, hq, by assumption, rfl⟩)))
      · cases hf
        exact .inr (.inr (.inr (.inr rfl)))
  · cases h
  · cases h

/-! ## What a host access can do (44_host_access.md) -/

/-- A read returns one value; it draws at most one free value; a DOUT read pops OUTQ (20_memory.md R65). -/
theorem read_cases {r : Reg} {s t : State} (h : exec (readOf r) s = .next t) :
    (∃ v, t = hostRead v s) ∨ (∃ v, t = hostRead v { s with draws := s.draws + 1 }) ∨
      (r = .dout ∧ ∃ b rest v, s.outq = b :: rest ∧ t = hostRead v
        { s with outq := rest, done := s.done || (s.pend.isNone && rest.length == s.params.outDepth) }) := by
  have key : ∀ r', readReg r' s = t → (∃ v, t = hostRead v s) ∨ (∃ v, t = hostRead v { s with draws := s.draws + 1 }) := by
    intro r' hr
    unfold readReg at hr
    split at hr <;> subst hr
    · exact .inr ⟨_, rfl⟩
    · exact .inl ⟨_, rfl⟩
  cases r with
  | dout =>
    have ht : doutRead s = t := Host.Outcome.next.inj h
    unfold doutRead at ht
    split at ht <;> subst ht
    · exact .inl ⟨_, rfl⟩
    · exact .inr (.inr ⟨rfl, _, _, _, by assumption, rfl⟩)
  | _ =>
    rcases key _ (Host.Outcome.next.inj h) with hv | hv
    · exact .inl hv
    · exact .inr (.inl hv)

/-! ## The reads a pending command leaves open (70_reset_and_hazards.md R255) -/

/-- Each listed read is a read of a register that the command may write, with that register's width. -/
theorem openReads_cases {tb : Nat} {k : Fin 8} {i : Instr} {row : Instr × Nat} (h : row ∈ openReads tb k i) :
    ∃ r, row = (readOf r, regWidth tb r) ∧ mayWrite i r = true ∧ ∀ s, exec row.1 s = .next (readReg r s) := by
  have key : ∀ r, mayWrite i r = true → (∀ s, exec (readOf r) s = .next (readReg r s)) →
      row = (readOf r, regWidth tb r) →
      ∃ r, row = (readOf r, regWidth tb r) ∧ mayWrite i r = true ∧ ∀ s, exec row.1 s = .next (readReg r s) :=
    fun r h1 h2 h3 => ⟨r, h3, h1, h3 ▸ h2⟩
  cases i <;> simp only [openReads, tailReads, tableReads, historyReads, scoreReads, List.cons_append, List.nil_append,
    List.mem_cons, List.not_mem_nil, or_false] at h <;>
  (repeat' rcases h with h | h) <;>
  first
  | exact key .diagData rfl (fun _ => rfl) rfl
  | exact key .diagTotal rfl (fun _ => rfl) rfl
  | exact key .histValid rfl (fun _ => rfl) rfl
  | exact key .symcnt rfl (fun _ => rfl) rfl
  | exact key .total rfl (fun _ => rfl) rfl
  | exact key .scoreData rfl (fun _ => rfl) rfl
  | exact key .result rfl (fun _ => rfl) rfl
  | exact key .streamSyms rfl (fun _ => rfl) rfl
  | exact key .bitcnt rfl (fun _ => rfl) rfl
  | exact key .low rfl (fun _ => rfl) rfl
  | exact key .high rfl (fun _ => rfl) rfl
  | exact key .code rfl (fun _ => rfl) rfl
  | exact key .pending rfl (fun _ => rfl) rfl
  | exact key .phantom rfl (fun _ => rfl) rfl
  | exact key (.hist k) rfl (fun _ => rfl) rfl
  | exact key (.idx k) rfl (fun _ => rfl) rfl
/-- Every read of a register that the command may write is listed, the history word or index read being the `k`-th. -/
theorem mem_openReads {tb : Nat} {k : Fin 8} {i : Instr} {r : Reg} (hm : mayWrite i r = true)
    (hk : ∀ j, r = .hist j ∨ r = .idx j → j = k) : (readOf r, regWidth tb r) ∈ openReads tb k i := by
  cases i <;> first
  | exact absurd hm Bool.false_ne_true
  | cases r <;> first
    | exact absurd hm Bool.false_ne_true
    | (cases hk _ (.inl rfl); simp [openReads, tailReads, historyReads, readOf, regWidth])
    | (cases hk _ (.inr rfl); simp [openReads, tailReads, historyReads, readOf, regWidth])
    | simp [openReads, tailReads, tableReads, historyReads, scoreReads, readOf, regWidth]

/-- A read that the pending command's list does not name is not open. -/
theorem readOpen_eq_false {s : State} {k : Fin 8} {r : Reg} (hk : ∀ j, r = .hist j ∨ r = .idx j → j = k)
    (h : ∀ i, pendCmd s = some i → ∀ rd ∈ openReads s.params.tableBits k i, rd.1 ≠ readOf r) : readOpen s r = false := by
  unfold readOpen
  split
  · rename_i i hi
    exact Bool.not_eq_true _ ▸ fun hm => h i hi _ (mem_openReads hm hk) rfl
  · rfl

/-- A configuration write is rejected, or its register takes a legal value in IDLE with BUSY = 0 (R205). -/
inductive ConfigWritten (s : State) : State → Prop where
  | nord (v : Word) (h : legalNord v = true) : ConfigWritten s { s with nord := v.setWidth 4 }
  | ceil (v : Word) (h : legalCeil v = true) : ConfigWritten s { s with ceil := v.setWidth 15 }
  | rint (v : Word) (h : legalRint v = true) : ConfigWritten s { s with rint := v.setWidth 16 }
  | order (k : Fin 8) (v : Word) (h : legalOrder v = true) :
    ConfigWritten s { s with order := s.order.set k (v.setWidth 6) }
  | weight (k : Fin 8) (v : Word) (h : legalWeight v = true) :
    ConfigWritten s { s with weight := s.weight.set k (v.setWidth 11) }

/-- What a write can do: nothing, a rejection, a command offered, a byte queued, a status or select register written, or
a configuration register written. -/
theorem write_cases {v : Word} {r : Reg} {s t : State} (h : exec (writeOf v r) s = .next t) :
    t = s ∨ (r = .cmd ∧ t = cmdWrite v s) ∨ (∃ e, t = reject e s) ∨
      (r = .din ∧ s.inq.length < s.params.inDepth ∧ ∃ b, t = { s with inq := s.inq ++ [b] }) ∨
      (∃ e, t = { s with err := e }) ∨
      (∃ d e, t = { s with done := s.done && d, error := s.error && e }) ∨ (∃ e, t = { s with intEnable := e }) ∨
      t = { s with eoi := true } ∨ (∃ x, t = { s with scoreIdx := x }) ∨
      t = { s with diagSel := diagStored s.params.tableBits v } ∨
      (s.mode = .idle ∧ busy s = false ∧ ConfigWritten s t) := by
  have cfg : ∀ legal u, cfgWrite legal u s = t → (∃ e, t = reject e s) ∨
      (s.mode = .idle ∧ busy s = false ∧ legal = true ∧ t = u) := by
    intro legal u hu
    unfold cfgWrite at hu
    split at hu <;> subst hu
    · exact .inl ⟨_, rfl⟩
    · rename_i hc
      simp only [not_or, not_not, Bool.not_eq_true, Bool.not_eq_false] at hc
      exact .inr ⟨hc.1, hc.2.1, hc.2.2, rfl⟩
  cases r with
  | cmd => exact .inr (.inl ⟨rfl, (Host.Outcome.next.inj h).symm⟩)
  | err => exact .inr (.inr (.inr (.inr (.inl ⟨_, (Host.Outcome.next.inj h).symm⟩))))
  | intStatus => exact .inr (.inr (.inr (.inr (.inr (.inl ⟨_, _, (Host.Outcome.next.inj h).symm⟩)))))
  | intEnable => exact .inr (.inr (.inr (.inr (.inr (.inr (.inl ⟨_, (Host.Outcome.next.inj h).symm⟩))))))
  | eoi => exact .inr (.inr (.inr (.inr (.inr (.inr (.inr (.inl (Host.Outcome.next.inj h).symm)))))))
  | scoreIdx => exact .inr (.inr (.inr (.inr (.inr (.inr (.inr (.inr (.inl ⟨_, (Host.Outcome.next.inj h).symm⟩))))))))
  | diagSel => exact .inr (.inr (.inr (.inr (.inr (.inr (.inr (.inr (.inr (.inl (Host.Outcome.next.inj h).symm)))))))))
  | din =>
    have ht : dinWrite v s = t := Host.Outcome.next.inj h
    unfold dinWrite at ht
    split at ht
    · exact .inr (.inr (.inl ⟨_, ht.symm⟩))
    · split at ht
      · exact .inr (.inr (.inl ⟨_, ht.symm⟩))
      · exact .inr (.inr (.inr (.inl ⟨rfl, by omega, _, ht.symm⟩)))
  | cfgNord =>
    rcases cfg _ _ (Host.Outcome.next.inj h) with he | ⟨h1, h2, h3, rfl⟩
    · exact .inr (.inr (.inl he))
    · exact .inr (.inr (.inr (.inr (.inr (.inr (.inr (.inr (.inr (.inr ⟨h1, h2, .nord v h3⟩)))))))))
  | cfgCeil =>
    rcases cfg _ _ (Host.Outcome.next.inj h) with he | ⟨h1, h2, h3, rfl⟩
    · exact .inr (.inr (.inl he))
    · exact .inr (.inr (.inr (.inr (.inr (.inr (.inr (.inr (.inr (.inr ⟨h1, h2, .ceil v h3⟩)))))))))
  | cfgRint =>
    rcases cfg _ _ (Host.Outcome.next.inj h) with he | ⟨h1, h2, h3, rfl⟩
    · exact .inr (.inr (.inl he))
    · exact .inr (.inr (.inr (.inr (.inr (.inr (.inr (.inr (.inr (.inr ⟨h1, h2, .rint v h3⟩)))))))))
  | order k =>
    rcases cfg _ _ (Host.Outcome.next.inj h) with he | ⟨h1, h2, h3, rfl⟩
    · exact .inr (.inr (.inl he))
    · exact .inr (.inr (.inr (.inr (.inr (.inr (.inr (.inr (.inr (.inr ⟨h1, h2, .order k v h3⟩)))))))))
  | weight k =>
    rcases cfg _ _ (Host.Outcome.next.inj h) with he | ⟨h1, h2, h3, rfl⟩
    · exact .inr (.inr (.inl he))
    · exact .inr (.inr (.inr (.inr (.inr (.inr (.inr (.inr (.inr (.inr ⟨h1, h2, .weight k v h3⟩)))))))))
  | _ => exact .inl (Host.Outcome.next.inj h).symm

/-- An access to an unmapped offset reads 0 or does nothing (20_memory.md R66). -/
theorem unmapped_cases {off : BitVec 12} {k : AccessKind} {s t : State} (h : exec (.unmapped off k) s = .next t) :
    t = s ∨ t = hostRead 0 s := by
  cases k with
  | read => exact .inr (Host.Outcome.next.inj h).symm
  | write v => exact .inl (Host.Outcome.next.inj h).symm

/-- What a CMD write can do (43_control.md R170): reset the block, be rejected, or be accepted while BUSY = 0 as a
legal command, other than SOFT_RESET, that MODE allows. -/
theorem cmdWrite_cases (w : Word) (s : State) :
    (w = 0x01000000#32 ∧ cmdWrite w s = resetBlock s) ∨ (w ≠ 0x01000000#32 ∧ ∃ e, cmdWrite w s = reject e s) ∨
      (∃ i, w ≠ 0x01000000#32 ∧ busy s = false ∧ decodeCmd w = .ok i ∧ modeAllows i s.mode = true ∧
        cmdWrite w s = { s with pend := some w }) := by
  unfold cmdWrite
  split
  · next h => exact .inl ⟨h, rfl⟩
  · next hw =>
    split
    · exact .inr (.inl ⟨hw, _, rfl⟩)
    · next hb =>
      split
      · exact .inr (.inl ⟨hw, _, rfl⟩)
      · next i hi =>
        split
        · next hm => exact .inr (.inr ⟨i, hw, by simpa using hb, hi, hm, rfl⟩)
        · exact .inr (.inl ⟨hw, _, rfl⟩)

/-- What every host access keeps: a property of states that survives each thing an access can do. -/
theorem access_keeps (P : State → Prop) {a : Access} {i : Instr} {s t : State} (hd : decodeAccess a = .ok i)
    (h : exec i s = .next t) (here : P s) (read : ∀ u v, P u → P (hostRead v u))
    (draw : P { s with draws := s.draws + 1 })
    (pop : ∀ b rest, s.outq = b :: rest → P
      { s with outq := rest, done := s.done || (s.pend.isNone && rest.length == s.params.outDepth) })
    (rejected : ∀ e, P (reject e s)) (reset : P (resetBlock s))
    (accepted : ∀ w i, w ≠ 0x01000000#32 → busy s = false → decodeCmd w = .ok i → modeAllows i s.mode = true →
      P { s with pend := some w })
    (queued : ∀ b, s.inq.length < s.params.inDepth → P { s with inq := s.inq ++ [b] })
    (errors : ∀ e, P { s with err := e }) (status : ∀ d e, P { s with done := s.done && d, error := s.error && e })
    (enable : ∀ e, P { s with intEnable := e }) (ended : P { s with eoi := true })
    (score : ∀ x, P { s with scoreIdx := x })
    (diag : ∀ v, P { s with diagSel := diagStored s.params.tableBits v })
    (config : ∀ u, s.mode = .idle → busy s = false → ConfigWritten s u → P u) : P t := by
  obtain ⟨_, _, ⟨r, _, _, rfl⟩ | ⟨r, v, _, _, rfl⟩ | ⟨_, rfl⟩⟩ := decodeAccess_cases hd
  · rcases read_cases h with ⟨v, rfl⟩ | ⟨v, rfl⟩ | ⟨_, b, rest, v, ho, rfl⟩
    · exact read _ _ here
    · exact read _ _ draw
    · exact read _ _ (pop _ _ ho)
  · rcases write_cases h with rfl | ⟨_, rfl⟩ | ⟨e, rfl⟩ | ⟨_, hlen, b, rfl⟩ | ⟨e, rfl⟩ | ⟨d, e, rfl⟩ | ⟨e, rfl⟩ | rfl |
      ⟨x, rfl⟩ | rfl | ⟨hm, hb, hc⟩
    · exact here
    · rcases cmdWrite_cases v s with ⟨_, he⟩ | ⟨_, e, he⟩ | ⟨i, hne, hb, hi, hm, he⟩ <;> rw [he]
      · exact reset
      · exact rejected e
      · exact accepted v i hne hb hi hm
    · exact rejected e
    · exact queued b hlen
    · exact errors e
    · exact status d e
    · exact enable e
    · exact ended
    · exact score x
    · exact diag v
    · exact config _ hm hb hc
  · rcases unmapped_cases h with rfl | rfl
    · exact here
    · exact read _ _ here

/-! ## What a command can do -/

/-- The state a command leaves before its completion, one constructor for each way it can end (40_predictor.md R111 to
R115, 41_encoder.md R136 to R138, 42_decoder.md R158 to R160, 43_control.md R172 and R174). -/
inductive CommandRan (s : State) : Instr → State → Prop where
  | nop : CommandRan s .nop s
  | tblClear : CommandRan s .tblClear { s with mem := [] }
  | ctxClear : CommandRan s .ctxClear { s with hist := Vector.replicate 32 0, histValid := 0 }
  | refresh : CommandRan s .refresh (refresh s)
  | abort : CommandRan s .abort { leaveStream s with obuf := 0, ocnt := 0 }
  | predict : CommandRan s .predict (predict s)
  | learn (x : Byte) : CommandRan s (.learn x) (tail s x)
  | encStart : CommandRan s .encStart { s with
      low := 0, high := Config.top, pending := 0, obuf := 0, ocnt := 0, bitcnt := 0, streamSyms := 0, mode := .enc }
  | encInvalid (x : Byte) (h : (predict s).total = 0) :
    CommandRan s (.encSym x) (raiseFault .invalidDist (predict s))
  | encOverflow (x : Byte) (u : State) (h : (predict s).total ≠ 0)
      (hu : renormEnc Config.renormPasses (encNarrowed (predict s) x) = (u, true)) :
    CommandRan s (.encSym x) (raiseFault .pendingOvf u)
  | encSym (x : Byte) (u : State) (h : (predict s).total ≠ 0)
      (hu : renormEnc Config.renormPasses (encNarrowed (predict s) x) = (u, false)) :
    CommandRan s (.encSym x) { tail u x with streamSyms := (tail u x).streamSyms + 1 }
  | encFlush : CommandRan s .encFlush { padByte (flushBits s) with mode := .idle }
  | decStartTruncated (h : decStartCheck s = .truncated) :
    CommandRan s .decStart (raiseFault .truncated (clearReader s))
  | decStart (h : decStartCheck s = .enough) : CommandRan s .decStart (decLoad s)
  | decInvalid (h : decPlan (predict s) = .invalidDist) :
    CommandRan s .decSym (raiseFault .invalidDist (predict s))
  | decTruncated (h : decPlan (predict s) = .truncated) :
    CommandRan s .decSym (raiseFault .truncated (predict s))
  | decSym (x : Byte) (lo hi : Word) (h : decPlan (predict s) = .run x lo hi) :
    CommandRan s .decSym (decRun (predict s) x lo hi)
  | decEnd : CommandRan s .decEnd (leaveStream s)

/-- The next state of a command: it ran and completed, it is held and nothing changed (42_decoder.md R152), or it is a
SOFT_RESET, which never stands in PEND. -/
theorem command_cases {w : Word} {i : Instr} {s t : State} (hp : s.pend = some w) (hd : decodeCmd w = .ok i)
    (h : exec i s = .next t) :
    (∃ u, CommandRan s i u ∧ t = complete u) ∨ ((i = .decStart ∨ i = .decSym) ∧ holdIn s = true ∧ t = s) ∨
      (i = .softReset ∧ t = resetBlock s) := by
  rcases decodeCmd_cases hd with h' | h' | h' | h' | h' | h' | h' | ⟨x, h'⟩ | h' | ⟨x, h'⟩ | h' | h' | h' | h' <;> subst h'
  · exact .inl ⟨_, .nop, (Host.Outcome.next.inj h).symm⟩
  · exact .inr (.inr ⟨rfl, (Host.Outcome.next.inj h).symm⟩)
  · exact .inl ⟨_, .tblClear, (Host.Outcome.next.inj h).symm⟩
  · exact .inl ⟨_, .ctxClear, (Host.Outcome.next.inj h).symm⟩
  · exact .inl ⟨_, .refresh, (Host.Outcome.next.inj h).symm⟩
  · exact .inl ⟨_, .abort, (Host.Outcome.next.inj h).symm⟩
  · exact .inl ⟨_, .predict, (Host.Outcome.next.inj h).symm⟩
  · exact .inl ⟨_, .learn x, (Host.Outcome.next.inj h).symm⟩
  · exact .inl ⟨_, .encStart, (Host.Outcome.next.inj h).symm⟩
  · have h1 : execEncSym x s = .next t := h
    unfold execEncSym at h1
    by_cases h0 : (predict s).total = 0
    · simp only [if_pos h0] at h1
      exact .inl ⟨_, .encInvalid x h0, (Host.Outcome.next.inj h1).symm⟩
    · simp only [if_neg h0] at h1
      rcases hu : renormEnc Config.renormPasses (encNarrowed (predict s) x) with ⟨u, ovf⟩
      rw [hu] at h1
      cases ovf
      · exact .inl ⟨_, .encSym x u h0 hu, (Host.Outcome.next.inj h1).symm⟩
      · exact .inl ⟨_, .encOverflow x u h0 hu, (Host.Outcome.next.inj h1).symm⟩
  · exact .inl ⟨_, .encFlush, (Host.Outcome.next.inj h).symm⟩
  · have h1 : execDecStart s = .next t := h
    unfold execDecStart at h1
    cases hc : decStartCheck s <;> simp only [hc] at h1
    · exact .inl ⟨_, .decStart hc, (Host.Outcome.next.inj h1).symm⟩
    · refine .inr (.inl ⟨.inl rfl, ?_, (Host.Outcome.next.inj h1).symm⟩)
      simp [holdIn, pendCmd, hp, hd, Except.toOption, hc]
    · exact .inl ⟨_, .decStartTruncated hc, (Host.Outcome.next.inj h1).symm⟩
  · have h1 : execDecSym s = .next t := h
    unfold execDecSym at h1
    cases hc : decPlan (predict s) <;> simp only [hc] at h1
    · exact .inl ⟨_, .decInvalid hc, (Host.Outcome.next.inj h1).symm⟩
    · refine .inr (.inl ⟨.inr rfl, ?_, (Host.Outcome.next.inj h1).symm⟩)
      simp [holdIn, pendCmd, hp, hd, Except.toOption, hc]
    · exact .inl ⟨_, .decTruncated hc, (Host.Outcome.next.inj h1).symm⟩
    · exact .inl ⟨_, .decSym _ _ _ hc, (Host.Outcome.next.inj h1).symm⟩
  · exact .inl ⟨_, .decEnd, (Host.Outcome.next.inj h).symm⟩

end Sys2Proof.Machine
end

