-- ==== Sys2Proof/Tests/Slice0.lean ====
section
/-! SUPPORT. The model's own tests: ill-formed operations refused, words and accesses written out from the encoding
tables decoded, the worked examples of the spec one step at a time, and for every statement with hypotheses a witness
that meets them. Expected values come from the rule or the vector named in each docstring. -/

open Sys2Proof Sys2Proof.Machine

namespace Sys2Proof.Tests

set_option maxRecDepth 100000
set_option Elab.async false

/-! ## Helpers -/

/-- A field of the next state, after one step. -/
def after {α : Type} (s : State) (f : State → α) : Option α :=
  match step s with
  | .next t => some (f t)
  | .fault _ => none
  | .refused _ => none

/-- The state with a command word in PEND. -/
def withCmd (w : Word) (s : State) : State := { s with pend := some w }

/-- The state with a host access next. -/
def withAccess (off : BitVec 12) (kind : AccessKind) (s : State) : State :=
  { s with hostq := [{ early := true, act := .access { kind := kind, off := off, bytes := 4 } }] }

/-- The value of a read at an offset. -/
def readAt (off : BitVec 12) (s : State) : Option Word := (after (withAccess off .read s) (fun t => t.reads.head?)).join

/-- The mode-changing part of the encoder's and the decoder's open streams. -/
def encoding : State := { State.reset with mode := .enc }

/-- A decode stream at the start of the coded bytes 61 61 40 (42_decoder.md R158, example 1). -/
def decoding : State :=
  { State.reset with mode := .dec, code := 0x61614000#32, eoi := true, phantom := 8, bitcnt := 32 }

/-- An entry that has learned 'a' once (40_predictor.md R112, example). -/
def learnedEntry : Entry := touch 1024 0x61 Entry.initial

/-- The tables after LEARN 'a' from reset: entry 0 of the seven active slots (40_predictor.md R112, example). -/
def learnedTables : Memory := [0, 1, 2, 3, 4, 5, 6].map (fun k => (entryKey k 0, learnedEntry))

/-- The state after LEARN 'a' from reset (40_predictor.md R112, example). -/
def learned : State :=
  { State.reset with mem := learnedTables, hist := State.reset.hist.set 0 0x61, histValid := 1, symcnt := 1 }

/-- The state after LEARN 'a', REFRESH and CTX_CLEAR, with an encode stream open (41_encoder.md R137, example 2). -/
def refreshedEncoding : State := { encoding with mem := learnedTables.mapEntries requant }

/-- A state whose active weights are all 0 (60_exceptions.md R221). -/
def noWeight (s : State) : State := { s with weight := Vector.replicate 8 0 }

/-! ## Well-formedness: the one check, refused -/

theorem test_misaligned_unmapped_is_ill_formed : WellFormed (.unmapped 0xFFD .read) = false := by decide

theorem test_mapped_unmapped_is_ill_formed :
    [0x000#12, 0x054, 0x080, 0x088, 0x0A0, 0x0BC, 0x0C0, 0x0DC, 0x100, 0x104, 0x110, 0x118, 0x140, 0x15C, 0x160,
      0x17C].all (fun off => !WellFormed (.unmapped off (.write 0))) = true := by decide

theorem test_unmapped_is_well_formed :
    [0x058#12, 0x07C, 0x08C, 0x09C, 0x0E0, 0x0FC, 0x108, 0x10C, 0x11C, 0x13C, 0x180, 0xFFC].all
      (fun off => WellFormed (.unmapped off .read)) = true := by decide

/-! ## Decoding: words written out from 30_encoding.md R83 and 10_state.md section 2 -/

theorem test_command_words :
    [(0b00000000000000000000000000000000#32, Instr.nop), (0b00000001000000000000000000000000#32, .softReset),
      (0b00000010000000000000000000000000#32, .tblClear), (0b00000011000000000000000000000000#32, .ctxClear),
      (0b00000100000000000000000000000000#32, .refresh), (0b00000101000000000000000000000000#32, .abort),
      (0b00000110000000000000000000000000#32, .predict), (0b00000111000000000000000001100001#32, .learn 0x61),
      (0b00010000000000000000000000000000#32, .encStart), (0b00010001000000000000000011111110#32, .encSym 0xFE),
      (0b00010010000000000000000000000000#32, .encFlush), (0b00100000000000000000000000000000#32, .decStart),
      (0b00100001000000000000000000000000#32, .decSym), (0b00100010000000000000000000000000#32, .decEnd)].all
      (fun p => (decodeCmd p.1).toOption == some p.2) = true := by decide

/-- 30_encoding.md R84, R85: undefined opcodes, reserved bits, and SYM where none is taken. -/
theorem test_illegal_words :
    (decodeCmd 0x08000000#32).toOption = none ∧ decodeCmd 0x13000000#32 = .error .undefinedOpcode ∧
      decodeCmd 0x23000000#32 = .error .undefinedOpcode ∧ decodeCmd 0xFF000000#32 = .error .undefinedOpcode ∧
      decodeCmd 0x00000100#32 = .error .reservedNonzero ∧ decodeCmd 0x07800061#32 = .error .reservedNonzero ∧
      decodeCmd 0x01000001#32 = .error .symNonzero ∧ decodeCmd 0x21000080#32 = .error .symNonzero := by decide

/-- A read and a write at an offset decode to these two operations. -/
def decodesTo (off : BitVec 12) (rd : Instr) (wr : Word → Instr) : Bool :=
  (decodeAccess { kind := .read, off := off, bytes := 4 }).toOption == some rd &&
    (decodeAccess { kind := .write 0x8000F123#32, off := off, bytes := 4 }).toOption == some (wr 0x8000F123#32)

theorem test_access_offsets_low :
    decodesTo 0x000 .rdId .wrId && decodesTo 0x004 .rdVersion .wrVersion && decodesTo 0x008 .rdParam .wrParam &&
      decodesTo 0x00C .rdCmd .wrCmd && decodesTo 0x010 .rdStatus .wrStatus && decodesTo 0x014 .rdErr .wrErr &&
      decodesTo 0x018 .rdIntStatus .wrIntStatus && decodesTo 0x01C .rdIntEnable .wrIntEnable &&
      decodesTo 0x020 .rdDin .wrDin && decodesTo 0x024 .rdEoi .wrEoi && decodesTo 0x028 .rdDout .wrDout &&
      decodesTo 0x02C .rdResult .wrResult && decodesTo 0x030 .rdTotal .wrTotal &&
      decodesTo 0x034 .rdSymcnt .wrSymcnt && decodesTo 0x038 .rdStreamSyms .wrStreamSyms &&
      decodesTo 0x03C .rdBitcnt .wrBitcnt && decodesTo 0x040 .rdLow .wrLow && decodesTo 0x044 .rdHigh .wrHigh &&
      decodesTo 0x048 .rdCode .wrCode && decodesTo 0x04C .rdPending .wrPending &&
      decodesTo 0x050 .rdHistValid .wrHistValid && decodesTo 0x054 .rdPhantom .wrPhantom = true := by decide

theorem test_access_offsets_high :
    decodesTo 0x080 .rdCfgNord .wrCfgNord && decodesTo 0x084 .rdCfgCeil .wrCfgCeil &&
      decodesTo 0x088 .rdCfgRint .wrCfgRint && decodesTo 0x0A0 (.rdOrder 0) (.wrOrder 0) &&
      decodesTo 0x0BC (.rdOrder 7) (.wrOrder 7) && decodesTo 0x0C4 (.rdWeight 1) (.wrWeight 1) &&
      decodesTo 0x0DC (.rdWeight 7) (.wrWeight 7) && decodesTo 0x100 .rdScoreIdx .wrScoreIdx &&
      decodesTo 0x104 .rdScoreData .wrScoreData && decodesTo 0x110 .rdDiagSel .wrDiagSel &&
      decodesTo 0x114 .rdDiagData .wrDiagData && decodesTo 0x118 .rdDiagTotal .wrDiagTotal &&
      decodesTo 0x148 (.rdHist 2) (.wrHist 2) && decodesTo 0x17C (.rdIdx 7) (.wrIdx 7) &&
      decodesTo 0x160 (.rdIdx 0) (.wrIdx 0) && decodesTo 0x058 (.unmapped 0x058 .read) (fun v => .unmapped 0x058 (.write v)) &&
      decodesTo 0xFFC (.unmapped 0xFFC .read) (fun v => .unmapped 0xFFC (.write v)) = true := by decide

/-- 20_memory.md R63: other widths and unaligned offsets are refused. -/
theorem test_inadmissible_accesses :
    decodeAccess { kind := .read, off := 0x028, bytes := 2 } = .error .badWidth ∧
      decodeAccess { kind := .read, off := 0x028, bytes := 8 } = .error .badWidth ∧
      decodeAccess { kind := .read, off := 0x02A, bytes := 4 } = .error .misaligned := by decide

/-- The opcode table's numbering of bits (assumption 12). -/
theorem test_table_words :
    decodeTableWord 32 0x11000061 = some (.encSym 0x61) ∧ decodeTableWord 16 0x028 = some .rdDout ∧
      decodeTableWord 16 0x1020 = some (.wrDin 0) ∧ decodeTableWord 48 0x7108C = some (.unmapped 0x08C (.write 7)) ∧
      decodeTableWord 48 0x710BC = some (.wrOrder 7 7) ∧ decodeTableWord 16 0x2028 = none := by decide

/-- `withFetchWord` runs the operation in the very next step. -/
theorem test_fetch_words :
    after (State.reset.withFetchWord 32 0x10000000) State.mode = some .enc ∧
      after (State.reset.withFetchWord 16 0x044) State.reads = some [0xFFFFFFFF#32] := by decide +kernel

/-! ## Control commands (43_control.md) -/

/-- R172, example. -/
theorem test_nop : after (withCmd 0x00000000#32 State.reset) (fun t => (t.done, t.error, t.pend, t.mode)) =
    some (true, false, none, .idle) := by decide +kernel

/-- R173: a held DEC_START is discarded, and the configuration returns to its reset values. -/
theorem test_soft_reset :
    after (withAccess 0x00C (.write 0x01000000#32) { withCmd 0x20000000#32 State.reset with nord := 1, outq := [5] })
      (fun t => (t.pend, t.nord, t.outq, t.done)) = some (none, 7, [], false) := by decide +kernel

/-- R170: a SOFT_RESET word with a SYM bit is illegal, and while BUSY = 1 it is an overrun. -/
theorem test_soft_reset_word_is_exact :
    after (withAccess 0x00C (.write 0x01000001#32) State.reset) State.err = some 0x001#9 ∧
      after (withAccess 0x00C (.write 0x01000001#32) (withCmd 0x20000000#32 State.reset)) State.err = some 0x004#9 := by
  decide +kernel

/-- R174, example: the partial byte is dropped and complete bytes stay. -/
theorem test_abort :
    after (withCmd 0x05000000#32 { encoding with obuf := 0x18, ocnt := 6, outq := [0x61], eoi := true, inq := [1] })
      (fun t => (t.mode, t.ocnt, t.outq, t.inq, t.eoi)) = some (.idle, 0, [0x61], [], false) := by
  decide +kernel

/-- R170, R89: mode errors and acceptance. -/
theorem test_command_acceptance :
    after (withAccess 0x00C (.write 0x11000061#32) State.reset) (fun t => (t.err, t.pend)) = some (0x002#9, none) ∧
      after (withAccess 0x00C (.write 0x11000061#32) encoding) (fun t => (t.err, t.pend)) =
        some (0#9, some 0x11000061#32) := by decide +kernel

/-! ## Predictor commands (40_predictor.md) -/

/-- R107, values. -/
theorem test_quant : [(0, 0, 128), (1, 1, 191), (0, 1, 64), (0, 2, 43), (1, 2, 128), (2, 2, 213), (0, 254, 1),
    (254, 254, 255), (1024, 1024, 255), (0, 1024, 1)].all (fun p => quant p.1 p.2.1 == p.2.2) = true := by decide

/-- R106, example. -/
theorem test_decay :
    let e := touch 1024 0x61 { Entry.initial with tot := 1024, cnt := (Vector.replicate 256 0).set 0x61 1024 }
    e.tot = 512 ∧ e.cnt[0x61] = 512 ∧ e.cnt[0x62] = 0 ∧ e.hot = true := by decide +kernel

/-- R111, example. -/
theorem test_predict : after (withCmd 0x06000000#32 State.reset) (fun t => (t.total, t.score[0x61], t.score[255])) =
    some (0x800000#30, 32768#22, 32768#22) := by decide +kernel

/-- R113, example: slot 0 reads index 0x3CC after 'a'. -/
theorem test_predict_after_refresh :
    after (withCmd 0x06000000#32 { learned with mem := learnedTables.mapEntries requant })
      (fun t => (t.total, t.score[0x61], t.score[0x62])) = some (4324358#30, 48518#22, 16768#22) := by decide +kernel

/-- R112, example. -/
theorem test_learn : after (withCmd 0x07000061#32 State.reset)
    (fun t => ((t.entry 6 0).cnt[0x61], (t.entry 0 0).tot, t.hist[0], t.symcnt, indexOf t 0)) =
    some (1, 1, 0x61, 1, 0x3CC) := by decide +kernel

/-- R110: with RINT = 1 each symbol refreshes, slot 7, inactive, included (20_memory.md R76). -/
theorem test_learn_refreshes :
    after (withCmd 0x07000061#32 { State.reset with rint := 1, mem := [(entryKey 7 5, learnedEntry)] })
      (fun t => (t.symcnt, (t.entry 0 0).prob[0x61], (t.entry 7 5).prob[0x62], (t.entry 7 5).hot)) =
    some (0, 191, 64, false) := by decide +kernel

/-- R113, example. -/
theorem test_refresh : after (withCmd 0x04000000#32 learned)
    (fun t => ((t.entry 0 0).prob[0x61], (t.entry 6 0).prob[0x62], (t.entry 0 0).hot, (t.entry 0 0).tot, t.symcnt)) =
    some (191, 64, false, 1, 0) := by decide +kernel

/-- R114, example. -/
theorem test_tbl_clear : after (withCmd 0x02000000#32 { learned with pend := none })
    (fun t => (t.mem, t.histValid, t.symcnt)) = some ([], 1, 1) := by decide +kernel

/-- R115, example. -/
theorem test_ctx_clear : after (withCmd 0x03000000#32 learned)
    (fun t => (indexOf t 0, t.histValid, t.symcnt, t.mem.length)) = some (0, 0, 1, 7) := by decide +kernel

/-! ## Encoder commands (41_encoder.md) -/

/-- R136, example; OUTQ keeps its bytes. -/
theorem test_enc_start :
    after (withCmd 0x10000000#32 { State.reset with low := 5, high := 9, pending := 3, bitcnt := 7, outq := [1] })
      (fun t => (t.mode, t.low, t.high, t.pending, t.outq)) = some (.enc, 0, 0xFFFFFFFF#32, 0, [1]) := by decide +kernel

/-- R137, examples 1 to 3. -/
theorem test_enc_sym_uniform : after (withCmd 0x11000061#32 encoding)
    (fun t => (t.outq, t.low, t.high, t.bitcnt, t.streamSyms)) = some ([0x61], 0, 0xFFFFFFFF#32, 8, 1) := by
  decide +kernel

theorem test_enc_sym_refreshed :
    after (withCmd 0x11000061#32 refreshedEncoding) (fun t => (t.low, t.high, t.ocnt, t.obuf, t.total)) =
      some (0x103FC140#32, 0xCDC7A7BF#32, 6, 0b011000#8, 4226816) ∧
    after (withCmd 0x11000002#32 refreshedEncoding) (fun t => (t.low, t.high, t.pending, t.ocnt, t.obuf)) =
      some (0x7E07E800#32, 0xFD0BDBFF#32, 1, 6, 0) := by decide +kernel

/-- R138, corner case and example. -/
theorem test_enc_flush :
    after (withCmd 0x12000000#32 encoding) (fun t => (t.outq, t.bitcnt, t.mode)) = some ([0x40], 8, .idle) ∧
      after (withCmd 0x12000000#32 { encoding with outq := [0x61, 0x61], bitcnt := 16 })
        (fun t => (t.outq, t.bitcnt)) = some ([0x61, 0x61, 0x40], 24) := by decide +kernel

/-! ## Decoder commands (42_decoder.md) -/

/-- R158, examples 1 and 2. -/
theorem test_dec_start :
    after (withCmd 0x20000000#32 { State.reset with inq := [0x61, 0x61, 0x40], eoi := true })
      (fun t => (t.code, t.bitcnt, t.phantom, t.inq, statusValue t)) =
      some (0x61614000#32, 32, 8, [], 0x00000012#32) ∧
    after (withCmd 0x20000000#32 { State.reset with eoi := true }) (fun t => (t.err, statusValue t)) =
      some (0x020#9, 0x00800013#32) := by decide +kernel

/-- R158, example 1: held, with three bytes and no EOI. -/
theorem test_dec_start_held :
    statusValue (withCmd 0x20000000#32 { State.reset with inq := [0x61, 0x61, 0x40] }) = 0x0000030C#32 ∧
      step (withCmd 0x20000000#32 { State.reset with inq := [0x61, 0x61, 0x40] }) =
        .next (withCmd 0x20000000#32 { State.reset with inq := [0x61, 0x61, 0x40] }) := ⟨by decide +kernel, rfl⟩

/-- R159, example. -/
theorem test_dec_sym : after (withCmd 0x21000000#32 decoding)
    (fun t => (t.rsym, t.rvalid, t.code, t.bitcnt, t.phantom)) = some (0x61, true, 0x61400000#32, 40, 16) := by
  decide +kernel

/-- R155: the example's symbol with a real byte AB left, whose eight bits enter CODE below. -/
theorem test_dec_sym_real_bits : after (withCmd 0x21000000#32 { decoding with inq := [0xAB] })
    (fun t => (t.rsym, t.code, t.inq, t.phantom)) = some (0x61, 0x614000AB#32, [], 8) := by decide +kernel

/-- R153, the example's target. -/
theorem test_target : target { decoding with total := 8388608 } = 3190944 := by decide

/-- R160, example. -/
theorem test_dec_end : after (withCmd 0x22000000#32 { decoding with rcnt := 3, inq := [7], phantom := 24 })
    (fun t => (statusValue t, t.phantom, t.rcnt, t.code)) = some (0, 0, 0, 0x61614000#32) := by decide +kernel

/-- R161: no phantom bit beyond 30. -/
theorem test_dec_sym_truncated : after (withCmd 0x21000000#32 { decoding with phantom := 23 })
    (fun t => (t.mode, t.err, t.total, t.code, t.rvalid)) =
    some (.fault, 0x020#9, 0x800000, 0x61614000#32, false) := by decide +kernel

/-! ## Host accesses (44_host_access.md) -/

/-- R191, R193, R200, R204: reads after reset. -/
theorem test_reads_after_reset :
    [(0x000#12, 0x434D4143#32), (0x004, 0x00010000), (0x008, 0x0810100A), (0x00C, 0), (0x010, 0), (0x014, 0), (0x018, 0),
      (0x01C, 0), (0x020, 0), (0x024, 0), (0x028, 0), (0x02C, 0), (0x030, 0), (0x034, 0), (0x038, 0), (0x03C, 0),
      (0x040, 0), (0x044, 0xFFFFFFFF), (0x048, 0), (0x04C, 0), (0x050, 0), (0x054, 0), (0x080, 7), (0x084, 1024),
      (0x088, 233), (0x0B4, 13), (0x0D8, 101), (0x100, 0), (0x104, 0), (0x110, 0), (0x114, 0x80), (0x118, 0), (0x140, 0),
      (0x17C, 0), (0xABC, 0)].all (fun p => readAt p.1 State.reset == some p.2) = true := by decide +kernel

/-- R200, R201, R202, R203, R204: reads of state that is not at reset. -/
theorem test_reads :
    readAt 0x02C { State.reset with rsym := 0x61, rvalid := true } = some 0x00000161#32 ∧
      readAt 0x140 { State.reset with hist := (State.reset.hist.set 0 0x62).set 1 0x61 } = some 0x00006162#32 ∧
      readAt 0x160 learned = some 0x000003CC#32 ∧
      readAt 0x104 { State.reset with scoreIdx := 0x61, score := State.reset.score.set 0x61 32768 } = some 0x8000#32 ∧
      readAt 0x114 { learned with diagSel := 0x61#32 } = some 0x180#32 ∧
      readAt 0x118 { learned with diagSel := 0x61#32 } = some 0x10001#32 := by decide +kernel

/-- R194, R195, R196: the writes of the status registers. -/
theorem test_status_writes :
    after (withAccess 0x014 (.write 0x01#32) { State.reset with err := 0x21, error := true })
      (fun t => (t.err, t.error)) = some (0x20#9, true) ∧
    after (withAccess 0x018 (.write 0x1#32) { State.reset with done := true, error := true })
      (fun t => (t.done, t.error)) = some (false, true) ∧
    after (withAccess 0x01C (.write 0xFFFFFFFC#32) { State.reset with outq := [1] })
      (fun t => (t.intEnable, irq t)) = some (4#3, true) := by decide +kernel

/-- R197, R198: the input side. -/
theorem test_input_writes :
    after (withAccess 0x020 (.write 0x161#32) State.reset) (fun t => (t.inq, t.err)) = some ([0x61], 0) ∧
      after (withAccess 0x020 (.write 0x61#32) { State.reset with inq := List.replicate 16 0 }) State.err = some 0x080#9 ∧
      after (withAccess 0x020 (.write 0x61#32) { State.reset with inq := List.replicate 16 0, eoi := true }) State.err =
        some 0x100#9 ∧
      after (withAccess 0x024 (.write 0#32) State.reset) State.eoi = some true := by decide +kernel

/-- R199: a DOUT read pops, and sets DONE when BUSY falls. -/
theorem test_dout :
    after (withAccess 0x028 .read { State.reset with outq := [0x61] }) (fun t => (t.reads, t.outq, t.done)) =
      some ([0x161#32], [], false) ∧
    after (withAccess 0x028 .read { State.reset with outq := List.replicate 17 9 })
      (fun t => (t.reads, t.outq.length, t.done)) = some ([0x109#32], 16, true) := by decide +kernel

/-- R205, example; the whole value is checked. -/
theorem test_config_writes :
    after (withAccess 0x088 (.write 0#32) State.reset) (fun t => (t.rint, t.err)) = some (233, 0x008#9) ∧
      after (withAccess 0x088 (.write 1#32) State.reset) (fun t => (t.rint, t.err)) = some (1, 0) ∧
      after (withAccess 0x080 (.write 0x10001#32) State.reset) (fun t => (t.nord, t.err)) = some (7, 0x008#9) ∧
      after (withAccess 0x0BC (.write 32#32) State.reset) (fun t => t.order[7]) = some 32 ∧
      after (withAccess 0x0C8 (.write 2047#32) State.reset) (fun t => (t.weight[2], t.weight[1])) = some (2047, 9) ∧
      after (withAccess 0x084 (.write 5#32) encoding) (fun t => (t.ceil, t.err)) = some (1024, 0x008#9) := by
  decide +kernel

/-- R203, R204: the select registers. -/
theorem test_select_writes :
    after (withAccess 0x100 (.write 0xFFFFFF61#32) State.reset) State.scoreIdx = some 0x61#8 ∧
      after (withAccess 0x110 (.write 0xFFFFFFFF#32) State.reset) State.diagSel = some 0x7003FFFF#32 := by decide +kernel

/-- 20_memory.md R66: writes that are ignored. -/
theorem test_ignored_writes :
    [0x000#12, 0x004, 0x008, 0x010, 0x028, 0x02C, 0x030, 0x034, 0x038, 0x03C, 0x040, 0x044, 0x048, 0x04C, 0x050, 0x054,
      0x104, 0x114, 0x118, 0x144, 0x16C, 0x200].all
      (fun off => after (withAccess off (.write 0xFFFFFFFF#32) State.reset)
        (fun t => (t.reads, t.err, t.outq, t.low, t.symcnt)) == some ([], 0, [], 0, 0)) =
    true := by decide +kernel

/-- 70_reset_and_hazards.md R255: TOTAL is open while ENC_SYM is pending, LOW is not while LEARN is. -/
theorem test_open_reads :
    after (withAccess 0x030 .read (withCmd 0x11000061#32 encoding)) State.draws = some 1 ∧
      after (withAccess 0x040 .read (withCmd 0x07000061#32 encoding)) (fun t => (t.draws, t.reads)) = some (0, [0]) := by
  decide +kernel

/-! ## Witnesses: states and operands that meet the hypotheses of each statement

A name is `witness_` and the statement's name, with a word for the clause where there are several. -/

/-- The state of an enabled NOP, with nothing of the host before it. -/
def nopPending : State := withCmd 0x00000000#32 State.reset

theorem witness_ResetsReachTheResetState :
    ({ State.reset with hostq := [⟨true, .assertReset⟩] } : State).hostq = ⟨true, .assertReset⟩ :: [] := rfl

theorem witness_CommandAcceptanceOrder_overrun :
    0x08000000#32 ≠ 0x01000000#32 ∧ busy nopPending = true ∧
      busy { State.reset with outq := List.replicate 17 0 } = true := by decide

theorem witness_CommandAcceptanceOrder_illegal :
    0x08000000#32 ≠ 0x01000000#32 ∧ busy { State.reset with outq := List.replicate 16 0 } = false ∧
      decodeCmd 0x08000000#32 = .error .undefinedOpcode := by decide

theorem witness_CommandAcceptanceOrder_mode :
    busy State.reset = false ∧ decodeCmd 0x11000061#32 = .ok (.encSym 0x61) ∧
      modeAllows (.encSym 0x61) State.reset.mode = false := by decide

theorem witness_CommandAcceptanceOrder_accepted :
    busy encoding = false ∧ decodeCmd 0x11000061#32 = .ok (.encSym 0x61) ∧
      modeAllows (.encSym 0x61) encoding.mode = true := by decide

/-- A pending word that decodes to a command MODE allows is legal. -/
theorem pendOk_withCmd {w : Word} {i : Instr} {s : State} (hd : decodeCmd w = .ok i) (hne : i ≠ .softReset)
    (hm : modeAllows i s.mode = true) : PendOk (withCmd w s) := by
  intro v hv
  cases hv
  exact ⟨i, by rw [hd]; rfl, hne, hm⟩

/-- One legal pending command for each row of 10_state.md R35, in a mode that allows it. -/
theorem witness_ModeChangesOnlyAsTheTableSays_pend :
    PendOk (withCmd 0x10000000#32 State.reset) ∧ PendOk (withCmd 0x20000000#32 State.reset) ∧
      PendOk (withCmd 0x12000000#32 encoding) ∧ PendOk (withCmd 0x11000061#32 encoding) ∧
      PendOk (withCmd 0x22000000#32 decoding) ∧ PendOk (withCmd 0x21000000#32 decoding) ∧
      PendOk (withCmd 0x05000000#32 decoding) :=
  ⟨pendOk_withCmd (i := .encStart) rfl nofun rfl, pendOk_withCmd (i := .decStart) rfl nofun rfl,
    pendOk_withCmd (i := .encFlush) rfl nofun rfl, pendOk_withCmd (i := .encSym 0x61) rfl nofun rfl,
    pendOk_withCmd (i := .decEnd) rfl nofun rfl, pendOk_withCmd (i := .decSym) rfl nofun rfl,
    pendOk_withCmd (i := .abort) rfl nofun rfl⟩

theorem witness_ModeChangesOnlyAsTheTableSays_step :
    after (withCmd 0x10000000#32 State.reset) State.mode = some .enc ∧
      after (withCmd 0x20000000#32 { State.reset with inq := [0, 0, 0, 0] }) State.mode = some .dec ∧
      after (withCmd 0x12000000#32 encoding) State.mode = some .idle ∧
      after (withCmd 0x22000000#32 decoding) State.mode = some .idle ∧
      after (withCmd 0x05000000#32 decoding) State.mode = some .idle ∧
      after (withCmd 0x11000061#32 (noWeight encoding)) State.mode = some .fault ∧
      after (withCmd 0x20000000#32 { State.reset with eoi := true }) State.mode = some .fault ∧
      after (withCmd 0x21000000#32 (noWeight decoding)) State.mode = some .fault ∧
      after (withAccess 0x00C (.write 0x01000000#32) encoding) State.mode = some .idle ∧
      after { encoding with hostq := [⟨false, .assertReset⟩] } State.mode = some .idle := by decide +kernel

theorem witness_FaultModeAcceptsOnlyThreeCommands :
    ({ State.reset with mode := .fault } : State).mode = .fault ∧ busy { State.reset with mode := .fault } = false ∧
      decodeCmd 0x06000000#32 = .ok .predict ∧
      ({ State.reset with mode := .fault, inq := List.replicate 15 0, outq := [7] } : State).inq.length <
        State.reset.params.inDepth := by decide

theorem witness_DoneIsSetExactlyWhenBusyFalls :
    PendOk nopPending ∧ busy nopPending = true ∧ nopPending.done = false ∧
      after nopPending (fun t => (busy t, t.done)) = some (false, true) :=
  ⟨pendOk_withCmd (i := .nop) rfl nofun rfl, by decide, by decide, by decide +kernel⟩

theorem witness_HashAndIndexOfContext :
    State.reset.params.legal ∧ State.reset.order[7].toNat ≤ 32 ∧
      State.reset.histValid.toNat < State.reset.order[0].toNat ∧ learned.order[0].toNat ≤ learned.histValid.toNat := by
  decide

theorem witness_DistributionFloor : TablesOk State.reset := ⟨by decide, by decide⟩

theorem witness_EntryUpdateAndDecay :
    Entry.initial.ok ∧ Entry.initial.tot.toNat + 1 ≤ (1#15).toNat ∧ (0#15).toNat < Entry.initial.tot.toNat + 1 :=
  ⟨initial_ok, by decide, by decide⟩

theorem witness_LearnRunsTheTail :
    ConfigOk State.reset ∧ TablesOk State.reset ∧ BoundsOk State.reset ∧
      State.reset.symcnt.toNat + 1 < State.reset.rint.toNat :=
  ⟨by decide, ⟨by decide, by decide⟩, by decide +kernel, by decide⟩

theorem witness_LearnRunsTheTail_refresh :
    ConfigOk { State.reset with symcnt := 232 } ∧ TablesOk { State.reset with symcnt := 232 } ∧
      BoundsOk { State.reset with symcnt := 232 } ∧
      ({ State.reset with symcnt := 232 } : State).rint.toNat ≤ ({ State.reset with symcnt := 232 } : State).symcnt.toNat + 1 :=
  ⟨by decide, ⟨by decide, by decide⟩, by decide +kernel, by decide⟩

theorem witness_QuantRoundsHalfUpAndClamps :
    2 * (0 + 1) * 128 ≤ (2 * 0 + 1) * 255 + (0 + 1) ∧ (2 * 0 + 1) * 255 + (0 + 1) < 2 * (0 + 1) * (128 + 1) := by decide

theorem witness_RefreshRequantizesHotEntries :
    ({ State.reset with mem := [(entryKey 7 5, { Entry.initial with hot := true })] } : State).mem.wf ∧
      (({ State.reset with mem := [(entryKey 7 5, { Entry.initial with hot := true })] } : State).entry 7 5).hot = true ∧
      (({ State.reset with mem := [(entryKey 7 5, { Entry.initial with hot := true })] } : State).entry 7 4).hot = false := by
  refine ⟨⟨by decide, ?_⟩, by decide, by decide⟩
  intro c hc
  simp only [List.mem_singleton] at hc
  subst hc
  intro h
  exact absurd (congrArg Entry.hot h) (by decide)

theorem witness_TablesChangeOnlyByCommands :
    exec .tblClear { State.reset with mem := [(0, { Entry.initial with hot := true })] } =
      .next (complete State.reset) ∧ (complete State.reset).mem ≠ [(0, { Entry.initial with hot := true })] :=
  ⟨rfl, by intro h; cases h⟩

theorem witness_ConfigChangesOnlyInIdle :
    exec (.wrCfgNord 1#32) State.reset = .next { State.reset with nord := 1 } ∧ (1#4) ≠ State.reset.nord :=
  ⟨rfl, by decide⟩

theorem witness_EncSymOutcomes_invalid : (predict (noWeight encoding)).total = 0 := by decide +kernel

/-- A renormalization that finds PENDING full (41_encoder.md R135): the uniform distribution, on bounds a little off the
whole range, narrows symbol 127 to an interval around the midpoint. -/
theorem witness_EncSymOutcomes_overflow :
    (predict { encoding with low := 0x00800000#32, pending := 0xFFFFFFFF#32 }).total ≠ 0 ∧
      (renormEnc Config.renormPasses
        (encNarrowed (predict { encoding with low := 0x00800000#32, pending := 0xFFFFFFFF#32 }) 127)).2 = true := by
  decide +kernel

theorem witness_EncSymOutcomes_coded :
    (predict encoding).total ≠ 0 ∧ (renormEnc Config.renormPasses (encNarrowed (predict encoding) 0x61)).2 = false := by
  decide +kernel

theorem witness_SymbolCommandFrames :
    after (withCmd 0x11000061#32 encoding) State.mode = some .enc ∧
      after (withCmd 0x21000000#32 decoding) State.mode = some .dec := by decide +kernel

/-- The two outcomes that the predictor's clauses tell apart: a symbol counted, and none (a fault; a hold). -/
theorem witness_SymbolCommandFrames_counted :
    after (withCmd 0x11000061#32 encoding) State.streamSyms = some 1 ∧
      after (withCmd 0x21000000#32 decoding) (fun t => (t.streamSyms, t.rsym)) = some (1, 0x61) ∧
      after (withCmd 0x11000061#32 (noWeight encoding)) State.streamSyms = some 0 ∧
      after (withCmd 0x21000000#32 { decoding with eoi := false }) State.streamSyms = some 0 := by decide +kernel

theorem witness_SymbolCommandFrames_entries :
    encoding.params.legal ∧ encoding.mem.wf ∧ ((0 : Fin 8).val < encoding.nord.toNat ∧ 0 = indexOf encoding 0) ∧
      ¬((7 : Fin 8).val < encoding.nord.toNat ∧ 0 = indexOf encoding 7) := by decide

theorem witness_NoWeightFaultsInvalidDist : activeWeight (noWeight encoding) = 0 := by decide

/-- The narrowest interval, the least frequency, and the last symbol. -/
theorem witness_NarrowingStaysInsideUnclamped :
    (0x3FFFFFFF#32).toNat ≤ (0x7FFFFFFF#32).toNat ∧ 2 ^ 30 < (0x7FFFFFFF#32).toNat - (0x3FFFFFFF#32).toNat + 1 ∧
      1 ≤ 65280 ∧ 65280 ≤ 65280 * 1 ∧ 65279 + 1 ≤ 65280 := by decide

theorem witness_RenormalizationEnds :
    (renormEnc Config.renormPasses { State.reset with low := 0x61000000#32, high := 0x61FFFFFF#32 }).2 = false := by
  decide +kernel

/-- Bits committed with two pending ones, and an underflow pass on the narrowest ordered interval around the midpoint. -/
theorem witness_RenormalizationEmitsTheShiftedBits :
    [({ State.reset with low := 0x61000000#32, high := 0x61FFFFFF#32, pending := 2 } : State),
      { State.reset with low := 0x7FFFFFFF#32, high := 0x80000000#32 }].all (fun s =>
        s.low.toNat ≤ s.high.toNat && !(renormEnc Config.renormPasses s).2) = true := by decide +kernel

theorem witness_RenormalizationTakesAtMost17Passes : (0x7FFFE000#32).toNat + 16448 ≤ (0x8000203F#32).toNat + 1 := by
  decide

theorem witness_DecoderRenormalizesAsTheEncoder :
    encoding.low = decoding.low ∧ encoding.high = decoding.high ∧
      renormEnc Config.renormPasses encoding = (encoding, false) := ⟨rfl, rfl, rfl⟩

theorem witness_ReadBitTakesTheNextInputBit :
    ({ decoding with rcnt := 8, rbuf := 0x80 } : State).rcnt.toNat ≤ 8 ∧
      inputBits { decoding with rcnt := 8, rbuf := 0x80 } = true :: List.replicate 7 false ∧
      inputBits { decoding with inq := [0x80] } = true :: List.replicate 7 false ∧ inputBits decoding = [] := by
  decide +kernel

/-- The four rows at the values where they meet. -/
theorem witness_EnablingTable :
    8 ≤ 8 ∧ 7 < 8 ∧ (7 < 8 ∧ 29 + (8 - 7) ≤ 30) ∧ (7 < 8 ∧ 30 < 30 + (8 - 7)) := by decide

theorem witness_DecStartLoadsTheCode_held :
    8 * ({ State.reset with inq := [1, 2, 3] } : State).inq.length < 32 ∧
      ({ State.reset with inq := [1, 2, 3] } : State).eoi = false := by decide

theorem witness_DecStartLoadsTheCode_truncated :
    ({ State.reset with eoi := true } : State).inq = [] ∧ ({ State.reset with eoi := true } : State).eoi = true := by decide

theorem witness_DecStartLoadsTheCode_loaded :
    32 ≤ 8 * ({ State.reset with inq := [1, 2, 3, 4] } : State).inq.length ∧
      (({ State.reset with inq := [1], eoi := true } : State).eoi = true ∧
        ({ State.reset with inq := [1], eoi := true } : State).inq ≠ []) := by decide

/-- Eight passes, none of whose bits is left in the input: 22 + 8 phantom bits are the most allowed. CODE stands at either
end of the interval. -/
theorem witness_RenormDecReadsStepCountBits :
    let s := { decoding with low := 0x61000000#32, high := 0x61FFFFFF#32, phantom := 22 }
    s.rcnt.toNat ≤ 8 ∧ 8 = renormSteps Config.renormPasses s.low s.high ∧
      s.phantom.toNat + (8 - bitsAvailable s) ≤ 30 ∧
      [s.low, s.code, s.high].all (fun c => s.low.toNat ≤ c.toNat && c.toNat ≤ s.high.toNat) = true := by decide +kernel

theorem witness_TargetLiesBelowTotal :
    let p := { decoding with low := 5#32, code := 5#32, high := 5#32, total := 1 }
    p.low.toNat ≤ p.code.toNat ∧ p.code.toNat ≤ p.high.toNat ∧ 1 ≤ p.total.toNat := by decide

theorem witness_DecodedSymbolIsUnique :
    255 < scoreSum ({ decoding with score := Vector.replicate 256 1 } : State).score.toList := by decide +kernel

theorem witness_DecSymOutcomes_invalid : (predict (noWeight decoding)).total = 0 := by decide +kernel

/-- Eight bits are needed: none is there, and 22 or 23 phantom bits were taken. -/
theorem witness_DecSymOutcomes :
    (predict decoding).total ≠ 0 ∧ symbolAt (predict decoding) (target (predict decoding)) = 0x61 ∧
      encNarrow (predict decoding) 0x61 = (0x61000000#32, 0x61FFFFFF#32) ∧
      renormSteps Config.renormPasses 0x61000000#32 0x61FFFFFF#32 = 8 ∧
      inputCheck 8 (bitsAvailable decoding) 22 false = .held ∧ inputCheck 8 (bitsAvailable decoding) 23 true = .truncated ∧
      inputCheck 8 (bitsAvailable decoding) 22 true = .enough := by decide +kernel

theorem witness_DecoderMirrorsEncoder :
    SamePredictor encoding decoding ∧ encoding.low = decoding.low ∧ encoding.high = decoding.high ∧ encoding.mode = .enc ∧
      decPlan (predict decoding) = .run 0x61 0x61000000#32 0x61FFFFFF#32 ∧
      after (withCmd 0x21000000#32 decoding) State.mode = some .dec ∧
      after (withCmd 0x11000061#32 encoding) State.mode = some .enc :=
  ⟨⟨rfl, rfl, rfl, rfl, rfl, rfl, rfl, rfl, rfl, rfl⟩, rfl, rfl, rfl, by decide +kernel, by decide +kernel,
    by decide +kernel⟩

theorem witness_ReadsWithoutPendingCommand_none : pendCmd learned = none := rfl

/-- PENDING while a DEC_SYM is held, and LOW while a LEARN is pending. -/
theorem witness_ReadsWithoutPendingCommand_pending :
    pendCmd (withCmd 0x21000000#32 decoding) = some .decSym ∧ (∀ rd ∈ openReads 10 7 .decSym, rd.1 ≠ .rdPending) ∧
      pendCmd (withCmd 0x07000061#32 encoding) = some (.learn 0x61) ∧
      (∀ rd ∈ openReads 10 7 (.learn 0x61), rd.1 ≠ .rdLow) := by decide

/-- CODE while a DEC_START is held, PENDING while an ENC_SYM is pending, RESULT while a DEC_SYM is. -/
theorem witness_ReadsOfPendingWritesAreFree :
    pendCmd (withCmd 0x20000000#32 State.reset) = some .decStart ∧ holdIn (withCmd 0x20000000#32 State.reset) = true ∧
      (.rdCode, 32) ∈ openReads 10 7 .decStart ∧
      pendCmd (withCmd 0x11000061#32 encoding) = some (.encSym 0x61) ∧
      (.rdPending, 32) ∈ openReads 10 7 (.encSym 0x61) ∧
      pendCmd (withCmd 0x21000000#32 decoding) = some .decSym ∧ (.rdResult, 9) ∈ openReads 10 7 .decSym := by decide

theorem witness_DinWriteQueuesOrRejects :
    ({ State.reset with eoi := true } : State).eoi = true ∧
      ({ State.reset with inq := List.replicate 16 0 } : State).inq.length = State.reset.params.inDepth ∧
      ({ State.reset with inq := List.replicate 15 0 } : State).inq.length < State.reset.params.inDepth ∧
      State.reset.eoi = false := by decide

theorem witness_DoutReadPops :
    State.reset.outq = [] ∧ ({ State.reset with outq := List.replicate 17 9 } : State).outq = 9 :: List.replicate 16 9 ∧
      (List.replicate 16 (9 : Byte)).length = State.reset.params.outDepth := by decide

/-- The least and the greatest legal value of each register, and the values just outside. -/
theorem witness_ConfigWriteStoresOrRejects :
    encoding.mode ≠ .idle ∧ busy nopPending = true ∧ State.reset.mode = .idle ∧ busy State.reset = false ∧
      [(1, 8), (1, 32767), (1, 65535), (1, 32), (0, 2047)].all (fun p =>
        p.1 ≤ (BitVec.ofNat 32 p.1 : Word).toNat && (BitVec.ofNat 32 p.2 : Word).toNat ≤ p.2 &&
          p.2 < (BitVec.ofNat 32 (p.2 + 1) : Word).toNat) = true := by decide

/-- A full input queue, and the distribution, symbol and interval that the HOLD_IN clause names. -/
theorem witness_StatusFieldsAndIrq :
    ({ State.reset with inq := List.replicate 16 0 } : State).inq.length ≤ State.reset.params.inDepth ∧
      State.reset.params.legal ∧
      ∃ (p : State) (sym : Byte) (lo hi : Word), p = predict decoding ∧ sym = symbolAt p (target p) ∧
        (lo, hi) = narrow decoding.low decoding.high (cum p sym) (cum p sym + freq p sym) p.total.toNat :=
  ⟨by decide, by decide, _, _, _, _, rfl, rfl, rfl⟩

/-- HOLD_IN at the edge of what is there (42_decoder.md R152, R159): DEC_SYM needs 8 bits and is held with none; MODE
reads 0 to 3. -/
theorem test_status_fields :
    (statusValue (withCmd 0x21000000#32 { decoding with eoi := false })).getLsbD 3 = true ∧
      (statusValue (withCmd 0x21000000#32 { decoding with eoi := false, inq := [0] })).getLsbD 3 = false ∧
      [Mode.idle, .enc, .dec, .fault].map (fun m => (statusValue { State.reset with mode := m }).toNat) = [0, 1, 2, 3] := by
  decide +kernel

theorem witness_InadmissibleAccessIsRefused :
    State.reset.resetPin = false ∧ (1 ≠ 4 ∨ (0x028#12).toNat % 4 ≠ 0) ∧ (4 ≠ 4 ∨ (0xFFD#12).toNat % 4 ≠ 0) := by decide

theorem witness_StepRunsTheDecodedOperation_block :
    nopPending.resetPin = false ∧ nopPending.pend = some 0x00000000#32 ∧ decodeCmd 0x00000000#32 = .ok .nop ∧
      nopPending.hostq = [] ∧ holdIn nopPending = false := by decide

theorem witness_StepRunsTheDecodedOperation_host :
    decodeAccess { kind := .read, off := 0x028, bytes := 4 } = .ok .rdDout ∧ State.reset.pend = none ∧
      holdIn (withCmd 0x20000000#32 State.reset) = true ∧ (⟨true, .releaseReset⟩ : HostEvent).early = true := by decide

theorem witness_DecodeOfEncode : WellFormed (.unmapped 0xFFC (.write 0xFFFFFFFF#32)) = true := by decide

theorem witness_EncodeOfDecode :
    decode (.command 0x110000FF#32) = .ok (.encSym 0xFF) ∧
      decode (.access { kind := .read, off := 0x17C, bytes := 4 }) = .ok (.rdIdx 7) := by decide

/-- The least and the greatest parameters. -/
theorem witness_ResetStateIsSafe :
    Params.legal { tableBits := 1, inDepth := 4, outDepth := 1 } ∧
      Params.legal { tableBits := 20, inDepth := 31, outDepth := 31 } := by decide

/-- A state inside a decode stream, with DEC_SYM pending and a coded byte left, meets the whole invariant. -/
theorem witness_invariant : Inv (withCmd 0x21000000#32 { decoding with inq := [0x40], phantom := 0, eoi := false }) where
  config := by decide
  tables := ⟨by decide, by decide⟩
  pend := pendOk_withCmd (i := .decSym) rfl nofun rfl
  bounds := by decide +kernel
  coder := by decide

/-- It steps to a next state, as the premises of `StepKeepsConfigurationLegal`, `StepKeepsTableInvariants`,
`StepKeepsPendLegal`, `StepKeepsBounds` and `StepKeepsCodeInsideInterval` ask. -/
theorem witness_invariant_step :
    after (withCmd 0x21000000#32 { decoding with inq := [0x40], phantom := 0, eoi := false })
      (fun t => (t.mode, t.rsym, t.inq)) = some (.dec, 0x61, []) := by decide +kernel

end Sys2Proof.Tests
end

section
/-! SUPPORT. Which runs of a step a property of states has to survive, the frames of renormalization field by field, and
the table memory's invariant through every command, access and step. -/

namespace Sys2Proof.Machine

/-! ## What a property survives when every step keeps it -/

/-- A property that holds, and that survives the model's own bookkeeping (the queue of host events and the reset pin), a
reset, the completion of the command in PEND and every host access, survives a step. -/
theorem step_keeps (P : State → Prop) {s t : State} (h : step s = .next t) (here : P s)
    (environment : ∀ u q pin, P u → P { u with hostq := q, resetPin := pin }) (reset : P (resetBlock s))
    (command : ∀ w i u, s.pend = some w → decodeCmd w = .ok i → CommandRan s i u → P (complete u))
    (access : ∀ rest a i u, decodeAccess a = .ok i → exec i { s with hostq := rest } = .next u → P u) : P t := by
  rcases step_cases h with ⟨w, i, hw, hi, _, hx⟩ | ⟨ev, rest, a, i, _, _, hi, _, hx⟩ | ⟨ev, rest, _, _, rfl⟩ |
    ⟨ev, rest, _, _, rfl⟩ | rfl
  · rcases command_cases hw hi hx with ⟨u, hu, rfl⟩ | ⟨_, _, rfl⟩ | ⟨_, rfl⟩
    · exact command w i u hw hi hu
    · exact here
    · exact reset
  · exact access rest a i t hi hx
  · exact environment (resetBlock s) rest true reset
  · exact environment _ rest false here
  · exact here

/-! ## Renormalization leaves the predictor and the mode -/

@[simp] theorem renormEnc_params (n : Nat) (s : State) : (renormEnc n s).1.params = s.params := by rw [renormEnc_frame]
@[simp] theorem renormEnc_mode (n : Nat) (s : State) : (renormEnc n s).1.mode = s.mode := by rw [renormEnc_frame]
@[simp] theorem renormEnc_mem (n : Nat) (s : State) : (renormEnc n s).1.mem = s.mem := by rw [renormEnc_frame]
@[simp] theorem renormDec_params (n : Nat) (s : State) : (renormDec n s).params = s.params := by rw [renormDec_frame]
@[simp] theorem renormDec_mode (n : Nat) (s : State) : (renormDec n s).mode = s.mode := by rw [renormDec_frame]
@[simp] theorem renormDec_mem (n : Nat) (s : State) : (renormDec n s).mem = s.mem := by rw [renormDec_frame]
@[simp] theorem renormDec_hist (n : Nat) (s : State) : (renormDec n s).hist = s.hist := by rw [renormDec_frame]
@[simp] theorem renormDec_histValid (n : Nat) (s : State) : (renormDec n s).histValid = s.histValid := by rw [renormDec_frame]
@[simp] theorem renormDec_symcnt (n : Nat) (s : State) : (renormDec n s).symcnt = s.symcnt := by rw [renormDec_frame]
@[simp] theorem renormDec_diagSel (n : Nat) (s : State) : (renormDec n s).diagSel = s.diagSel := by rw [renormDec_frame]

/-! ## The table memory (10_state.md R53) -/

/-- A table memory in which every entry is initial keeps the invariant (R54, 40_predictor.md R114). -/
theorem tablesOk_of_mem_nil {s : State} (h : s.mem = []) : TablesOk s := by
  simp [TablesOk, Memory.wf, h]

/-- Every command keeps the table invariant: most leave the memory, and TBL_CLEAR, REFRESH and Tail keep it. -/
theorem commandRan_tablesOk {s u : State} {i : Instr} (hT : s.params.tableBits ≤ 20) (hs : TablesOk s)
    (hu : CommandRan s i u) : TablesOk u := by
  cases hu with
  | tblClear => exact tablesOk_of_mem_nil rfl
  | refresh => exact refresh_tablesOk hs
  | learn x => exact tail_tablesOk x hT hs
  | encSym x u _ hu =>
    obtain rfl : (renormEnc Config.renormPasses (encNarrowed (predict s) x)).1 = u := by rw [hu]
    exact (tail_tablesOk x (by simpa using hT) (hs.congr (by simp) (by simp))).congr rfl rfl
  | encOverflow x u _ hu =>
    obtain rfl : (renormEnc Config.renormPasses (encNarrowed (predict s) x)).1 = u := by rw [hu]
    exact hs.congr (by simp) (by simp)
  | encFlush => exact hs.congr (by simp) (by simp)
  | decStart _ => exact hs.congr (by simp [decLoad]) (by simp [decLoad])
  | decSym x lo hi _ =>
    have hdec : TablesOk (renormDec Config.renormPasses { predict s with low := lo, high := hi }) :=
      hs.congr (by simp) (by simp)
    exact (tail_tablesOk x (by simpa using hT) hdec).congr rfl rfl
  | nop | ctxClear | abort | predict | encStart | encInvalid | decStartTruncated | decInvalid | decTruncated | decEnd =>
    exact hs.congr rfl rfl

/-- No host access changes the table memory, a SOFT_RESET word excepted, which empties it. -/
theorem access_tablesOk {a : Access} {i : Instr} {s t : State} (hs : TablesOk s) (hd : decodeAccess a = .ok i)
    (h : exec i s = .next t) : TablesOk t := by
  refine access_keeps TablesOk hd h (here := hs) (read := fun _ _ hu => hu) (draw := hs) (pop := fun _ _ _ => hs)
    (rejected := fun _ => hs) (reset := tablesOk_of_mem_nil rfl) (accepted := fun _ _ _ _ _ _ => hs)
    (queued := fun _ _ => hs) (errors := fun _ => hs) (status := fun _ _ => hs) (enable := fun _ => hs) (ended := hs)
    (score := fun _ => hs) (diag := fun _ => hs) (config := fun u _ _ hu => ?_)
  cases hu <;> exact hs.congr rfl rfl

/-- Settles O56: the table invariant survives a reset, every command and every access. -/
theorem stepKeepsTableInvariants : Obligations.StepKeepsTableInvariants := by
  intro s t hp hs h
  obtain ⟨_, hT, _⟩ := hp
  exact step_keeps TablesOk h (here := hs) (environment := fun _ _ _ hu => hu) (reset := tablesOk_of_mem_nil rfl)
    (command := fun _ _ u _ _ hu => show TablesOk u from commandRan_tablesOk hT hs hu)
    (access := fun rest _ _ _ hd hx => access_tablesOk (s := { s with hostq := rest }) hs hd hx)

end Sys2Proof.Machine
end


section
/-! SUPPORT. The modes that a command and an access lead to (10_state.md R35). -/

namespace Sys2Proof.Machine

/-! ## The command in PEND -/

/-- The command in PEND is what its word decodes to (10_state.md R50). -/
theorem pendCmd_of_decode {s : State} {w : Word} {i : Instr} (hw : s.pend = some w) (hi : decodeCmd w = .ok i) :
    pendCmd s = some i := by
  simp [pendCmd, hw, hi, Except.toOption]

/-- A command in a legal PEND is allowed by MODE and is no SOFT_RESET (43_control.md R170). -/
theorem pendOk_decode {s : State} {w : Word} {i : Instr} (hs : PendOk s) (hw : s.pend = some w)
    (hi : decodeCmd w = .ok i) : i ≠ .softReset ∧ modeAllows i s.mode = true := by
  obtain ⟨j, hj, hne, hm⟩ := hs w hw
  obtain rfl : i = j := by simpa [hi, Except.toOption] using hj
  exact ⟨hne, hm⟩

/-! ## MODE (10_state.md R35) -/

/-- The rows of R35's table that a command accounts for: a command that MODE allows keeps MODE, or is one of these. -/
theorem commandRan_mode {s u : State} {i : Instr} (hm : modeAllows i s.mode = true) (hu : CommandRan s i u) :
    u.mode = s.mode ∨
    (s.mode = .idle ∧ i = .encStart ∧ u.mode = .enc) ∨
    (s.mode = .idle ∧ i = .decStart ∧ u.mode = .dec) ∨
    (s.mode = .enc ∧ i = .encFlush ∧ u.mode = .idle) ∨
    (s.mode = .dec ∧ i = .decEnd ∧ u.mode = .idle) ∨
    (i = .abort ∧ u.mode = .idle) ∨
    (s.mode = .enc ∧ (∃ x, i = .encSym x) ∧ u.mode = .fault) ∨
    (s.mode = .idle ∧ i = .decStart ∧ u.mode = .fault) ∨
    (s.mode = .dec ∧ i = .decSym ∧ u.mode = .fault) := by
  cases hu with
  | nop | tblClear | ctxClear | refresh | predict => exact .inl rfl
  | learn x => exact .inl (tail_mode s x)
  | encSym x u _ hu =>
    obtain rfl : (renormEnc Config.renormPasses (encNarrowed (predict s) x)).1 = u := by rw [hu]
    exact .inl (by simp)
  | decSym x lo hi _ => exact .inl (by simp [decRun])
  | encStart | encFlush | decStart | decEnd | abort | encInvalid | encOverflow | decStartTruncated | decInvalid
  | decTruncated => simp_all [modeAllows, decLoad]

/-- Only a SOFT_RESET word written to CMD changes MODE at an access, and it leads to IDLE (43_control.md R173). -/
theorem access_mode {a : Access} {i : Instr} {s t : State} (hd : decodeAccess a = .ok i) (h : exec i s = .next t)
    (hne : t.mode ≠ s.mode) :
    a = { kind := .write 0x01000000#32, off := 0x00C, bytes := 4 } ∧ t.mode = .idle := by
  obtain ⟨hb, _, ⟨r, _, _, rfl⟩ | ⟨r, v, hr, hk, rfl⟩ | ⟨_, rfl⟩⟩ := decodeAccess_cases hd
  · rcases read_cases h with ⟨v, rfl⟩ | ⟨v, rfl⟩ | ⟨_, b, rest, v, _, rfl⟩ <;> exact absurd rfl hne
  · rcases write_cases h with rfl | ⟨rfl, rfl⟩ | ⟨e, rfl⟩ | ⟨_, _, b, rfl⟩ | ⟨e, rfl⟩ | ⟨d, e, rfl⟩ | ⟨e, rfl⟩ | rfl |
      ⟨x, rfl⟩ | rfl | ⟨_, _, hc⟩
    case inr.inl =>
      have hoff : a.off = 0x00C := BitVec.eq_of_toNat_eq (regAt_offset hr).symm
      rcases cmdWrite_cases v s with ⟨rfl, he⟩ | ⟨_, e, he⟩ | ⟨i, _, _, _, _, he⟩
      · obtain ⟨kind, off, bytes⟩ := a
        cases hk; cases hoff; cases hb
        exact ⟨rfl, by rw [he]; rfl⟩
      · exact absurd (by rw [he]; rfl) hne
      · exact absurd (by rw [he]) hne
    case inr.inr.inr.inr.inr.inr.inr.inr.inr.inr => cases hc <;> exact absurd rfl hne
    all_goals exact absurd rfl hne
  · rcases unmapped_cases h with rfl | rfl <;> exact absurd rfl hne

/-- Settles O9: MODE changes by a command of R35's table, by a SOFT_RESET word, or by the reset input. -/
theorem modeChangesOnlyAsTheTableSays : Obligations.ModeChangesOnlyAsTheTableSays := by
  intro s t hs h hne
  rcases step_cases h with ⟨w, i, hw, hi, _, hx⟩ | ⟨ev, rest, a, i, hq, ha, hi, _, hx⟩ | ⟨ev, rest, hq, ha, rfl⟩ |
    ⟨ev, rest, _, _, rfl⟩ | rfl
  · obtain ⟨hsoft, hm⟩ := pendOk_decode hs hw hi
    rcases command_cases hw hi hx with ⟨u, hu, rfl⟩ | ⟨_, _, rfl⟩ | ⟨rfl, _⟩
    · have hrow := (commandRan_mode hm hu).resolve_left hne
      simp only [pendCmd_of_decode hw hi, Option.some.injEq, complete_mode]
      simp only [← or_assoc] at hrow ⊢
      exact .inl hrow
    · exact absurd rfl hne
    · exact absurd rfl hsoft
  · obtain ⟨rfl, hidle⟩ := access_mode hi hx hne
    exact .inr <| .inr <| .inr <| .inr <| .inr <| .inr <| .inr <| .inr ⟨hidle, ev, rest, hq, .inl ha⟩
  · exact .inr <| .inr <| .inr <| .inr <| .inr <| .inr <| .inr <| .inr ⟨rfl, ev, rest, hq, .inr ha⟩
  · exact absurd rfl hne
  · exact absurd rfl hne

end Sys2Proof.Machine
end

section
/-! SUPPORT. The bounds of the reader, the history, SYMCNT and DIAG_SEL through every command, access and step
(10_state.md R36, R38, R43, R45). -/

namespace Sys2Proof.Machine

/-! ## The reader (42_decoder.md R151, R152) -/

/-- RCNT and INQ are within their bounds, and reading `n` more bits takes no more than PHANTOM_MAX phantom bits in all:
what R152 checks before a decode command runs. -/
def CanRead (n : Nat) (s : State) : Prop :=
  s.rcnt.toNat ≤ 8 ∧ s.phantom.toNat + (n - bitsAvailable s) ≤ Config.phantomMax ∧ s.inq.length ≤ s.params.inDepth

/-- A bit read is one bit less to read: it comes from the reader, from the next byte of INQ, or is a phantom bit. -/
theorem readBit_canRead {n : Nat} {s : State} (h : CanRead (n + 1) s) : CanRead n (readBit s).2 := by
  obtain ⟨hr, hp, hq⟩ := h
  simp only [bitsAvailable, Config.phantomMax] at hp
  unfold readBit
  split
  · next h0 =>
    rw [h0] at hp
    split
    · next b rest hi =>
      simp only [hi, List.length_cons] at hp hq
      simp only [CanRead, takeBit, bitsAvailable, Config.phantomMax]
      exact ⟨by decide, by simp at hp ⊢; omega, by omega⟩
    · next hi =>
      simp only [CanRead, bitsAvailable, Config.phantomMax, h0, hi] at hp hq ⊢
      exact ⟨by decide, by simp at hp ⊢; omega, hq⟩
  · next h0 =>
    have hpos : 1 ≤ s.rcnt.toNat := by bv_omega
    have hrcnt : (s.rcnt - 1).toNat = s.rcnt.toNat - 1 := BitVec.toNat_sub_of_le (by bv_omega)
    simp only [CanRead, takeBit, bitsAvailable, Config.phantomMax, hrcnt]
    omega

theorem shiftCode_canRead {n : Nat} {s : State} (h : CanRead (n + 1) s) : CanRead n (shiftCode s) := readBit_canRead h

theorem shiftCodeMany_canRead {n : Nat} {s : State} (h : CanRead n s) : CanRead 0 (shiftCodeMany n s) := by
  induction n generalizing s with
  | zero => exact h
  | succ n ih => exact ih (shiftCode_canRead h)

/-- A decoder pass reads one bit. -/
theorem decPass_canRead {n : Nat} {s : State} (c : RenormCase) (h : CanRead (n + 1) s) :
    CanRead n (shiftCode (shiftBounds c { s with code := s.code - renormOffset c })) :=
  shiftCode_canRead (s := shiftBounds c { s with code := s.code - renormOffset c }) h

/-- RenormDec reads as many bits as RenormSteps counts (42_decoder.md R156). -/
theorem renormDec_canRead {n : Nat} {s : State} (h : CanRead (renormSteps n s.low s.high) s) :
    CanRead 0 (renormDec n s) := by
  induction n generalizing s with
  | zero => exact h
  | succ n ih =>
    unfold renormSteps at h
    unfold renormDec
    cases hc : renormCase s.low s.high <;> simp only [hc] at h ⊢
    case done => exact h
    all_goals exact ih (by
      simpa only [shiftCode_low, shiftCode_high, shiftBounds_low, shiftBounds_high] using decPass_canRead _ h)

/-- R152's check before a decode command runs is what `CanRead` says. -/
theorem canRead_of_inputCheck {n : Nat} {s : State} (hr : s.rcnt.toNat ≤ 8)
    (hp : s.phantom.toNat ≤ Config.phantomMax) (hq : s.inq.length ≤ s.params.inDepth)
    (h : inputCheck n (bitsAvailable s) s.phantom.toNat s.eoi = .enough) : CanRead n s := by
  refine ⟨hr, ?_, hq⟩
  unfold inputCheck at h
  split_ifs at h with h1 h2 h3 <;> omega

/-- A DEC_SYM that runs has the bits that its renormalization reads (42_decoder.md R159). -/
theorem decPlan_run {p : State} {x : Byte} {lo hi : Word} (h : decPlan p = .run x lo hi) :
    inputCheck (renormSteps Config.renormPasses lo hi) (bitsAvailable p) p.phantom.toNat p.eoi = .enough := by
  unfold decPlan at h
  split at h
  · cases h
  · dsimp only at h
    split at h <;> cases h
    assumption

/-- DEC_START reads its 32 bits (42_decoder.md R158). -/
theorem decLoad_canRead {s : State} (h : CanRead 32 (clearReader s)) : CanRead 0 (decLoad s) := by
  have hload := shiftCodeMany_canRead (n := 32)
    (s := { clearReader s with low := 0, high := Config.top, bitcnt := 0, code := 0 }) h
  simpa only [CanRead, bitsAvailable, decLoad] using hload

/-- A DEC_SYM that runs leaves the reader within its bounds (42_decoder.md R159). -/
theorem decPlan_canRead {p : State} {x : Byte} {lo hi : Word} (hp : CanRead 0 p) (h : decPlan p = .run x lo hi) :
    CanRead 0 (renormDec Config.renormPasses { p with low := lo, high := hi }) := by
  obtain ⟨hr, hph, hq⟩ := hp
  exact renormDec_canRead (s := { p with low := lo, high := hi })
    (canRead_of_inputCheck (s := p) hr (by omega) hq (decPlan_run h))

/-! ## The bounds kept by the predictor's Tail (40_predictor.md R110) -/

/-- The history beyond HIST_VALID stays 0 and SYMCNT stays at most 65534 when a symbol is counted. -/
theorem tail_boundsOk {s : State} (x : Byte) (hs : BoundsOk s) : BoundsOk (tail s x) := by
  obtain ⟨hinq, hph, hrc, hidle, hv, hh, hsy, hd⟩ := hs
  obtain ⟨hreg, _, hshift, hvalid⟩ := tail_registers s x
  refine ⟨by simpa using hinq, by simpa using hph, by simpa using hrc, by simpa using hidle, by omega, ?_, ?_,
    by simpa using hd⟩
  · rintro ⟨j, hj⟩ hle
    simp only [hvalid] at hle
    obtain ⟨j, rfl⟩ : ∃ i, j = i + 1 := ⟨j - 1, by omega⟩
    exact (hshift ⟨j, by omega⟩).trans (hh ⟨j, by omega⟩ (by simp only; omega))
  · have hcnt : (tail s x).symcnt = if s.rint ≤ s.symcnt + 1 then 0 else s.symcnt + 1 := by rw [hreg]
    rw [hcnt]
    split
    · decide
    · have hrint := s.rint.isLt
      bv_omega

/-! ## DIAG_SEL (44_host_access.md R204) -/

theorem diagStored_slot (tb : Nat) (v : Word) : (diagStored tb v).extractLsb' 28 3 = v.extractLsb' 28 3 := by
  unfold diagStored
  ext i hi
  simp only [BitVec.getElem_extractLsb', BitVec.getLsbD_append]
  simp [show ¬ 28 + i < 28 by omega, show 28 + i < 31 by omega, hi]

theorem diagStored_index (tb : Nat) (v : Word) : diagIndex (diagStored tb v) = diagIndex v % 2 ^ tb := by
  have hlt : diagIndex v % 2 ^ tb < 2 ^ 20 := Nat.lt_of_le_of_lt (Nat.mod_le _ _) (v.extractLsb' 8 20).isLt
  have hfield : (diagStored tb v).extractLsb' 8 20 = BitVec.ofNat 20 (diagIndex v % 2 ^ tb) := by
    unfold diagStored
    ext i hi
    simp only [BitVec.getElem_extractLsb', BitVec.getLsbD_append]
    simp [hi, show 8 + i < 31 by omega, show 8 + i < 28 by omega]
  rw [diagIndex, hfield, BitVec.toNat_ofNat, Nat.mod_eq_of_lt hlt]

theorem diagStored_sym (tb : Nat) (v : Word) : (diagStored tb v).extractLsb' 0 8 = v.extractLsb' 0 8 := by
  unfold diagStored
  ext i hi
  simp only [BitVec.getElem_extractLsb', BitVec.getLsbD_append]
  simp [hi, show i < 31 by omega, show i < 28 by omega]

/-- A masked value is stored as it is. -/
theorem diagStored_diagStored (tb : Nat) (v : Word) : diagStored tb (diagStored tb v) = diagStored tb v := by
  rw [diagStored, diagStored_slot, diagStored_index, diagStored_sym, Nat.mod_mod, ← diagStored]

/-! ## The bounds through commands, accesses and steps -/

/-- A state of a decode stream whose reader is within its bounds keeps the bounds of a state that it agrees with
elsewhere. -/
theorem CanRead.boundsOk {n : Nat} {s t : State} (h : CanRead n t) (hs : BoundsOk s) (hmode : t.mode = .dec)
    (hparams : t.params = s.params) (hvalid : t.histValid = s.histValid) (hhist : t.hist = s.hist)
    (hsymcnt : t.symcnt = s.symcnt) (hdiag : t.diagSel = s.diagSel) : BoundsOk t := by
  obtain ⟨_, _, _, _, hv, hh, hsy, hd⟩ := hs
  obtain ⟨hr, hp, hq⟩ := h
  refine ⟨hq, by omega, hr, by simp [hmode], by rwa [hvalid], ?_, by rwa [hsymcnt], by rwa [hparams, hdiag]⟩
  rwa [hvalid, hhist]

/-- The symbol count of a stream is not bounded. -/
theorem boundsOk_streamSyms {s : State} (n : Word) (hs : BoundsOk s) : BoundsOk { s with streamSyms := n } := hs

/-- A fault leaves the bounded elements, and FAULT asks nothing more of the reader. -/
theorem raiseFault_boundsOk {s : State} (e : ErrCause) (hs : BoundsOk s) : BoundsOk (raiseFault e s) := by
  obtain ⟨hinq, hph, hrc, _, hv, hh, hsy, hd⟩ := hs
  exact ⟨hinq, hph, hrc, by simp, hv, hh, hsy, hd⟩

/-- Every command keeps the bounds, if MODE allows it. -/
theorem commandRan_boundsOk {s u : State} {i : Instr} (hm : modeAllows i s.mode = true) (hs : BoundsOk s)
    (hu : CommandRan s i u) : BoundsOk u := by
  have ⟨hinq, hph, hrc, hidle, hv, hh, hsy, hd⟩ := hs
  cases hu with
  | nop | tblClear | predict => exact hs
  | ctxClear => exact ⟨hinq, hph, hrc, hidle, by simp, by simp, hsy, hd⟩
  | refresh => exact ⟨hinq, hph, hrc, hidle, hv, hh, by simp, hd⟩
  | abort | decEnd => exact ⟨by simp, by simp, by simp, by simp, hv, hh, hsy, hd⟩
  | learn x => exact tail_boundsOk x hs
  | encStart =>
    have hmode : s.mode = .idle := by simpa [modeAllows] using hm
    exact ⟨hinq, hph, hrc, fun _ => hidle (.inl hmode), hv, hh, hsy, hd⟩
  | encSym x u _ hu =>
    obtain rfl : (renormEnc Config.renormPasses (encNarrowed (predict s) x)).1 = u := by rw [hu]
    exact boundsOk_streamSyms _ (tail_boundsOk x (by rw [renormEnc_frame]; exact hs))
  | encOverflow x u _ hu =>
    obtain rfl : (renormEnc Config.renormPasses (encNarrowed (predict s) x)).1 = u := by rw [hu]
    exact raiseFault_boundsOk _ (by rw [renormEnc_frame]; exact hs)
  | encFlush =>
    have hmode : s.mode = .enc := by simpa [modeAllows] using hm
    simpa [BoundsOk, hmode] using hs
  | encInvalid | decInvalid | decTruncated => exact raiseFault_boundsOk (s := predict s) _ hs
  | decStartTruncated =>
    exact raiseFault_boundsOk _ ⟨hinq, by simp, by simp, by simp, hv, hh, hsy, hd⟩
  | decStart hc =>
    have hread : CanRead 0 (decLoad s) := decLoad_canRead
      (canRead_of_inputCheck (by simp) (by simp) hinq (by simpa [decStartCheck, bitsAvailable] using hc))
    exact hread.boundsOk hs rfl (by simp [decLoad]) (by simp [decLoad]) (by simp [decLoad]) (by simp [decLoad])
      (by simp [decLoad])
  | decSym x lo hi hc =>
    have hmode : s.mode = .dec := by simpa [modeAllows] using hm
    have hread : CanRead 0 (predict s) := ⟨hrc, by simpa using hph, hinq⟩
    have hbounds := (decPlan_canRead hread hc).boundsOk hs (by simpa using hmode) (by simp) (by simp) (by simp)
      (by simp) (by simp)
    exact boundsOk_streamSyms _ (tail_boundsOk x hbounds)

/-- The bounds hold after a reset (10_state.md R54). -/
theorem resetBlock_boundsOk (s : State) : BoundsOk (resetBlock s) := by
  have hdiag : diagStored s.params.tableBits 0 = 0 := by simp [diagStored, diagIndex]
  refine ⟨by simp [State.resetWith], by simp [State.resetWith], by simp [State.resetWith], by simp [State.resetWith],
    by simp [State.resetWith], ?_, by simp [State.resetWith], hdiag⟩
  intro j _
  simp [State.resetWith]

/-- A DIN write is refused where INQ is full, a DIAG_SEL write stores a masked value, and the other accesses leave the
bounded elements. -/
theorem access_boundsOk {a : Access} {i : Instr} {s t : State} (hs : BoundsOk s) (hd : decodeAccess a = .ok i)
    (h : exec i s = .next t) : BoundsOk t := by
  have ⟨hinq, hph, hrc, hidle, hv, hh, hsy, hdiag⟩ := hs
  refine access_keeps BoundsOk hd h (here := hs) (read := fun _ _ hu => hu) (draw := hs) (pop := fun _ _ _ => hs)
    (rejected := fun _ => hs) (reset := resetBlock_boundsOk s) (accepted := fun _ _ _ _ _ _ => hs)
    (queued := fun _ hlen => ⟨by simp; omega, hph, hrc, hidle, hv, hh, hsy, hdiag⟩) (errors := fun _ => hs)
    (status := fun _ _ => hs) (enable := fun _ => hs) (ended := hs) (score := fun _ => hs)
    (diag := fun v => ⟨hinq, hph, hrc, hidle, hv, hh, hsy, diagStored_diagStored _ v⟩) (config := fun u _ _ hu => ?_)
  cases hu <;> exact hs

/-- Settles O58: the bounds survive a reset, every command that MODE allows and every access. -/
theorem stepKeepsBounds : Obligations.StepKeepsBounds := by
  intro s t hs h
  exact step_keeps BoundsOk h (here := hs.bounds) (environment := fun _ _ _ hu => hu) (reset := resetBlock_boundsOk s)
    (command := fun _ _ u hw hi hu => show BoundsOk u from
      commandRan_boundsOk (pendOk_decode hs.pend hw hi).2 hs.bounds hu)
    (access := fun rest _ _ _ hd hx => access_boundsOk (s := { s with hostq := rest }) hs.bounds hd hx)

end Sys2Proof.Machine
end

section
/-! SUPPORT. The state after reset, the reads that are defined in every state, and the fields of STATUS. -/

namespace Sys2Proof.Machine

/-! ## The reset state (10_state.md R54) -/

/-- A concatenation as a number: the upper part moved up by the lower part's width. -/
theorem append_toNat {m n : Nat} (x : BitVec m) (y : BitVec n) : (x ++ y).toNat = x.toNat * 2 ^ n + y.toNat := by
  rw [BitVec.toNat_append, ← Nat.shiftLeft_add_eq_or_of_lt y.isLt, Nat.shiftLeft_eq]

/-- PARAM as a number: MAX_ORDERS, OUT_DEPTH, IN_DEPTH and TABLE_BITS, each in its byte (10_state.md R22). -/
theorem paramValue_eq (p : Params) : paramValue p =
    BitVec.ofNat 32 (8 * 2 ^ 24 + p.outDepth % 32 * 2 ^ 16 + p.inDepth % 32 * 2 ^ 8 + p.tableBits % 32) := by
  have key : ∀ a b c : BitVec 5, (0#4 ++ (8#4 ++ (0#3 ++ (a ++ (0#3 ++ (b ++ (0#3 ++ c))))))).toNat =
      8 * 2 ^ 24 + a.toNat * 2 ^ 16 + b.toNat * 2 ^ 8 + c.toNat := by
    intro a b c
    simp only [append_toNat, BitVec.toNat_ofNat]
    omega
  apply BitVec.eq_of_toNat_eq
  refine (key _ _ _).trans ?_
  simp only [BitVec.toNat_ofNat]
  omega

/-- Settles O1: every field of the reset state is the value its row of R54 gives, and an unlisted entry is initial. -/
theorem resetGivesEveryElementItsValue : Obligations.ResetGivesEveryElementItsValue := by
  rintro p s rfl
  have hirq : irq (State.resetWith p) = false := by simp [irq, State.resetWith]
  have hentry : ∀ k i, (State.resetWith p).entry k i = Entry.initial := fun _ _ => rfl
  refine ⟨rfl, rfl, rfl, rfl, rfl, rfl, rfl, rfl, rfl, rfl, rfl, ?_, rfl, rfl, rfl, rfl, ?_, rfl, rfl, rfl, rfl, rfl, rfl,
    rfl, rfl, rfl, rfl, hirq, rfl, rfl, rfl, rfl, rfl, rfl, rfl, ?_, rfl, rfl, paramValue_eq p⟩
  · intro j
    simp [State.resetWith]
  · intro x
    simp [State.resetWith]
  · intro k i x
    rw [hentry]
    simp [Entry.initial, Config.pinit]

/-- Settles O54: each part of the invariant on the reset state. -/
theorem resetStateIsSafe : Obligations.ResetStateIsSafe := by
  intro p hp
  exact
    { config := ⟨hp, by simp [State.resetWith]⟩
      tables := tablesOk_of_mem_nil rfl
      pend := by simp [PendOk, State.resetWith]
      bounds := resetBlock_boundsOk (State.resetWith p)
      coder := by simp [CoderOk, State.resetWith] }

/-! ## The reads defined in every state (44_host_access.md R191 to R198, R203 to R205) -/

/-- A read of any register but DOUT goes through `readReg`. -/
theorem exec_readOf {r : Reg} (h : r ≠ .dout) (s : State) : exec (readOf r) s = .next (readReg r s) := by
  cases r with
  | dout => exact absurd rfl h
  | _ => rfl

/-- SOFT_RESET writes every register that some command may write (43_control.md R173). -/
theorem mayWrite_softReset {i : Instr} {r : Reg} (h : mayWrite i r = true) : mayWrite .softReset r = true := by
  cases i with
  | softReset => exact h
  | tblClear | ctxClear | refresh | abort | predict | learn | encStart | encSym | encFlush | decStart | decSym | decEnd =>
    simp only [mayWrite, tailWrites, Bool.or_eq_true, beq_iff_eq, decide_eq_true_eq, List.mem_cons] at h ⊢
    tauto
  | _ => exact absurd h Bool.false_ne_true

/-- A register that no command writes reads as its value, and the read changes nothing else. -/
theorem exec_readOf_of_not_written {r : Reg} {s : State} {v : Word} (hd : r ≠ .dout)
    (hw : mayWrite .softReset r = false) (hv : regValue s r = v) :
    exec (readOf r) s = .next { s with reads := v :: s.reads } := by
  have hopen : readOpen s r = false := by
    unfold readOpen
    split
    · exact Bool.eq_false_iff.mpr fun h => by simp [mayWrite_softReset h] at hw
    · rfl
  rw [exec_readOf hd]
  simp [readReg, hopen, hv, hostRead]

/-- INT_STATUS as a number (10_state.md R25). -/
theorem intBits_eq (s : State) : zext32 (intBits s) =
    BitVec.ofNat 32 ((if s.outq = [] then 0 else 4) + (if s.error then 2 else 0) + (if s.done then 1 else 0)) := by
  unfold intBits
  generalize s.outq = q
  cases q with
  | nil => cases s.error <;> cases s.done <;> rfl
  | cons b q => rw [if_neg (List.cons_ne_nil b q), List.isEmpty_cons]; cases s.error <;> cases s.done <;> rfl

/-- Settles O40: none of these registers is written by a command, and each value is the one its rule gives. -/
theorem alwaysDefinedReads : Obligations.AlwaysDefinedReads := by
  intro s k row h
  simp only [List.mem_cons, List.not_mem_nil, or_false] at h
  rcases h with rfl | rfl | rfl | rfl | rfl | rfl | rfl | rfl | rfl | rfl | rfl | rfl | rfl | rfl | rfl | rfl | rfl
  · exact exec_readOf_of_not_written (r := .id) nofun rfl rfl
  · exact exec_readOf_of_not_written (r := .version) nofun rfl rfl
  · exact exec_readOf_of_not_written (r := .param) nofun rfl (paramValue_eq s.params)
  · exact exec_readOf_of_not_written (r := .cmd) nofun rfl rfl
  · exact exec_readOf_of_not_written (r := .din) nofun rfl rfl
  · exact exec_readOf_of_not_written (r := .eoi) nofun rfl rfl
  · exact exec_readOf_of_not_written (r := .status) nofun rfl rfl
  · exact exec_readOf_of_not_written (r := .err) nofun rfl rfl
  · exact exec_readOf_of_not_written (r := .intStatus) nofun rfl (intBits_eq s)
  · exact exec_readOf_of_not_written (r := .intEnable) nofun rfl rfl
  · exact exec_readOf_of_not_written (r := .cfgNord) nofun rfl rfl
  · exact exec_readOf_of_not_written (r := .cfgCeil) nofun rfl rfl
  · exact exec_readOf_of_not_written (r := .cfgRint) nofun rfl rfl
  · exact exec_readOf_of_not_written (r := .order k) nofun rfl rfl
  · exact exec_readOf_of_not_written (r := .weight k) nofun rfl rfl
  · exact exec_readOf_of_not_written (r := .scoreIdx) nofun rfl rfl
  · exact exec_readOf_of_not_written (r := .diagSel) nofun rfl rfl

/-! ## HOLD_IN, IRQ and STATUS (10_state.md R23, R48, R49) -/

/-- A command is held exactly if bits are missing and EOI = 0 (42_decoder.md R152). -/
theorem inputCheck_held_iff (n a phantom : Nat) (eoi : Bool) :
    inputCheck n a phantom eoi = .held ↔ eoi = false ∧ a < n := by
  unfold inputCheck
  split_ifs <;> simp_all

/-- DEC_SYM is held exactly if TOTAL is not 0 and the bits of its renormalization are held (42_decoder.md R159). -/
theorem decPlan_held_iff (p : State) : decPlan p = .held ↔
    p.total ≠ 0 ∧ p.eoi = false ∧ bitsAvailable p < renormSteps Config.renormPasses
      (encNarrow p (symbolAt p (target p))).1 (encNarrow p (symbolAt p (target p))).2 := by
  rw [← inputCheck_held_iff _ _ p.phantom.toNat]
  unfold decPlan
  by_cases h : p.total = 0
  · simp [h]
  · simp only [h, if_false, ne_eq, not_false_eq_true, true_and]
    split <;> simp_all

theorem holdIn_iff (s : State) : holdIn s = true ↔
    (pendCmd s = some .decStart ∧ decStartCheck s = .held) ∨
      (pendCmd s = some .decSym ∧ decPlan (predict s) = .held) := by
  unfold holdIn
  split <;> simp_all

/-- The IRQ line, source by source (10_state.md R49). -/
theorem irq_iff (s : State) : irq s = true ↔
    (s.done = true ∧ s.intEnable.getLsbD 0 = true) ∨ (s.error = true ∧ s.intEnable.getLsbD 1 = true) ∨
      (s.outq ≠ [] ∧ s.intEnable.getLsbD 2 = true) := by
  have key : ∀ (a b c : Bool) (e : BitVec 3),
      (((BitVec.ofBool a ++ (BitVec.ofBool b ++ BitVec.ofBool c)) &&& e) != 0) =
        (c && e.getLsbD 0 || (b && e.getLsbD 1 || a && e.getLsbD 2)) := by decide
  have hirq : irq s = _ := key (!s.outq.isEmpty) s.error s.done s.intEnable
  simp [hirq]

theorem statusValue_mode (s : State) : (statusValue s).extractLsb' 0 2 = s.mode.code := by
  ext i hi
  have hlt : ∀ n, 2 ≤ n → i < n := fun _ hn => Nat.lt_of_lt_of_le hi hn
  simp only [statusValue, BitVec.getElem_extractLsb', BitVec.getLsbD_append]
  simp [hlt]

/-- INQ_LEVEL is the length of the queue, cut to its five bits. -/
theorem statusValue_inqLevel (s : State) : (statusValue s).extractLsb' 8 5 = BitVec.ofNat 5 s.inq.length := by
  ext i hi
  have hlt : ∀ n, 13 ≤ n → 8 + i < n := by omega
  simp only [statusValue, BitVec.getElem_extractLsb', BitVec.getLsbD_append]
  simp [hi, hlt]

/-- OUTQ_LEVEL is the length of the queue, at most OUT_DEPTH, cut to its five bits. -/
theorem statusValue_outqLevel (s : State) :
    (statusValue s).extractLsb' 16 5 = BitVec.ofNat 5 (min s.outq.length s.params.outDepth) := by
  ext i hi
  have hlt : ∀ n, 21 ≤ n → 16 + i < n := by omega
  simp only [statusValue, BitVec.getElem_extractLsb', BitVec.getLsbD_append]
  simp [hi, hlt]

theorem statusValue_busy (s : State) : (statusValue s).getLsbD 2 = busy s := by
  simp only [statusValue, BitVec.getLsbD_append]
  simp

theorem statusValue_holdIn (s : State) : (statusValue s).getLsbD 3 = holdIn s := by
  simp only [statusValue, BitVec.getLsbD_append]
  simp

theorem statusValue_eoi (s : State) : (statusValue s).getLsbD 4 = s.eoi := by
  simp only [statusValue, BitVec.getLsbD_append]
  simp

theorem statusValue_errAny (s : State) : (statusValue s).getLsbD 23 = decide (s.err ≠ 0) := by
  simp only [statusValue, BitVec.getLsbD_append]
  by_cases h : s.err = 0#9 <;> simp [h]

/-- Settles O48: each field of STATUS is a part of the concatenation, HOLD_IN and IRQ by their own lemmas. -/
theorem statusFieldsAndIrq : Obligations.StatusFieldsAndIrq := by
  intro s
  refine ⟨?mode, ?busy, ?hold, ?eoi, ?levels, ?err, ?reserved, irq_iff s⟩
  case mode =>
    rw [statusValue_mode]
    cases s.mode <;> rfl
  case busy =>
    simp [-BitVec.getLsbD_eq_getElem, statusValue_busy, busy, Option.isSome_iff_ne_none]
  case hold =>
    rintro p sym lo hi rfl rfl hb
    have hb' : encNarrow (predict s) (symbolAt (predict s) (target (predict s))) = (lo, hi) := hb.symm
    rw [statusValue_holdIn, holdIn_iff, decPlan_held_iff, hb', decStartCheck, inputCheck_held_iff]
    simp only [bitsAvailable, predict_eoi, predict_rcnt, predict_inq]
    tauto
  case eoi => exact statusValue_eoi s
  case levels =>
    rintro hin ⟨_, _, _, hdin, _, hdout⟩
    rw [statusValue_inqLevel, statusValue_outqLevel, BitVec.toNat_ofNat, BitVec.toNat_ofNat]
    omega
  case err => exact statusValue_errAny s
  case reserved =>
    simp only [statusValue, BitVec.getLsbD_append]
    simp

end Sys2Proof.Machine
end

section
/-! SUPPORT. The accesses that change nothing, and the accesses that are refused (20_memory.md R63, R66). -/

namespace Sys2Proof.Machine

/-! ## Ignored writes and reads of 0 -/

/-- The read-only registers, of the indexed groups the one at `k` (20_memory.md R66). -/
def readOnlyRegs (k : Fin 8) : List Reg :=
  [.id, .version, .param, .status, .dout, .result, .total, .symcnt, .streamSyms, .bitcnt, .low, .high, .code, .pending,
    .histValid, .phantom, .scoreData, .diagData, .diagTotal, .hist k, .idx k]

theorem exec_writeOf_of_readOnly {k : Fin 8} {r : Reg} (h : r ∈ readOnlyRegs k) (v : Word) (s : State) :
    exec (writeOf v r) s = .next s := by
  simp only [readOnlyRegs, List.mem_cons, List.not_mem_nil, or_false] at h
  rcases h with rfl | rfl | rfl | rfl | rfl | rfl | rfl | rfl | rfl | rfl | rfl | rfl | rfl | rfl | rfl | rfl | rfl |
    rfl | rfl | rfl | rfl <;> rfl

theorem exec_unmapped_write (off : BitVec 12) (v : Word) (s : State) :
    exec (.unmapped off (.write v)) s = .next s := rfl

theorem exec_unmapped_read (off : BitVec 12) (s : State) :
    exec (.unmapped off .read) s = .next { s with reads := 0 :: s.reads } := rfl

/-- Settles O43: the writes are those of the read-only registers and the unmapped one; no command writes CMD, DIN or
EOI, so that they read as their value, 0. -/
theorem ignoredAccesses : Obligations.IgnoredAccesses := by
  intro s v k off
  refine ⟨fun i hi => ?writes, fun i hi => ?reads⟩
  case writes =>
    have hi : i ∈ (readOnlyRegs k).map (writeOf v) ++ [.unmapped off (.write v)] := hi
    rcases List.mem_append.mp hi with h | h
    · obtain ⟨r, hr, rfl⟩ := List.mem_map.mp h
      exact exec_writeOf_of_readOnly hr v s
    · obtain rfl := List.mem_singleton.mp h
      exact exec_unmapped_write off v s
  case reads =>
    simp only [List.mem_cons, List.not_mem_nil, or_false] at hi
    rcases hi with rfl | rfl | rfl | rfl
    · exact exec_readOf_of_not_written (r := .cmd) nofun rfl rfl
    · exact exec_readOf_of_not_written (r := .din) nofun rfl rfl
    · exact exec_readOf_of_not_written (r := .eoi) nofun rfl rfl
    · exact exec_unmapped_read off s

/-! ## The refusal of an inadmissible access -/

/-- An access of another width than 32 bits, or not at a multiple of 4, does not decode (20_memory.md R63). -/
theorem decodeAccess_of_inadmissible {a : Access} (h : a.bytes ≠ 4 ∨ a.off.toNat % 4 ≠ 0) :
    ∃ e, decodeAccess a = .error e := by
  unfold decodeAccess
  by_cases hb : a.bytes = 4
  · have ho : a.off.toNat % 4 ≠ 0 := h.resolve_left (not_not.mpr hb)
    exact ⟨.misaligned, by rw [if_neg (not_not.mpr hb), if_pos ho]⟩
  · exact ⟨.badWidth, if_pos hb⟩

/-- A host event marked `early` comes before the block's step (assumption 1). -/
theorem blockTurn_of_early {s : State} {ev : HostEvent} {rest : List HostEvent} (hq : s.hostq = ev :: rest)
    (he : ev.early = true) : blockTurn s = false := by
  simp [blockTurn, hq, he]

/-- Where it is not the block's turn, the next host event is what runs (20_memory.md R69). -/
theorem fetch_of_hostTurn {s : State} {ev : HostEvent} {rest : List HostEvent} (hq : s.hostq = ev :: rest)
    (hb : blockTurn s = false) : fetch s = fetchHost ev.act { s with hostq := rest } := by
  simp [fetch, hb, hq]

/-- Outside reset the environment's access is refused with the error it decodes to. -/
theorem fetchHost_access_of_error {a : Access} {e : DecodeError} {s : State} (hpin : s.resetPin = false)
    (hd : decodeAccess a = .error e) : fetchHost (.access a) s = .refused (.busError e) := by
  simp [fetchHost, hpin, hd]

theorem step_of_fetch_refused {s : State} {r : Refusal} (h : fetch s = .refused r) : step s = .refused r := by
  simp [step, h]

/-- Settles O49: the early access is what runs next, and it does not decode. -/
theorem inadmissibleAccessIsRefused : Obligations.InadmissibleAccessIsRefused := by
  intro s a rest hq hpin ha
  obtain ⟨e, hd⟩ := decodeAccess_of_inadmissible ha
  have hfetch : fetch s = .refused (.busError e) :=
    (fetch_of_hostTurn hq (blockTurn_of_early hq rfl)).trans (fetchHost_access_of_error hpin hd)
  exact ⟨e, step_of_fetch_refused hfetch⟩

end Sys2Proof.Machine
end

section
/-! SUPPORT. The decoders and the encoder against each other: the command words of the opcode map (30_encoding.md R80 to
R85) and the admitted accesses (30_encoding.md R90, 20_memory.md R63), each said once and used in both directions of the
round trip. -/

namespace Sys2Proof

open Machine

/-! ## Command words -/

/-- `form.Reads sym i`: a word of the opcode row `form` whose SYM field is `sym` is the operation `i`; a row without
operand takes SYM = 0 only (30_encoding.md R82). -/
inductive CmdForm.Reads : CmdForm → Byte → Instr → Prop where
  | plain (i : Instr) : Reads (.plain i) 0 i
  | withSym (f : Byte → Instr) (sym : Byte) : Reads (.withSym f) sym (f sym)

/-- The command words are the words built with RSV = 0 from an opcode of the map and a SYM that its row takes. -/
theorem decodeCmd_eq_ok_iff {w : Word} {i : Instr} :
    decodeCmd w = .ok i ↔ ∃ op form sym, cmdForm op = some form ∧ form.Reads sym i ∧ w = cmdWord op sym := by
  constructor
  · intro h
    unfold decodeCmd at h
    split at h
    case h_1 => cases h
    case h_2 form hform =>
      split at h
      case isTrue => cases h
      case isFalse hrsv =>
        refine ⟨opField w, form, symField w, hform, ?_, (cmdWord_fields (not_not.mp hrsv)).symm⟩
        cases form with
        | plain j =>
          dsimp only at h
          split at h
          case isTrue hsym =>
            cases h
            exact hsym ▸ .plain i
          case isFalse => cases h
        | withSym f =>
          cases h
          exact .withSym f _
  · rintro ⟨op, form, sym, hform, hr, rfl⟩
    cases hr <;> simp [decodeCmd, opField_cmdWord, rsvField_cmdWord, symField_cmdWord, hform]

/-- The encoder agrees with the opcode map, row by row (30_encoding.md R83). -/
theorem encode_of_reads {op : BitVec 8} {form : CmdForm} {sym : Byte} {i : Instr} (hform : cmdForm op = some form)
    (hr : form.Reads sym i) : encode i = .command (cmdWord op sym) := by
  obtain ⟨n, hn⟩ : ∃ n, op.toNat = n := ⟨_, rfl⟩
  obtain rfl : op = BitVec.ofNat 8 n := by rw [← hn, BitVec.ofNat_toNat, BitVec.setWidth_eq]
  unfold cmdForm at hform
  rw [hn] at hform
  split at hform
  case h_15 => cases hform
  all_goals
    cases hform
    cases hr
    rfl

theorem wellFormed_of_encode_command {i : Instr} {w : Word} (h : encode i = .command w) : WellFormed i = true := by
  cases i with
  | unmapped off kind => cases h
  | _ => rfl

theorem decode_cmdWord {op : BitVec 8} {form : CmdForm} {sym : Byte} {i : Instr} (hform : cmdForm op = some form)
    (hr : form.Reads sym i) : decode (.command (cmdWord op sym)) = .ok i :=
  decodeCmd_eq_ok_iff.mpr ⟨op, form, sym, hform, hr, rfl⟩

/-! ## Accesses -/

theorem encode_readOf (r : Reg) : encode (readOf r) = readAccess r := by cases r <;> rfl

theorem encode_writeOf (v : Word) (r : Reg) : encode (writeOf v r) = writeAccess r v := by cases r <;> rfl

theorem wellFormed_readOf (r : Reg) : WellFormed (readOf r) = true := by cases r <;> rfl

theorem wellFormed_writeOf (v : Word) (r : Reg) : WellFormed (writeOf v r) = true := by cases r <;> rfl

theorem ofNat_offset_aligned (r : Reg) : (BitVec.ofNat 12 r.offset).toNat % 4 = 0 := by
  cases r with
  | order k => exact Laws.Admitted.indexed 0x0A0 k rfl
  | weight k => exact Laws.Admitted.indexed 0x0C0 k rfl
  | hist j => exact Laws.Admitted.indexed 0x140 j rfl
  | idx k => exact Laws.Admitted.indexed 0x160 k rfl
  | _ => rfl

theorem decode_readAccess (r : Reg) : decode (readAccess r) = .ok (readOf r) := by
  simp only [decode, readAccess, decodeAccess, ofNat_offset_aligned, regAt_offset_self, ne_eq, not_true_eq_false,
    if_false]

theorem decode_writeAccess (r : Reg) (v : Word) : decode (writeAccess r v) = .ok (writeOf v r) := by
  simp only [decode, writeAccess, decodeAccess, ofNat_offset_aligned, regAt_offset_self, ne_eq, not_true_eq_false,
    if_false]

/-- The well-formed offsets of the unmapped row are the aligned offsets at which there is no register. -/
theorem wellFormed_unmapped_iff {off : BitVec 12} {kind : AccessKind} :
    WellFormed (.unmapped off kind) = true ↔ off.toNat % 4 = 0 ∧ regAt off = none := by
  simp only [WellFormed, Bool.and_eq_true, beq_iff_eq]
  refine and_congr_right fun hal => ?_
  rw [← regAt_isNone hal, Option.isNone_iff_eq_none]

theorem decode_unmapped {off : BitVec 12} (kind : AccessKind) (hal : off.toNat % 4 = 0) (hr : regAt off = none) :
    decode (.access { kind := kind, off := off, bytes := 4 }) = .ok (.unmapped off kind) := by
  simp [decode, decodeAccess, hal, hr]

/-- An admitted access is the encoding of the operation it selects. -/
theorem encode_of_decodeAccess {a : Access} {i : Instr} (h : decodeAccess a = .ok i) :
    encode i = .access a ∧ WellFormed i = true := by
  have hoff {r : Reg} (hr : regAt a.off = some r) : BitVec.ofNat 12 r.offset = a.off := by
    rw [regAt_offset hr, BitVec.ofNat_toNat, BitVec.setWidth_eq]
  obtain ⟨hb, hal, ⟨r, hr, hk, rfl⟩ | ⟨r, v, hr, hk, rfl⟩ | ⟨hr, rfl⟩⟩ := decodeAccess_cases h
  · exact ⟨by rw [encode_readOf, readAccess, hoff hr, ← hk, ← hb], wellFormed_readOf r⟩
  · exact ⟨by rw [encode_writeOf, writeAccess, hoff hr, ← hk, ← hb], wellFormed_writeOf v r⟩
  · exact ⟨by rw [encode, ← hb], wellFormed_unmapped_iff.mpr ⟨hal, hr⟩⟩

/-! ## The round trip -/

/-- Settles O52: each command by its row of the opcode map, each access by the register at its offset. -/
theorem decodeOfEncode : Obligations.DecodeOfEncode := by
  intro i hwf
  cases i with
  | nop | softReset | tblClear | ctxClear | refresh | abort | predict | encStart | encFlush | decStart | decSym
  | decEnd => exact decode_cmdWord rfl (.plain _)
  | learn sym => exact decode_cmdWord rfl (.withSym .learn sym)
  | encSym sym => exact decode_cmdWord rfl (.withSym .encSym sym)
  | unmapped off kind =>
    obtain ⟨hal, hr⟩ := wellFormed_unmapped_iff.mp hwf
    exact decode_unmapped kind hal hr
  | rdId | rdVersion | rdParam | rdCmd | rdStatus | rdErr | rdIntStatus | rdIntEnable | rdDin | rdEoi | rdDout
  | rdResult | rdTotal | rdSymcnt | rdStreamSyms | rdBitcnt | rdLow | rdHigh | rdCode | rdPending | rdHistValid
  | rdPhantom | rdCfgNord | rdCfgCeil | rdCfgRint | rdScoreIdx | rdScoreData | rdDiagSel | rdDiagData | rdDiagTotal | rdOrder k
  | rdWeight k | rdHist k | rdIdx k => exact decode_readAccess _
  | wrId v | wrVersion v | wrParam v | wrCmd v | wrStatus v | wrErr v | wrIntStatus v | wrIntEnable v | wrDin v
  | wrEoi v | wrDout v | wrResult v | wrTotal v | wrSymcnt v | wrStreamSyms v | wrBitcnt v | wrLow v | wrHigh v
  | wrCode v | wrPending v | wrHistValid v | wrPhantom v | wrCfgNord v | wrCfgCeil v | wrCfgRint v | wrScoreIdx v
  | wrScoreData v | wrDiagSel v | wrDiagData v | wrDiagTotal v | wrOrder k v | wrWeight k v | wrHist k v
  | wrIdx k v => exact decode_writeAccess _ v

/-- Settles O53: a command word is rebuilt from its opcode and SYM, an access from its register's offset. -/
theorem encodeOfDecode : Obligations.EncodeOfDecode := by
  intro p i h
  cases p with
  | command w =>
    obtain ⟨op, form, sym, hform, hr, rfl⟩ := decodeCmd_eq_ok_iff.mp h
    have henc := encode_of_reads hform hr
    exact ⟨henc, wellFormed_of_encode_command henc⟩
  | access a => exact encode_of_decodeAccess h

/-! ## The legal words -/

/-- The 24 bits above SYM are OP and RSV, so with RSV = 0 they fix a command word up to its SYM (R80). -/
theorem extractLsb'_eq_iff_cmdWord {w : Word} {op : BitVec 8} :
    w.extractLsb' 8 24 = op ++ 0#16 ↔ ∃ sym, w = cmdWord op sym := by
  have hw : w.extractLsb' 8 24 = opField w ++ rsvField w :=
    (BitVec.extractLsb'_append_extractLsb'_eq_extractLsb' (len₁ := 16) (len₂ := 8) rfl).symm
  rw [hw]
  constructor
  · intro h
    have hop : opField w = op := by
      simpa only [BitVec.extractLsb'_append_eq_left] using congrArg (BitVec.extractLsb' (n := 8 + 16) 16 8) h
    have hrsv : rsvField w = 0#16 := by
      simpa only [BitVec.extractLsb'_append_eq_right] using congrArg (BitVec.extractLsb' (n := 8 + 16) 0 16) h
    exact ⟨symField w, by rw [← hop, cmdWord_fields hrsv]⟩
  · rintro ⟨sym, rfl⟩
    rw [opField_cmdWord, rsvField_cmdWord]
    rfl

/-- Settles O3: a word that decodes is the encoding of a command, and each listed word is built from an opcode of the
map. -/
theorem legalCommandWords : Obligations.LegalCommandWords := by
  intro w
  constructor
  · rintro ⟨i, h⟩
    obtain ⟨henc, -⟩ := encodeOfDecode (.command w) i h
    cases i with
    | nop | softReset | tblClear | ctxClear | refresh | abort | predict | encStart | encFlush | decStart | decSym
    | decEnd =>
      cases henc
      decide
    | learn sym =>
      cases henc
      exact .inr (.inl (extractLsb'_eq_iff_cmdWord (op := 0x07).mpr ⟨sym, rfl⟩))
    | encSym sym =>
      cases henc
      exact .inr (.inr (extractLsb'_eq_iff_cmdWord (op := 0x11).mpr ⟨sym, rfl⟩))
    | _ => cases henc
  · rintro (h | h | h)
    · simp only [List.mem_cons, List.not_mem_nil, or_false] at h
      rcases h with rfl | rfl | rfl | rfl | rfl | rfl | rfl | rfl | rfl | rfl | rfl | rfl <;> exact ⟨_, rfl⟩
    · obtain ⟨sym, rfl⟩ := extractLsb'_eq_iff_cmdWord (op := 0x07).mp h
      exact ⟨.learn sym, decode_cmdWord rfl (.withSym .learn sym)⟩
    · obtain ⟨sym, rfl⟩ := extractLsb'_eq_iff_cmdWord (op := 0x11).mp h
      exact ⟨.encSym sym, decode_cmdWord rfl (.withSym .encSym sym)⟩

/-! ## The mode table and the written words -/

/-- Settles O4: row by row. -/
theorem commandModeTable : Obligations.CommandModeTable := by
  intro sym row hrow
  simp only [List.mem_cons, List.not_mem_nil, or_false] at hrow
  rcases hrow with rfl | rfl | rfl | rfl | rfl | rfl | rfl | rfl | rfl | rfl | rfl | rfl | rfl | rfl <;> rfl

/-- Settles O51: the decoders run on the eleven packets. -/
theorem writtenWordsDecode : Obligations.WrittenWordsDecode := by
  unfold Obligations.WrittenWordsDecode
  decide

end Sys2Proof
end

section
/-! SUPPORT. The predictor's functions on numbers: the hash window, the weight that bounds the scores, the counts of an
updated entry, requantization, and the commands assembled from them (40_predictor.md R100 to R116). -/

namespace Sys2Proof.Machine

/-! ## The hash window (40_predictor.md R100, R101) -/

/-- The newest `o` history bytes are the first `o` elements of HIST. -/
theorem map_histByte_range (s : State) {o : Nat} (ho : o ≤ 32) :
    (List.range o).map (histByte s) = s.hist.toList.take o := by
  apply List.ext_getElem
  · simpa using ho
  · intro j hj _
    have hj' : j < 32 := by simp at hj; omega
    simp [histByte, hj']

/-- On an unfilled window the hash is 0. -/
theorem ctxHash_of_lt {s : State} {k : Fin 8} (h : s.histValid.toNat < s.order[k].toNat) : ctxHash s k = 0 :=
  if_pos h

/-- On a filled window the hash is the fold of its bytes, oldest first. -/
theorem ctxHash_of_le {s : State} {k : Fin 8} (ho : s.order[k].toNat ≤ 32) (h : s.order[k].toNat ≤ s.histValid.toNat) :
    ctxHash s k = (s.hist.toList.take s.order[k].toNat).reverse.foldl
      (fun h b => (h * Config.hashMul) ^^^ zext32 b) 0 := by
  rw [← map_histByte_range s ho, ← List.map_reverse, List.foldl_map]
  exact if_neg (Nat.not_lt.mpr h)

/-- The index is the hash's dispersion without its low bits. -/
theorem indexOf_eq_div (s : State) (k : Fin 8) :
    indexOf s k = (ctxHash s k * Config.gold).toNat / 2 ^ (32 - s.params.tableBits) := by
  unfold indexOf
  rw [BitVec.toNat_ushiftRight, Nat.shiftRight_eq_div_pow]

/-- Settles O12: a filled window folds to its hash, an unfilled one has hash 0, whose dispersion is 0. -/
theorem hashAndIndexOfContext : Obligations.HashAndIndexOfContext := by
  intro s k hp ho
  obtain ⟨_, hT, _⟩ := hp
  refine ⟨fun h => ?_, ctxHash_of_le ho, indexOf_eq_div s k, indexOf_lt s k (by omega)⟩
  have hz := ctxHash_of_lt h
  refine ⟨hz, ?_⟩
  rw [indexOf_eq_div, hz]
  simp

/-! ## The scores between the active weight and 255 times it (40_predictor.md R103, R116) -/

/-- Settles O13: the stored scores and their total are the unbounded sums. -/
theorem predictStoresTheMixedScores : Obligations.PredictStoresTheMixedScores := by
  intro s
  exact ⟨predict s, rfl, rfl, predict_score s, (total_predict s).trans (scoreSum_predict s)⟩

/-- A probability in legal tables is at least 1 (10_state.md R53). -/
theorem one_le_prob {s : State} (h : TablesOk s) (k i : Nat) (x : Fin 256) : 1 ≤ (s.entry k i).prob[x].toNat := by
  obtain ⟨_, hm⟩ := h
  obtain ⟨_, _, hprob⟩ := get_ok (fun c hc => (hm c hc).1) (entryKey k i)
  exact hprob _ (by simp [State.entry])

/-- With legal tables every score is at least W. -/
theorem activeWeight_le_mixedScore {s : State} (h : TablesOk s) (x : Fin 256) : activeWeight s ≤ mixedScore s x :=
  List.sum_le_sum fun k _ => Nat.le_mul_of_pos_right _ (one_le_prob h k.val (indexOf s k) x)

/-- A score is at most 255 · W. -/
theorem mixedScore_le_activeWeight (s : State) (x : Fin 256) : mixedScore s x ≤ activeWeight s * 255 := by
  unfold activeWeight mixedScore
  rw [← List.sum_map_mul_right]
  refine List.sum_le_sum fun k _ => Nat.mul_le_mul_left _ ?_
  have := (s.entry k.val (indexOf s k)).prob[x].isLt
  omega

/-- TOTAL after Predict is the sum of the scores. -/
theorem predict_total_toNat (s : State) : (predict s).total.toNat = ((List.finRange 256).map (mixedScore s)).sum :=
  (total_predict s).trans (scoreSum_predict s)

/-- TOTAL is at most 256 · 255 · W. -/
theorem predict_total_le (s : State) : (predict s).total.toNat ≤ 65280 * activeWeight s := by
  have h := sum_map_le (List.finRange 256) (mixedScore s) _ fun x _ => mixedScore_le_activeWeight s x
  rw [predict_total_toNat]
  simp only [List.length_finRange] at h
  omega

/-- TOTAL is at least any one score. -/
theorem mixedScore_le_predict_total (s : State) (x : Fin 256) : mixedScore s x ≤ (predict s).total.toNat := by
  rw [predict_total_toNat]
  exact List.single_le_sum (fun _ _ => Nat.zero_le _) _ (List.mem_map_of_mem (List.mem_finRange x))

/-- Settles O14: every score lies between W and 255 · W, and TOTAL between any one score and 65280 · W. -/
theorem distributionFloor : Obligations.DistributionFloor := by
  intro s h
  have hle := predict_total_le s
  have hfloor := activeWeight_le_mixedScore h
  refine ⟨hfloor, ?_, fun x => hle.trans (Nat.mul_le_mul_left _ (hfloor x))⟩
  have hge := (hfloor 0).trans (mixedScore_le_predict_total s 0)
  rw [← BitVec.toNat_inj, show (0 : BitVec 30).toNat = 0 from rfl]
  omega

/-! ## The counts of an updated entry (40_predictor.md R105, R106) -/

/-- The entry with one more symbol counted, before its decay (R105). -/
def bump (sym : Byte) (e : Entry) : Entry :=
  { e with cnt := e.cnt.set sym.toNat (e.cnt[sym.toNat] + 1), tot := e.tot + 1, hot := true }

theorem touch_eq_decay_bump (ceil : BitVec 15) (sym : Byte) (e : Entry) : touch ceil sym e = decay ceil (bump sym e) :=
  rfl

theorem bump_tot_toNat {e : Entry} (h : e.ok) (sym : Byte) : (bump sym e).tot.toNat = e.tot.toNat + 1 := by
  obtain ⟨_, ht, _⟩ := h
  show (e.tot + 1).toNat = _
  simp
  omega

theorem bump_cnt_toNat {e : Entry} (h : e.ok) (sym : Byte) (x : Fin 256) :
    (bump sym e).cnt[x].toNat = e.cnt[x].toNat + if x.val = sym.toNat then 1 else 0 := by
  obtain ⟨hc, ht, _⟩ := h
  have hx : e.cnt[x].toNat ≤ e.tot.toNat := hc _ (by simp)
  by_cases hs : x.val = sym.toNat
  · simp only [bump, Fin.getElem_fin, hs, Vector.getElem_set_self, if_true] at hx ⊢
    simp
    omega
  · simp [bump, Vector.getElem_set_ne _ _ (Ne.symm hs), hs]

theorem decay_hot (ceil : BitVec 15) (e : Entry) : (decay ceil e).hot = e.hot := by
  unfold decay
  split <;> rfl

theorem decay_prob (ceil : BitVec 15) (e : Entry) : (decay ceil e).prob = e.prob := by
  unfold decay
  split <;> rfl

theorem decay_of_le {ceil : BitVec 15} {e : Entry} (h : e.tot.toNat ≤ ceil.toNat) : decay ceil e = e :=
  if_neg (Nat.not_lt.mpr h)

theorem decay_of_lt {ceil : BitVec 15} {e : Entry} (h : ceil.toNat < e.tot.toNat) :
    decay ceil e = { e with cnt := mapVec (fun c => c / 2) e.cnt, tot := e.tot / 2 } :=
  if_pos h

/-- Settles O15: the update counts the symbol, and the decay halves what the update left. -/
theorem entryUpdateAndDecay : Obligations.EntryUpdateAndDecay := by
  intro ceil sym e h
  have htot := bump_tot_toNat h sym
  have hcnt := bump_cnt_toNat h sym
  obtain ⟨hbound, _, _⟩ := touch_ok (ceil := ceil) (sym := sym) h
  refine ⟨decay_hot ceil (bump sym e), decay_prob ceil (bump sym e), fun x => hbound _ (by simp), fun hle => ?_,
    fun hlt => ?_⟩
  · rw [touch_eq_decay_bump, decay_of_le (by omega)]
    exact ⟨htot, hcnt⟩
  · rw [touch_eq_decay_bump, decay_of_lt (by omega), ← htot]
    refine ⟨by simp, fun x => ?_⟩
    rw [← hcnt x]
    simp

/-! ## Requantization and refresh (40_predictor.md R107, R108) -/

/-- Settles O17: the two inequalities say that q is the quotient that Quant clamps. -/
theorem quantRoundsHalfUpAndClamps : Obligations.QuantRoundsHalfUpAndClamps := by
  intro c t q hle hlt
  have hq : ((2 * c + 1) * 255 + (t + 1)) / (2 * (t + 1)) = q :=
    Nat.div_eq_of_lt_le (by rwa [Nat.mul_comm q]) (by rwa [Nat.mul_comm (q + 1)])
  unfold quant
  rw [hq]
  rfl

theorem requant_of_not_hot {e : Entry} (h : e.hot = false) : requant e = e := by
  simp [requant, h]

theorem requant_of_hot {e : Entry} (h : e.hot = true) :
    requant e =
      { e with prob := mapVec (fun c => BitVec.ofNat 8 (quant c.toNat e.tot.toNat)) e.cnt, hot := false } :=
  if_pos h

/-- A requantized probability is the quantized count, which fits in a byte. -/
theorem requant_prob_toNat {e : Entry} (h : e.hot = true) (x : Fin 256) :
    (requant e).prob[x].toNat = quant e.cnt[x].toNat e.tot.toNat := by
  have := quant_bounds e.cnt[x].toNat e.tot.toNat
  rw [requant_of_hot h]
  simp only [Fin.getElem_fin, mapVec_getElem, BitVec.toNat_ofNat] at this ⊢
  omega

/-- Settles O18: every entry is requantized, which changes a hot entry only. -/
theorem refreshRequantizesHotEntries : Obligations.RefreshRequantizesHotEntries := by
  intro s hs
  refine ⟨refresh s, rfl, rfl, fun k i => ?_⟩
  rw [refresh_entry s hs]
  refine ⟨requant_of_not_hot, fun hhot => ⟨?_, ?_, ?_, requant_prob_toNat hhot⟩⟩ <;> rw [requant_of_hot hhot]

/-! ## LEARN and the clear commands (40_predictor.md R110, R112, R114, R115) -/

/-- Settles O16: Tail's registers and entries, where SYMCNT + 1 does not wrap. -/
theorem learnRunsTheTail : Obligations.LearnRunsTheTail := by
  intro s sym hc ht hb
  obtain ⟨⟨_, hT, _⟩, _⟩ := hc
  obtain ⟨_, _, _, _, _, _, hsym, _⟩ := hb
  obtain ⟨hframe, hnew, hshift, hvalid⟩ := tail_registers s sym
  have hcnt : (tail s sym).symcnt = if s.rint ≤ s.symcnt + 1 then 0 else s.symcnt + 1 := by rw [hframe]
  have hentry := tail_entry s sym hT ht.1
  have hsucc : (s.symcnt + 1).toNat = s.symcnt.toNat + 1 := by simp; omega
  refine ⟨tail s sym, rfl, by rw [hframe], hnew, hshift, hvalid, fun hlt => ?_, fun hle => ?_⟩
  · have hnot : ¬ s.rint ≤ s.symcnt + 1 := by rw [BitVec.le_def, hsucc]; omega
    rw [if_neg hnot] at hcnt
    exact ⟨by rw [hcnt, hsucc], fun k i hi => (hentry k i hi).trans (if_neg hnot)⟩
  · have hdue : s.rint ≤ s.symcnt + 1 := by rw [BitVec.le_def, hsucc]; exact hle
    exact ⟨hcnt.trans (if_pos hdue), fun k i hi => (hentry k i hi).trans (if_pos hdue)⟩

/-- Settles O19: with nothing listed every entry is initial, and the history is replaced by zeros. -/
theorem clearCommands : Obligations.ClearCommands := by
  intro s
  refine ⟨⟨{ s with mem := [] }, rfl, rfl, fun k i x => ?_⟩,
    ⟨{ s with hist := Vector.replicate 32 0, histValid := 0 }, rfl, rfl, fun j => by simp⟩⟩
  have hentry : ({ s with mem := [] } : State).entry k i = Entry.initial := rfl
  rw [hentry]
  simp [Entry.initial, Config.pinit]

end Sys2Proof.Machine
end

section
/-! SUPPORT. Which operations there are, and which of them keep the configuration registers (10_state.md R30 to R34,
40_predictor.md R117). -/

namespace Sys2Proof.Machine

/-! ## The kinds of operation -/

/-- An operation is a command, a read or a write of a register, or an access to an unmapped offset (30_encoding.md R83,
R90). -/
theorem instr_cases (i : Instr) : (∃ w, decodeCmd w = .ok i) ∨ (∃ r, i = readOf r) ∨ (∃ r v, i = writeOf v r) ∨
    ∃ off k, i = .unmapped off k := by
  by_cases hwf : WellFormed i = true
  · have hdec := decodeOfEncode i hwf
    cases hp : encode i with
    | command w =>
      rw [hp] at hdec
      exact .inl ⟨w, hdec⟩
    | access a =>
      rw [hp] at hdec
      obtain ⟨-, -, ⟨r, -, -, rfl⟩ | ⟨r, v, -, -, rfl⟩ | ⟨-, rfl⟩⟩ := decodeAccess_cases hdec
      · exact .inr (.inl ⟨r, rfl⟩)
      · exact .inr (.inr (.inl ⟨r, v, rfl⟩))
      · exact .inr (.inr (.inr ⟨_, _, rfl⟩))
  · cases i with
    | unmapped off k => exact .inr (.inr (.inr ⟨off, k, rfl⟩))
    | _ => exact absurd rfl hwf

/-! ## The configuration -/

/-- The configuration registers NORD, CEIL, RINT, ORDER and WEIGHT (R30 to R34). -/
def State.config (s : State) : BitVec 4 × BitVec 15 × BitVec 16 × Vector (BitVec 6) 8 × Vector (BitVec 11) 8 :=
  (s.nord, s.ceil, s.rint, s.order, s.weight)

theorem config_ne_of_register_ne {s t : State}
    (h : t.nord ≠ s.nord ∨ t.ceil ≠ s.ceil ∨ t.rint ≠ s.rint ∨ t.order ≠ s.order ∨ t.weight ≠ s.weight) :
    t.config ≠ s.config := by
  simp only [State.config, ne_eq, Prod.mk.injEq, not_and_or]
  exact h

@[simp] theorem complete_config (s : State) : (complete s).config = s.config := rfl
@[simp] theorem raiseFault_config (e : ErrCause) (s : State) : (raiseFault e s).config = s.config := rfl
@[simp] theorem clearReader_config (s : State) : (clearReader s).config = s.config := rfl
@[simp] theorem encNarrowed_config (s : State) (x : Byte) : (encNarrowed s x).config = s.config := rfl
@[simp] theorem predict_config (s : State) : (predict s).config = s.config := rfl
@[simp] theorem tail_config (s : State) (x : Byte) : (tail s x).config = s.config := by simp [State.config]
@[simp] theorem padByte_flushBits_config (s : State) : (padByte (flushBits s)).config = s.config := by
  simp [State.config]
@[simp] theorem decLoad_config (s : State) : (decLoad s).config = s.config := by simp [State.config, decLoad]
@[simp] theorem renormEnc_config (n : Nat) (s : State) : (renormEnc n s).1.config = s.config := by
  rw [renormEnc_frame]; rfl
@[simp] theorem renormDec_config (n : Nat) (s : State) : (renormDec n s).config = s.config := by
  rw [renormDec_frame]; rfl

/-- Both ends of ENC_SYM after renormalization leave the configuration. -/
@[simp] theorem encFinish_config (x : Byte) (p : State × Bool) : (encFinish x p).config = p.1.config := by
  obtain ⟨u, ovf⟩ := p
  cases ovf
  · exact tail_config u x
  · rfl

/-- The run of DEC_SYM leaves the configuration. -/
@[simp] theorem decRun_config (p : State) (x : Byte) (lo hi : Word) : (decRun p x lo hi).config = p.config :=
  (tail_config _ x).trans (renormDec_config _ { p with low := lo, high := hi })

/-- ENC_SYM leaves the configuration (41_encoder.md R137). -/
theorem execEncSym_config {x : Byte} {s t : State} (h : execEncSym x s = .next t) : t.config = s.config := by
  unfold execEncSym at h
  dsimp only at h
  split at h <;> obtain rfl := Host.Outcome.next.inj h <;> simp

/-- DEC_START leaves the configuration (42_decoder.md R158). -/
theorem execDecStart_config {s t : State} (h : execDecStart s = .next t) : t.config = s.config := by
  unfold execDecStart at h
  split at h <;> obtain rfl := Host.Outcome.next.inj h <;> simp

/-- DEC_SYM leaves the configuration (42_decoder.md R159). -/
theorem execDecSym_config {s t : State} (h : execDecSym s = .next t) : t.config = s.config := by
  unfold execDecSym at h
  dsimp only at h
  split at h <;> obtain rfl := Host.Outcome.next.inj h <;> simp

/-- No command but SOFT_RESET changes the configuration (R117). -/
theorem exec_command_config {w : Word} {i : Instr} {s t : State} (hd : decodeCmd w = .ok i) (hi : i ≠ .softReset)
    (h : exec i s = .next t) : t.config = s.config := by
  cases i with
  | softReset => exact absurd rfl hi
  | nop | tblClear | ctxClear | refresh | abort | predict | encStart | decEnd =>
    obtain rfl := Host.Outcome.next.inj h
    rfl
  | learn x =>
    obtain rfl := Host.Outcome.next.inj h
    exact tail_config s x
  | encSym x => exact execEncSym_config h
  | encFlush =>
    obtain rfl := Host.Outcome.next.inj h
    exact padByte_flushBits_config s
  | decStart => exact execDecStart_config h
  | decSym => exact execDecSym_config h
  | _ => simpa using decodeCmd_cases hd

/-- No read changes the configuration. -/
theorem exec_readOf_config {r : Reg} {s t : State} (h : exec (readOf r) s = .next t) : t.config = s.config := by
  rcases read_cases h with ⟨v, rfl⟩ | ⟨v, rfl⟩ | ⟨-, b, rest, v, -, rfl⟩ <;> rfl

/-- A configuration write that changes anything of the configuration is made in IDLE with BUSY = 0 (44_host_access.md
R205). -/
theorem cfgWrite_idle {legal : Bool} {u s : State} (hne : (cfgWrite legal u s).config ≠ s.config) :
    s.mode = .idle ∧ busy s = false := by
  unfold cfgWrite at hne
  split at hne
  · exact absurd rfl hne
  · next h =>
    simp only [not_or, not_not, Bool.not_eq_true] at h
    exact ⟨h.1, h.2.1⟩

/-- A write that changes the configuration is a SOFT_RESET word, or one of a configuration register in IDLE with
BUSY = 0. -/
theorem exec_writeOf_config {v : Word} {r : Reg} {s t : State} (h : exec (writeOf v r) s = .next t)
    (hne : t.config ≠ s.config) :
    (r = .cmd ∧ v = 0x01000000#32) ∨ (s.mode = .idle ∧ busy s = false ∧
      (r = .cfgNord ∨ r = .cfgCeil ∨ r = .cfgRint ∨ ∃ k, r = .order k ∨ r = .weight k)) := by
  cases r with
  | cmd =>
    obtain rfl := Host.Outcome.next.inj h
    rcases cmdWrite_cases v s with ⟨hv, -⟩ | ⟨-, e, he⟩ | ⟨j, -, -, -, -, he⟩
    · exact .inl ⟨rfl, hv⟩
    · exact absurd (by rw [he]; rfl) hne
    · exact absurd (by rw [he]; rfl) hne
  | din =>
    have ht : dinWrite v s = t := Host.Outcome.next.inj h
    unfold dinWrite at ht
    split_ifs at ht <;> subst ht <;> exact absurd rfl hne
  | cfgNord | cfgCeil | cfgRint | order k | weight k =>
    obtain rfl := Host.Outcome.next.inj h
    obtain ⟨hm, hb⟩ := cfgWrite_idle hne
    exact .inr ⟨hm, hb, by simp⟩
  | _ =>
    obtain rfl := Host.Outcome.next.inj h
    exact absurd rfl hne

/-- Settles O21: commands, reads and unmapped accesses keep the configuration; of the writes, the two kinds named. -/
theorem configChangesOnlyInIdle : Obligations.ConfigChangesOnlyInIdle := by
  intro i s t h hchange
  have hne := config_ne_of_register_ne hchange
  rcases instr_cases i with ⟨w, hd⟩ | ⟨r, rfl⟩ | ⟨r, v, rfl⟩ | ⟨off, k, rfl⟩
  · exact .inl (by_contra fun hi => hne (exec_command_config hd hi h))
  · exact absurd (exec_readOf_config h) hne
  · rcases exec_writeOf_config h hne with ⟨rfl, rfl⟩ | ⟨hm, hb, hr⟩
    · exact .inr (.inl rfl)
    · refine .inr (.inr ⟨hm, hb, v, ?_⟩)
      rcases hr with rfl | rfl | rfl | ⟨k, rfl | rfl⟩ <;> simp [writeOf]
  · rcases unmapped_cases h with rfl | rfl <;> exact absurd rfl hne

end Sys2Proof.Machine
end

section
/-! SUPPORT. The coded bits under EmitBit, EmitPend and ENC_FLUSH (41_encoder.md R131, R133, R138). -/

namespace Sys2Proof.Machine

/-! ## Coded bits (41_encoder.md R131) -/

/-- A byte with a bit shifted in below, as EmitBit makes it. -/
def shiftIn (b : Bool) (o : Byte) : Byte := o <<< 1 ||| (if b then 1 else 0)

theorem shiftIn_getLsbD_zero (b : Bool) (o : Byte) : (shiftIn b o).getLsbD 0 = b := by
  cases b <;> simp [shiftIn]

theorem shiftIn_getLsbD_succ (b : Bool) (o : Byte) {i : Nat} (hi : i < 7) :
    (shiftIn b o).getLsbD (i + 1) = o.getLsbD i := by
  rw [BitVec.getLsbD_eq_getElem (by omega), BitVec.getLsbD_eq_getElem (by omega)]
  cases b <;> simp [shiftIn, BitVec.getElem_one]

/-- Shifting a bit in below the `n` low bits of a byte appends it to them, most significant first. -/
theorem map_shiftIn_range (b : Bool) (o : Byte) {n : Nat} (hn : n < 8) :
    (List.range (n + 1)).map (fun j => (shiftIn b o).getLsbD (n - j)) =
      (List.range n).map (fun j => o.getLsbD (n - 1 - j)) ++ [b] := by
  rw [List.range_succ, List.map_append, List.map_singleton, Nat.sub_self, shiftIn_getLsbD_zero]
  congr 1
  refine List.map_congr_left fun j hj => ?_
  have hj : j < n := List.mem_range.mp hj
  rw [show n - j = n - 1 - j + 1 by omega, shiftIn_getLsbD_succ b o (by omega)]

/-- The eighth bit completes a byte. -/
theorem emitBit_of_full {s : State} (b : Bool) (h : s.ocnt = 7) :
    emitBit b s =
      { s with obuf := 0, ocnt := 0, bitcnt := s.bitcnt + 1, outq := s.outq ++ [shiftIn b s.obuf] } := by
  simp [emitBit, shiftIn, h]

/-- Any other bit stays in the packer. -/
theorem emitBit_of_not_full {s : State} (b : Bool) (h : s.ocnt ≠ 7) :
    emitBit b s = { s with obuf := shiftIn b s.obuf, ocnt := s.ocnt + 1, bitcnt := s.bitcnt + 1 } := by
  have hf : (s.ocnt == 7) = false := beq_eq_false_iff_ne.mpr h
  simp only [emitBit, shiftIn, hf, Bool.false_eq_true, if_false]

/-- EmitBit appends its bit, whether or not it completes a byte. -/
@[simp] theorem codedBits_emitBit (b : Bool) (s : State) : codedBits (emitBit b s) = codedBits s ++ [b] := by
  have hbits := map_shiftIn_range b s.obuf s.ocnt.isLt
  by_cases h : s.ocnt = 7
  · have hbyte : byteBits (shiftIn b s.obuf) = packerBits s ++ [b] := by
      rw [h] at hbits
      rw [packerBits, h]
      exact hbits
    simp [emitBit_of_full b h, codedBits, hbyte, packerBits]
  · have hocnt : (s.ocnt + 1).toNat = s.ocnt.toNat + 1 := by bv_omega
    have hpacker : packerBits (emitBit b s) = packerBits s ++ [b] := by
      rw [emitBit_of_not_full b h, packerBits, hocnt]
      exact hbits
    rw [codedBits, hpacker, emitBit_of_not_full b h, codedBits, List.append_assoc]

@[simp] theorem emitBit_bitcnt (b : Bool) (s : State) : (emitBit b s).bitcnt = s.bitcnt + 1 := rfl

@[simp] theorem emitBit_ocnt (b : Bool) (s : State) : (emitBit b s).ocnt = s.ocnt + 1 := rfl

theorem codedBits_emitMany (b : Bool) (n : Nat) (s : State) :
    codedBits (emitMany b n s) = codedBits s ++ List.replicate n b := by
  induction n generalizing s with
  | zero => simp [emitMany]
  | succ n ih => rw [emitMany, ih, codedBits_emitBit, List.append_assoc, List.replicate_succ, List.singleton_append]

theorem emitMany_bitcnt (b : Bool) (n : Nat) (s : State) :
    (emitMany b n s).bitcnt = s.bitcnt + BitVec.ofNat 32 n := by
  induction n generalizing s with
  | zero => simp [emitMany]
  | succ n ih =>
    rw [emitMany, ih, emitBit_bitcnt, BitVec.add_assoc, Nat.add_comm n, BitVec.ofNat_add]
    rfl

/-- OCNT counts the emitted bits modulo 8. -/
theorem emitMany_ocnt (b : Bool) (n : Nat) (s : State) : (emitMany b n s).ocnt = s.ocnt + BitVec.ofNat 3 n := by
  induction n generalizing s with
  | zero => simp [emitMany]
  | succ n ih =>
    rw [emitMany, ih, emitBit_ocnt, BitVec.add_assoc, Nat.add_comm n, BitVec.ofNat_add]
    rfl

/-- EmitPend appends its bit and then PENDING complements (41_encoder.md R133). -/
theorem codedBits_emitPend (b : Bool) (s : State) :
    codedBits (emitPend b s) = codedBits s ++ [b] ++ List.replicate s.pending.toNat (!b) := by
  rw [← codedBits_emitBit, ← codedBits_emitMany]
  rfl

/-- BITCNT counts a bit and the `n` bits after it. -/
theorem emitMany_emitBit_bitcnt (b c : Bool) (n : Nat) (s : State) :
    (emitMany c n (emitBit b s)).bitcnt = s.bitcnt + BitVec.ofNat 32 (n + 1) := by
  rw [emitMany_bitcnt, emitBit_bitcnt, BitVec.add_assoc, Nat.add_comm, BitVec.ofNat_add]
  rfl

theorem emitPend_bitcnt (b : Bool) (s : State) :
    (emitPend b s).bitcnt = s.bitcnt + BitVec.ofNat 32 (s.pending.toNat + 1) := emitMany_emitBit_bitcnt ..

/-- EmitPend writes the packer, BITCNT, OUTQ and PENDING. -/
theorem emitPend_frame (b : Bool) (s : State) :
    emitPend b s = { s with
      obuf := (emitPend b s).obuf, ocnt := (emitPend b s).ocnt, bitcnt := (emitPend b s).bitcnt
      outq := (emitPend b s).outq, pending := (emitPend b s).pending } := by
  simp only [emitPend]
  rw [emitMany_frame]
  rfl

/-- Settles O25: EmitBit's effect, and EmitPend's from it, bit by bit. -/
theorem emittedBitsAreAppended : Obligations.EmittedBitsAreAppended := fun b s =>
  ⟨⟨codedBits_emitBit b s, rfl, rfl⟩,
    codedBits_emitPend b s, emitPend_pending b s, emitPend_bitcnt b s, emitPend_frame b s⟩

/-! ## ENC_FLUSH (41_encoder.md R138) -/

/-- Padding completes the byte in the packer. -/
theorem padByte_ocnt (s : State) : (padByte s).ocnt = 0 := by
  unfold padByte
  rw [emitMany_ocnt]
  have := s.ocnt.isLt
  bv_omega

/-- The flush bits write the packer, BITCNT, OUTQ and PENDING. -/
theorem flushBits_frame (s : State) :
    flushBits s = { s with
      obuf := (flushBits s).obuf, ocnt := (flushBits s).ocnt, bitcnt := (flushBits s).bitcnt
      outq := (flushBits s).outq, pending := (flushBits s).pending } := by
  simp only [flushBits]
  rw [emitMany_frame]
  rfl

/-- Padding writes the packer, BITCNT and OUTQ. -/
theorem padByte_frame (s : State) :
    padByte s = { s with
      obuf := (padByte s).obuf, ocnt := (padByte s).ocnt, bitcnt := (padByte s).bitcnt, outq := (padByte s).outq } :=
  emitMany_frame ..

/-- The flush bits: one bit that LOW decides, then PENDING + 1 complements. -/
theorem codedBits_flushBits (s : State) :
    codedBits (flushBits s) = codedBits s ++ [decide (Config.quarter ≤ s.low.toNat)] ++
      List.replicate (s.pending.toNat + 1) (!decide (Config.quarter ≤ s.low.toNat)) := by
  rw [← codedBits_emitBit, ← codedBits_emitMany]
  rfl

theorem flushBits_bitcnt (s : State) :
    (flushBits s).bitcnt = s.bitcnt + BitVec.ofNat 32 (s.pending.toNat + 2) := emitMany_emitBit_bitcnt ..

/-- Settles O30: the flush bits, then padding, each an emission of equal bits. -/
theorem encFlushAppendsTermination : Obligations.EncFlushAppendsTermination := by
  intro s
  refine ⟨{ padByte (flushBits s) with mode := .idle }, (8 - (flushBits s).ocnt.toNat) % 8, rfl, by omega, ?_,
    padByte_ocnt _, padByte_pending _, rfl, ?_, ?_⟩
  · exact (codedBits_emitMany ..).trans (by rw [codedBits_flushBits]; rfl)
  · exact (emitMany_bitcnt ..).trans (by rw [flushBits_bitcnt, BitVec.add_assoc, ← BitVec.ofNat_add])
  · rw [padByte_frame, flushBits_frame]

end Sys2Proof.Machine
end

section
/-! SUPPORT. The arithmetic of narrowing (41_encoder.md R132, R140). -/

namespace Sys2Proof.Machine

/-- A frequency of at least one part in 65280 narrows an interval of more than 2^30 values to at least 16448. -/
theorem scaled_gap {r lc f t : Nat} (hr : 2 ^ 30 < r) (ht : 1 ≤ t) (hf : t ≤ 65280 * f) :
    r * lc / t + 16448 ≤ r * (lc + f) / t := by
  have hgap : 16448 * t ≤ r * f := by nlinarith
  rw [← Nat.add_mul_div_right _ _ ht]
  exact Nat.div_le_div_right (by rw [Nat.mul_add]; omega)

/-- Settles O26: with that gap the clamp is idle, and the two quotients are at most the interval's width. -/
theorem narrowingStaysInsideUnclamped : Obligations.NarrowingStaysInsideUnclamped := by
  intro lo hi lc f t hle hwide ht hf hlf
  have hlo := lo.isLt
  have hhi := hi.isLt
  have hgap := scaled_gap (lc := lc) hwide ht hf
  have htop : (hi.toNat - lo.toNat + 1) * (lc + f) / t ≤ hi.toNat - lo.toNat + 1 :=
    Nat.div_le_of_le_mul (by rw [Nat.mul_comm t]; exact Nat.mul_le_mul_left _ hlf)
  simp only [narrow, show hi.toNat + 1 - lo.toNat = hi.toNat - lo.toNat + 1 by omega, BitVec.toNat_ofNat]
  generalize (hi.toNat - lo.toNat + 1) * lc / t = a at *
  generalize (hi.toNat - lo.toNat + 1) * (lc + f) / t = c at *
  rw [if_neg (by omega)]
  omega

end Sys2Proof.Machine
end

section
/-! SUPPORT. Renormalization, pass by pass: the bounds it reaches, why it ends, how many passes it takes, the source's two
loops, and the bits that the encoder emits (41_encoder.md R134, R139, R141). -/

namespace Sys2Proof.Machine

/-! ## The bounds of the loop -/

/-- The bounds that the renormalization loop reaches in at most `n` passes, whichever coder runs it (R134, 42_decoder.md
R155). -/
def renormBounds : Nat → Word → Word → Word × Word
  | 0, lo, hi => (lo, hi)
  | n + 1, lo, hi =>
    match renormCase lo hi with
    | .done => (lo, hi)
    | c => renormBounds n (lowNext c lo) (highNext c hi)

theorem renormBounds_of_done {lo hi : Word} (n : Nat) (h : renormCase lo hi = .done) :
    renormBounds n lo hi = (lo, hi) := by
  cases n <;> simp [renormBounds, h]

theorem renormBounds_of_pass {lo hi : Word} {c : RenormCase} (n : Nat) (hc : renormCase lo hi = c) (hne : c ≠ .done) :
    renormBounds (n + 1) lo hi = renormBounds n (lowNext c lo) (highNext c hi) := by
  cases c <;> simp_all [renormBounds]

theorem renormSteps_of_done {lo hi : Word} (n : Nat) (h : renormCase lo hi = .done) : renormSteps n lo hi = 0 := by
  cases n <;> simp [renormSteps, h]

theorem renormSteps_of_pass {lo hi : Word} {c : RenormCase} (n : Nat) (hc : renormCase lo hi = c) (hne : c ≠ .done) :
    renormSteps (n + 1) lo hi = renormSteps n (lowNext c lo) (highNext c hi) + 1 := by
  cases c <;> simp_all [renormSteps]

/-- One decoder pass (42_decoder.md R155). -/
def decPass (c : RenormCase) (s : State) : State :=
  shiftCode (shiftBounds c { s with code := s.code - renormOffset c })

@[simp] theorem decPass_low (c : RenormCase) (s : State) : (decPass c s).low = lowNext c s.low := by simp [decPass]
@[simp] theorem decPass_high (c : RenormCase) (s : State) : (decPass c s).high = highNext c s.high := by simp [decPass]

theorem renormDec_of_done {s : State} (n : Nat) (h : renormCase s.low s.high = .done) : renormDec n s = s := by
  cases n <;> simp [renormDec, h]

theorem renormDec_of_pass {s : State} {c : RenormCase} (n : Nat) (hc : renormCase s.low s.high = c) (hne : c ≠ .done) :
    renormDec (n + 1) s = renormDec n (decPass c s) := by
  cases c <;> simp_all [renormDec, decPass]

/-- What an encoder pass does before it shifts the bounds: it commits a bit, or holds one back (R134). -/
def encCommit : RenormCase → State → State
  | .e1, s => emitPend false s
  | .e2, s => emitPend true s
  | .e3, s => { s with pending := s.pending + 1 }
  | .done, s => s

/-- One encoder pass (R134). -/
def encPass (c : RenormCase) (s : State) : State := shiftBounds c (encCommit c s)

@[simp] theorem encPass_low (c : RenormCase) (s : State) : (encPass c s).low = lowNext c s.low := by
  cases c <;> simp [encPass, encCommit]

@[simp] theorem encPass_high (c : RenormCase) (s : State) : (encPass c s).high = highNext c s.high := by
  cases c <;> simp [encPass, encCommit]

theorem renormEnc_of_done {s : State} (n : Nat) (h : renormCase s.low s.high = .done) : renormEnc n s = (s, false) := by
  cases n <;> simp [renormEnc, h]

/-- A pass overflows PENDING (R135). -/
abbrev Overflows (c : RenormCase) (s : State) : Prop := c = .e3 ∧ s.pending = Config.top

theorem renormEnc_of_pass {s : State} {c : RenormCase} (n : Nat) (hc : renormCase s.low s.high = c) (hne : c ≠ .done) :
    renormEnc (n + 1) s = if Overflows c s then (s, true) else renormEnc n (encPass c s) := by
  cases c <;> simp_all [renormEnc, encPass, encCommit, Overflows]

/-- The decoder reaches the bounds of the loop. -/
theorem renormDec_bounds (n : Nat) (s : State) :
    ((renormDec n s).low, (renormDec n s).high) = renormBounds n s.low s.high := by
  induction n generalizing s with
  | zero => rfl
  | succ n ih =>
    by_cases h : renormCase s.low s.high = .done
    · rw [renormDec_of_done _ h, renormBounds_of_done _ h]
    · rw [renormDec_of_pass n rfl h, renormBounds_of_pass n rfl h, ih, decPass_low, decPass_high]

/-- The runs of the encoder's loop that return OK, in at most `n` passes. -/
inductive RenormRuns : Nat → State → State → Prop
  | outOfPasses (s : State) : RenormRuns 0 s s
  | done {n : Nat} {s : State} (h : renormCase s.low s.high = .done) : RenormRuns n s s
  | pass {n : Nat} {s t : State} {c : RenormCase} (hc : renormCase s.low s.high = c) (hne : c ≠ .done)
      (hov : ¬ Overflows c s) (h : RenormRuns n (encPass c s) t) : RenormRuns (n + 1) s t

theorem renormEnc_runs {n : Nat} {s t : State} (h : renormEnc n s = (t, false)) : RenormRuns n s t := by
  induction n generalizing s with
  | zero =>
    obtain rfl : s = t := congrArg Prod.fst h
    exact .outOfPasses s
  | succ n ih =>
    by_cases hd : renormCase s.low s.high = .done
    · rw [renormEnc_of_done _ hd] at h
      obtain rfl : s = t := congrArg Prod.fst h
      exact .done hd
    · rw [renormEnc_of_pass n rfl hd] at h
      split at h
      · cases h
      · next hov => exact .pass rfl hd hov (ih h)

/-- The encoder reaches the same bounds, if it does not overflow. -/
theorem RenormRuns.bounds {n : Nat} {s t : State} (h : RenormRuns n s t) :
    (t.low, t.high) = renormBounds n s.low s.high := by
  induction h with
  | outOfPasses s => rfl
  | done hd => exact (renormBounds_of_done _ hd).symm
  | pass hc hne _ _ ih => rw [renormBounds_of_pass _ hc hne, ih, encPass_low, encPass_high]

/-! ## The loop ends (assumption 10) -/

/-- From these bounds the loop ends within `n` passes. -/
inductive EndsWithin : Nat → Word → Word → Prop
  | done {n : Nat} {lo hi : Word} (h : renormCase lo hi = .done) : EndsWithin n lo hi
  | pass {n : Nat} {lo hi : Word} {c : RenormCase} (hc : renormCase lo hi = c) (hne : c ≠ .done)
      (h : EndsWithin n (lowNext c lo) (highNext c hi)) : EndsWithin (n + 1) lo hi

/-- With `k` bits shifted into each bound, the loop ends within 32 - k passes. -/
theorem endsWithin_of_dvd {n k : Nat} {lo hi : Word} (hk : k ≤ 32) (hn : 32 ≤ n + k) (hl : 2 ^ k ∣ lo.toNat)
    (hh : 2 ^ k ∣ hi.toNat + 1) : EndsWithin n lo hi := by
  induction n generalizing k lo hi with
  | zero =>
    obtain rfl : k = 32 := by omega
    exact .done ((renormCase_done_iff lo hi).mpr (renormalized_of_dvd hl hh))
  | succ n ih =>
    by_cases hd : renormCase lo hi = .done
    · exact .done hd
    · have hk' : k ≠ 32 := by
        rintro rfl
        exact hd ((renormCase_done_iff lo hi).mpr (renormalized_of_dvd hl hh))
      obtain ⟨hl', hh'⟩ := pass_dvd (by omega) hl hh rfl hd
      exact .pass rfl hd (ih (by omega) (by omega) hl' hh')

/-- The model's bound on the passes is enough for every pair of bounds. -/
theorem endsWithin_renormPasses (lo hi : Word) : EndsWithin Config.renormPasses lo hi :=
  endsWithin_of_dvd (k := 0) (by omega) (by decide) (by simp) (by simp)

theorem EndsWithin.renormalized {n : Nat} {lo hi : Word} (h : EndsWithin n lo hi) :
    Renormalized (renormBounds n lo hi).1 (renormBounds n lo hi).2 := by
  induction h with
  | done h => rw [renormBounds_of_done _ h]; exact (renormCase_done_iff _ _).mp h
  | pass hc hne _ ih => rw [renormBounds_of_pass _ hc hne]; exact ih

/-- Settles O27: both loops reach the same bounds, and from any bounds enough passes are allowed. -/
theorem renormalizationEnds : Obligations.RenormalizationEnds := by
  intro s
  have hend := (endsWithin_renormPasses s.low s.high).renormalized
  refine ⟨fun hok => ?_, ?_⟩
  · rwa [← (renormEnc_runs (Prod.ext rfl hok)).bounds] at hend
  · rwa [← renormDec_bounds] at hend

/-! ## The number of passes (R141) -/

/-- A pass on an ordered interval keeps it ordered and doubles its width. -/
theorem pass_width {lo hi : Word} (h : lo.toNat ≤ hi.toNat) {c : RenormCase} (hc : renormCase lo hi = c)
    (hne : c ≠ .done) :
    (lowNext c lo).toNat ≤ (highNext c hi).toNat ∧
      (highNext c hi).toNat + 1 - (lowNext c lo).toNat = 2 * (hi.toNat + 1 - lo.toNat) := by
  obtain ⟨hoff, _, hlow, hhigh⟩ := pass_toNat h hc hne
  omega

/-- The loop doubles the width of an ordered interval once for each pass. -/
theorem renormBounds_width (n : Nat) {lo hi : Word} (h : lo.toNat ≤ hi.toNat) :
    (renormBounds n lo hi).2.toNat + 1 - (renormBounds n lo hi).1.toNat =
      2 ^ renormSteps n lo hi * (hi.toNat + 1 - lo.toNat) := by
  induction n generalizing lo hi with
  | zero => simp [renormBounds, renormSteps]
  | succ n ih =>
    by_cases hd : renormCase lo hi = .done
    · simp [renormBounds_of_done _ hd, renormSteps_of_done _ hd]
    · obtain ⟨hle, hwidth⟩ := pass_width h rfl hd
      rw [renormBounds_of_pass n rfl hd, renormSteps_of_pass n rfl hd, ih hle, hwidth, Nat.pow_succ, Nat.mul_assoc]

/-- Settles O28: 18 passes would widen the interval beyond 2^32 values. -/
theorem renormalizationTakesAtMost17Passes : Obligations.RenormalizationTakesAtMost17Passes := by
  intro lo hi hwide
  have hwidth := renormBounds_width Config.renormPasses (lo := lo) (hi := hi) (by omega)
  have htop := (renormBounds Config.renormPasses lo hi).2.isLt
  by_contra hmany
  have hpow : 2 ^ 18 ≤ 2 ^ renormSteps Config.renormPasses lo hi := Nat.pow_le_pow_right (by omega) (by omega)
  have := Nat.mul_le_mul hpow (show 16448 ≤ hi.toNat + 1 - lo.toNat by omega)
  omega

/-! ## The source's two loops (R139) -/

theorem emitLoop_of_done {s : State} (n : Nat) (h : renormCase s.low s.high = .done) : emitLoop n s = s := by
  cases n <;> simp [emitLoop, h]

theorem emitLoop_of_e3 {s : State} (n : Nat) (h : renormCase s.low s.high = .e3) : emitLoop n s = s := by
  cases n <;> simp [emitLoop, h]

theorem emitLoop_of_pass {s : State} {c : RenormCase} (n : Nat) (hc : renormCase s.low s.high = c) (hne : c ≠ .done)
    (h3 : c ≠ .e3) : emitLoop (n + 1) s = emitLoop n (encPass c s) := by
  cases c <;> simp_all [emitLoop, encPass, encCommit]

theorem underflowLoop_of_done {s : State} (n : Nat) (h : renormCase s.low s.high = .done) :
    underflowLoop n s = (s, false) := by
  cases n <;> simp [underflowLoop, h]

theorem underflowLoop_of_e3 {s : State} (n : Nat) (h : renormCase s.low s.high = .e3) :
    underflowLoop (n + 1) s = if s.pending = Config.top then (s, true) else underflowLoop n (encPass .e3 s) := by
  simp [underflowLoop, encPass, encCommit, h]

/-- An interval that straddles the midpoint is left to the second loop or to none. -/
theorem renormCase_of_straddles {lo hi : Word} (hlo : lo.toNat < 2 ^ 31) (hhi : 2 ^ 31 ≤ hi.toNat) :
    renormCase lo hi = .e3 ∨ renormCase lo hi = .done := by
  cases hc : renormCase lo hi with
  | e1 => rw [renormCase_e1_iff] at hc; omega
  | e2 => rw [renormCase_e2_iff] at hc; omega
  | e3 => exact .inl rfl
  | done => exact .inr rfl

/-- Once the interval straddles the midpoint it goes on doing so, and the interleaved loop is the second loop. -/
theorem renormEnc_eq_underflowLoop {n m : Nat} {s : State} (hlo : s.low.toNat < 2 ^ 31) (hhi : 2 ^ 31 ≤ s.high.toNat)
    (hn : EndsWithin n s.low s.high) (hm : EndsWithin m s.low s.high) : renormEnc n s = underflowLoop m s := by
  induction n generalizing m s with
  | zero =>
    cases hn with
    | done hd => rw [renormEnc_of_done _ hd, underflowLoop_of_done _ hd]
  | succ n ih =>
    rcases renormCase_of_straddles hlo hhi with h3 | hd
    · have hne : renormCase s.low s.high ≠ .done := by simp [h3]
      rcases hn with hd | ⟨hc, _, hn⟩
      · exact absurd hd hne
      rcases hm with hd | ⟨hc', _, hm⟩
      · exact absurd hd hne
      rw [h3] at hc hc'
      subst hc hc'
      obtain ⟨hlo', hhi'⟩ := e3_straddles h3
      rw [renormEnc_of_pass n h3 nofun, underflowLoop_of_e3 _ h3]
      simp only [Overflows, true_and]
      split
      · rfl
      · exact ih (by simpa using hlo') (by simpa using hhi') (by simpa using hn) (by simpa using hm)
    · rw [renormEnc_of_done _ hd, underflowLoop_of_done _ hd]

/-- The interleaved loop is the first loop, and then the second on whatever bounds the first leaves. -/
theorem renormEnc_eq_underflowLoop_emitLoop {n : Nat} {s : State} (hn : EndsWithin n s.low s.high) :
    renormEnc n s = underflowLoop Config.renormPasses (emitLoop n s) := by
  induction n generalizing s with
  | zero =>
    cases hn with
    | done hd => rw [renormEnc_of_done _ hd, emitLoop_of_done _ hd, underflowLoop_of_done _ hd]
  | succ n ih =>
    have hn' := hn
    rcases hn with hd | ⟨hc, hne, hn⟩
    · rw [renormEnc_of_done _ hd, emitLoop_of_done _ hd, underflowLoop_of_done _ hd]
    by_cases h3 : renormCase s.low s.high = .e3
    · have hstraddles := (renormCase_e3_iff _ _).mp h3
      rw [emitLoop_of_e3 _ h3]
      exact renormEnc_eq_underflowLoop (by omega) (by omega) hn' (endsWithin_renormPasses _ _)
    · rw [renormEnc_of_pass n hc hne, emitLoop_of_pass n hc hne (hc ▸ h3), if_neg (fun h => h3 (hc.trans h.1))]
      exact ih (by simpa using hn)

/-- Settles O29: enough passes are allowed to every loop. -/
theorem interleavedLoopEqualsTwoLoops : Obligations.InterleavedLoopEqualsTwoLoops := fun s =>
  renormEnc_eq_underflowLoop_emitLoop (endsWithin_renormPasses s.low s.high)

/-! ## The bits emitted (R131, R133, R134) -/

/-- The coded bits, the PENDING undetermined bits and LOW as one number, an undetermined bit weighing as a 1 below a 0
not yet written. -/
def codedNumber (s : State) : Nat :=
  bitsValue (codedBits s) * 2 ^ (32 + s.pending.toNat) + (2 ^ s.pending.toNat - 1) * 2 ^ 31 + s.low.toNat

/-- The number of bits written or held back. -/
def codedLength (s : State) : Nat := (codedBits s).length + s.pending.toNat

@[simp] theorem codedBits_shiftBounds (c : RenormCase) (s : State) : codedBits (shiftBounds c s) = codedBits s := rfl

/-- The number that EmitPend makes of the coded bits: its bit, then PENDING complements. -/
theorem bitsValue_emitPend (b : Bool) (s : State) :
    bitsValue (codedBits (emitPend b s)) =
      (2 * bitsValue (codedBits s) + b.toNat) * 2 ^ s.pending.toNat + if b then 0 else 2 ^ s.pending.toNat - 1 := by
  rw [codedBits_emitPend, bitsValue_append, bitsValue_append, bitsValue_replicate, bitsValue_singleton]
  cases b <;> simp [Nat.mul_comm]

/-- A committed bit takes the place of the undetermined bits' first and fixes the others. -/
theorem codedLength_emitPend (b : Bool) (s : State) : codedLength (emitPend b s) = codedLength s + 1 := by
  simp [codedLength, codedBits_emitPend]
  omega

/-- A bit held back is one more undetermined bit, unless PENDING would wrap. -/
theorem pending_succ_toNat {s : State} (h : s.pending ≠ Config.top) : (s.pending + 1).toNat = s.pending.toNat + 1 := by
  unfold Config.top at h
  bv_omega

theorem codedNumber_of_pending_zero {s : State} (h : s.pending = 0) :
    codedNumber s = bitsValue (codedBits s) * 2 ^ 32 + s.low.toNat := by
  simp [codedNumber, h]

/-- A pass doubles the number: it moves LOW's top bit to the coded bits, or holds it back. -/
theorem encPass_codedNumber {s : State} (h : s.low.toNat ≤ s.high.toNat) {c : RenormCase}
    (hc : renormCase s.low s.high = c) (hne : c ≠ .done) (hov : ¬ Overflows c s) :
    codedNumber (encPass c s) = 2 * codedNumber s := by
  obtain ⟨hoff, -, hlow, -⟩ := pass_toNat h hc hne
  obtain ⟨y, hy⟩ := Nat.exists_eq_add_of_le hoff
  obtain ⟨x, hx⟩ : ∃ x, 2 ^ s.pending.toNat = x + 1 := Nat.exists_eq_add_of_le' Nat.one_le_two_pow
  rw [hy, Nat.add_sub_cancel_left, ← encPass_low] at hlow
  rw [renormOffset_toNat] at hy
  have hs : codedNumber s = bitsValue (codedBits s) * (2 ^ 32 * (x + 1)) + x * 2 ^ 31 + s.low.toNat := by
    rw [codedNumber, Nat.pow_add, hx, Nat.add_sub_cancel]
  cases c with
  | e1 =>
    have hbits : codedBits (encPass .e1 s) = codedBits (emitPend false s) := rfl
    rw [codedNumber_of_pending_zero rfl, hbits, bitsValue_emitPend, hlow, hs, hy, hx, Nat.add_sub_cancel]
    simp only [Bool.toNat_false, Bool.false_eq_true, if_false]
    ring
  | e2 =>
    have hbits : codedBits (encPass .e2 s) = codedBits (emitPend true s) := rfl
    rw [codedNumber_of_pending_zero rfl, hbits, bitsValue_emitPend, hlow, hs, hy, hx, Bool.toNat_true, if_pos rfl]
    ring
  | e3 =>
    have hbits : codedBits (encPass .e3 s) = codedBits s := rfl
    have hpend : (encPass .e3 s).pending.toNat = s.pending.toNat + 1 := pending_succ_toNat fun hp => hov ⟨rfl, hp⟩
    have hx' : 2 ^ (s.pending.toNat + 1) - 1 = 2 * x + 1 := by rw [Nat.pow_succ, hx]; omega
    rw [codedNumber, hpend, hx', hbits, hlow, hs, hy, ← Nat.add_assoc, Nat.pow_succ, Nat.pow_add, hx]
    ring
  | done => exact absurd rfl hne

/-- A pass makes the coded and the undetermined bits together one longer. -/
theorem encPass_codedLength {s : State} {c : RenormCase} (hne : c ≠ .done) (hov : ¬ Overflows c s) :
    codedLength (encPass c s) = codedLength s + 1 := by
  cases c with
  | e1 => exact codedLength_emitPend false s
  | e2 => exact codedLength_emitPend true s
  | e3 => exact congrArg (_ + ·) (pending_succ_toNat fun hp => hov ⟨rfl, hp⟩)
  | done => exact absurd rfl hne

/-- Renormalization doubles the number, and makes the bits one longer, once for each pass. -/
theorem RenormRuns.coded {n : Nat} {s t : State} (h : RenormRuns n s t) (hle : s.low.toNat ≤ s.high.toNat) :
    codedNumber t = 2 ^ renormSteps n s.low s.high * codedNumber s ∧
      codedLength t = codedLength s + renormSteps n s.low s.high := by
  induction h with
  | outOfPasses s => simp [renormSteps]
  | done hd => simp [renormSteps_of_done _ hd]
  | pass hc hne hov _ ih =>
    obtain ⟨hnum, hlen⟩ := ih (by simpa using (pass_width hle hc hne).1)
    rw [encPass_low, encPass_high, encPass_codedNumber hle hc hne hov] at hnum
    rw [encPass_low, encPass_high, encPass_codedLength hne hov] at hlen
    rw [renormSteps_of_pass _ hc hne, hnum, hlen, Nat.pow_succ]
    exact ⟨by rw [Nat.mul_assoc], by omega⟩

/-- Settles O60: the number and the length go over the passes with the bounds. -/
theorem renormalizationEmitsTheShiftedBits : Obligations.RenormalizationEmitsTheShiftedBits := by
  rintro s t n hle rfl h
  have hruns := renormEnc_runs h
  obtain ⟨hnum, hlen⟩ := hruns.coded hle
  refine ⟨hnum, ?_, hlen⟩
  rw [← renormBounds_width _ hle, ← hruns.bounds]

end Sys2Proof.Machine
end

section
/-! SUPPORT. The ways ENC_SYM and DEC_SYM end, and what they leave of the predictor (41_encoder.md R137, 42_decoder.md
R159, 40_predictor.md R110). -/

namespace Sys2Proof.Machine

/-! ## The ways to end -/

theorem execEncSym_of_total_zero {s : State} (x : Byte) (h : (predict s).total = 0) :
    exec (.encSym x) s = .next (complete (raiseFault .invalidDist (predict s))) :=
  if_pos h

theorem execEncSym_of_total_ne {s : State} (x : Byte) (h : (predict s).total ≠ 0) :
    exec (.encSym x) s =
      .next (complete (encFinish x (renormEnc Config.renormPasses (encNarrowed (predict s) x)))) :=
  if_neg h

/-- ENC_SYM's Predict, narrowing and renormalization write these elements and no other (R130, R137). -/
theorem encSym_renormEnc_frame {x : Byte} {s v : State} {ovf : Bool}
    (h : renormEnc Config.renormPasses (encNarrowed (predict s) x) = (v, ovf)) :
    v = { s with
      low := v.low, high := v.high, pending := v.pending, obuf := v.obuf, ocnt := v.ocnt, bitcnt := v.bitcnt
      score := v.score, total := v.total, outq := v.outq } := by
  obtain rfl : (renormEnc Config.renormPasses (encNarrowed (predict s) x)).1 = v := by rw [h]
  rw [renormEnc_frame]
  rfl

/-- Settles O22: ENC_SYM's own branches; renormalization and Tail leave STREAM_SYMS. -/
theorem encSymOutcomes : Obligations.EncSymOutcomes := by
  intro x s
  refine ⟨execEncSym_of_total_zero x, fun h u hu => ?_, fun h u hu => ?_⟩
  · rw [execEncSym_of_total_ne x h, show renormEnc _ (encNarrowed (predict s) x) = (u, true) from hu]
    rfl
  · have hsyms : (tail u x).streamSyms = s.streamSyms := by rw [tail_streamSyms, encSym_renormEnc_frame hu]
    rw [execEncSym_of_total_ne x h, show renormEnc _ (encNarrowed (predict s) x) = (u, false) from hu, ← hsyms]
    rfl

/-- ENC_SYM ends in one of the ways of a command (R137). -/
theorem execEncSym_ran {x : Byte} {s t : State} (h : exec (.encSym x) s = .next t) :
    ∃ u, CommandRan s (.encSym x) u ∧ t = complete u := by
  by_cases h0 : (predict s).total = 0
  · rw [execEncSym_of_total_zero x h0] at h
    exact ⟨_, .encInvalid x h0, (Host.Outcome.next.inj h).symm⟩
  · rw [execEncSym_of_total_ne x h0] at h
    rcases hu : renormEnc Config.renormPasses (encNarrowed (predict s) x) with ⟨u, _ | _⟩ <;> rw [hu] at h
    · exact ⟨_, .encSym x u h0 hu, (Host.Outcome.next.inj h).symm⟩
    · exact ⟨_, .encOverflow x u h0 hu, (Host.Outcome.next.inj h).symm⟩

/-- DEC_SYM is held, or ends in one of the ways of a command (42_decoder.md R159). -/
theorem execDecSym_ran {s t : State} (h : exec .decSym s = .next t) :
    t = s ∨ ∃ u, CommandRan s .decSym u ∧ t = complete u := by
  have h1 : execDecSym s = .next t := h
  unfold execDecSym at h1
  cases hp : decPlan (predict s) <;> simp only [hp] at h1 <;> have ht := (Host.Outcome.next.inj h1).symm
  case invalidDist => exact .inr ⟨_, .decInvalid hp, ht⟩
  case held => exact .inl ht
  case truncated => exact .inr ⟨_, .decTruncated hp, ht⟩
  case run x lo hi => exact .inr ⟨_, .decSym x lo hi hp, ht⟩

/-! ## What they leave unchanged -/

/-- ENC_SYM writes these elements and no other, whatever its outcome. -/
theorem encSym_frame {x : Byte} {s u : State} (h : CommandRan s (.encSym x) u) :
    u = { s with
      mode := u.mode, low := u.low, high := u.high, pending := u.pending, obuf := u.obuf, ocnt := u.ocnt
      symcnt := u.symcnt, streamSyms := u.streamSyms, bitcnt := u.bitcnt, hist := u.hist, histValid := u.histValid
      mem := u.mem, score := u.score, total := u.total, outq := u.outq, err := u.err, error := u.error } := by
  cases h with
  | encInvalid => rfl
  | encOverflow _ v _ hv =>
    rw [encSym_renormEnc_frame hv]
    rfl
  | encSym _ v _ hv =>
    rw [(tail_registers v x).1, encSym_renormEnc_frame hv]

/-- A DEC_SYM that runs ends with Tail and the symbol count, in a state in which only these elements differ. -/
theorem decRun_predict (s : State) (x : Byte) (lo hi : Word) :
    ∃ v : State, decRun (predict s) x lo hi = { tail v x with streamSyms := (tail v x).streamSyms + 1 } ∧
      v = { s with
        low := v.low, high := v.high, code := v.code, rbuf := v.rbuf, rcnt := v.rcnt, phantom := v.phantom
        inq := v.inq, bitcnt := v.bitcnt, score := v.score, total := v.total, rsym := x, rvalid := true } := by
  refine ⟨_, rfl, ?_⟩
  generalize Config.renormPasses = n
  rw [renormDec_frame]
  rfl

/-- DEC_SYM writes these elements and no other, whatever its outcome (42_decoder.md R150, R159). -/
theorem decSym_frame {s u : State} (h : CommandRan s .decSym u) :
    u = { s with
      mode := u.mode, low := u.low, high := u.high, code := u.code, rbuf := u.rbuf, rcnt := u.rcnt
      phantom := u.phantom, inq := u.inq, symcnt := u.symcnt, streamSyms := u.streamSyms, bitcnt := u.bitcnt
      hist := u.hist, histValid := u.histValid, mem := u.mem, score := u.score, total := u.total, rsym := u.rsym
      rvalid := u.rvalid, err := u.err, error := u.error } := by
  cases h with
  | decInvalid | decTruncated => rfl
  | decSym x lo hi =>
    obtain ⟨v, hrun, hv⟩ := decRun_predict s x lo hi
    rw [hrun, (tail_registers v x).1, hv]

/-! ## The symbol they count (40_predictor.md R110) -/

/-- From `s` to `u` either no symbol was counted, or Tail counted `x` in a state that agrees with `s` in everything the
predictor reads. -/
def CountsSymbol (x : Byte) (s u : State) : Prop :=
  (u.streamSyms = s.streamSyms ∧ u.mem = s.mem ∧ u.hist = s.hist ∧ u.histValid = s.histValid ∧ u.symcnt = s.symcnt) ∨
    ∃ v, SamePredictor v s ∧ u.streamSyms = s.streamSyms + 1 ∧ u.mem = (tail v x).mem ∧ u.hist = (tail v x).hist ∧
      u.histValid = (tail v x).histValid ∧ u.symcnt = (tail v x).symcnt

theorem execEncSym_counts {x : Byte} {s t : State} (h : exec (.encSym x) s = .next t) : CountsSymbol x s t := by
  obtain ⟨u, hu, rfl⟩ := execEncSym_ran h
  cases hu with
  | encInvalid => exact .inl (by simp)
  | encOverflow _ v _ hv =>
    rw [encSym_renormEnc_frame hv]
    exact .inl (by simp)
  | encSym _ v _ hv =>
    have hframe := encSym_renormEnc_frame hv
    have hsyms : (tail v x).streamSyms = s.streamSyms := by rw [tail_streamSyms, hframe]
    refine .inr ⟨v, ?_, congrArg (· + 1) hsyms, rfl, rfl, rfl, rfl⟩
    rw [hframe]
    simp [SamePredictor]

theorem execDecSym_counts {s t : State} (h : exec .decSym s = .next t) : CountsSymbol t.rsym s t := by
  obtain rfl | ⟨u, hu, rfl⟩ := execDecSym_ran h
  · exact .inl (by simp)
  cases hu with
  | decInvalid | decTruncated => exact .inl (by simp)
  | decSym x lo hi =>
    obtain ⟨v, hrun, hv⟩ := decRun_predict s x lo hi
    have hsym : (complete (decRun (predict s) x lo hi)).rsym = x := by rw [complete_rsym, hrun, hv, tail_rsym]
    have hsyms : (tail v x).streamSyms = s.streamSyms := by rw [tail_streamSyms, hv]
    rw [hsym, hrun]
    refine .inr ⟨v, ?_, congrArg (· + 1) hsyms, rfl, rfl, rfl, rfl⟩
    rw [hv]
    simp [SamePredictor]

/-- States that agree in everything the predictor reads have the same indices. -/
theorem SamePredictor.indexOf_eq {v s : State} (h : SamePredictor v s) (k : Fin 8) : indexOf v k = indexOf s k := by
  obtain ⟨hparams, -, -, -, horder, -, -, hhist, hvalid, -⟩ := h
  simp [indexOf, ctxHash, histByte, hparams, horder, hhist, hvalid]

/-- Tail's registers, in the terms of a state that agrees in everything the predictor reads. -/
theorem SamePredictor.tail_registers {v s : State} (h : SamePredictor v s) (x : Byte) :
    (tail v x).hist[0] = x ∧ (∀ j : Fin 31, (tail v x).hist[j.val + 1] = s.hist[j.val]) ∧
      (tail v x).histValid.toNat = min (s.histValid.toNat + 1) 32 ∧
      (tail v x).symcnt = if s.rint.toNat ≤ (s.symcnt + 1).toNat then 0 else s.symcnt + 1 := by
  obtain ⟨-, -, -, hrint, -, -, -, hhist, hvalid, hcnt⟩ := h
  obtain ⟨hframe, hnew, hshift, hlen⟩ := Machine.tail_registers v x
  refine ⟨hnew, by rwa [← hhist], by rwa [← hvalid], ?_⟩
  rw [hframe, ← hrint, ← hcnt]
  rfl

/-- Tail's entries, in the terms of a state that agrees in everything the predictor reads. -/
theorem SamePredictor.tail_entry {v s : State} (h : SamePredictor v s) (x : Byte) (hT : s.params.tableBits ≤ 20)
    (hwf : s.mem.wf) (k : Fin 8) (i : Nat) (hi : i < 2 ^ 20) :
    (tail v x).entry k.val i =
      if s.rint.toNat ≤ (s.symcnt + 1).toNat then
        requant (if k.val < s.nord.toNat ∧ i = indexOf s k then touch s.ceil x (s.entry k.val i) else s.entry k.val i)
      else if k.val < s.nord.toNat ∧ i = indexOf s k then touch s.ceil x (s.entry k.val i) else s.entry k.val i := by
  have hindex := h.indexOf_eq k
  obtain ⟨hparams, hnord, hceil, hrint, -, -, hmem, -, -, hcnt⟩ := h
  have htail := Machine.tail_entry v x (by rwa [hparams]) (by rwa [hmem]) k i hi
  rw [hrint, hcnt, hnord, hindex, hceil, State.entry, State.entry, hmem] at htail
  exact htail

/-- Settles O23: the frames of both commands, and Tail's effect where a symbol was counted. -/
theorem symbolCommandFrames : Obligations.SymbolCommandFrames := by
  intro s t
  refine ⟨fun x h => ?_, fun h => ?_, fun x h => ?_⟩
  · obtain ⟨u, hu, rfl⟩ := execEncSym_ran h
    rw [encSym_frame hu]
    rfl
  · obtain rfl | ⟨u, hu, rfl⟩ := execDecSym_ran h
    · rfl
    · rw [decSym_frame hu]
      rfl
  have hcounts : CountsSymbol x s t := by
    rcases h with h | ⟨h, rfl⟩
    · exact execEncSym_counts h
    · exact execDecSym_counts h
  rcases hcounts with ⟨hsyms, hkept⟩ | ⟨v, hv, hsyms, hmem, hhist, hvalid, hcnt⟩
  · exact ⟨fun _ => hkept, fun hne => absurd hsyms hne⟩
  · refine ⟨fun he => absurd (hsyms.symm.trans he) (by bv_omega), fun _ => ?_⟩
    obtain ⟨hnew, hshift, hlen, hcount⟩ := hv.tail_registers x
    simp only [hsyms, hhist, hvalid, hcnt]
    refine ⟨trivial, hnew, hshift, hlen, hcount, fun hp hwf k i hi => ?_⟩
    obtain ⟨-, hT, -⟩ := hp
    have hentry : t.entry k.val i = (tail v x).entry k.val i := by rw [State.entry, hmem, State.entry]
    rw [hentry, hv.tail_entry x hT hwf k i hi]
    exact ⟨fun hn => by rw [if_neg hn], fun ha => by rw [if_pos ha]⟩

end Sys2Proof.Machine
end

section
/-! SUPPORT. The target and the symbol search, and why narrowing to the decoded symbol and renormalizing keep CODE inside
the interval (42_decoder.md R153, R154, R164). -/

namespace Sys2Proof.Machine

/-! ## The target (R153) -/

/-- The target's formula on an interval that holds CODE. -/
theorem target_eq {p : State} (h : p.low.toNat ≤ p.code.toNat) (h' : p.code.toNat ≤ p.high.toNat) :
    target p = ((p.code.toNat - p.low.toNat + 1) * p.total.toNat - 1) / (p.high.toNat - p.low.toNat + 1) := by
  rw [target, Nat.sub_add_comm h, Nat.sub_add_comm (h.trans h')]

/-- Settles O36: CODE - LOW + 1 is at most the interval's width. -/
theorem targetLiesBelowTotal : Obligations.TargetLiesBelowTotal := by
  intro p hlow hhigh htotal
  refine ⟨target_eq hlow hhigh, ?_⟩
  rw [target_eq hlow hhigh, Nat.div_lt_iff_lt_mul (by omega), Nat.mul_comm p.total.toNat]
  have hle : (p.code.toNat - p.low.toNat + 1) * p.total.toNat ≤ (p.high.toNat - p.low.toNat + 1) * p.total.toNat :=
    Nat.mul_le_mul_right _ (by omega)
  have hpos : 0 < (p.code.toNat - p.low.toNat + 1) * p.total.toNat := Nat.mul_pos (by omega) htotal
  omega

/-! ## The symbol search (R154) -/

/-- The search stops at the score whose cumulative range holds the target. -/
theorem searchSym_eq_some {t : Nat} {l : List (BitVec 22)} {lo : Nat} (n : Nat) (hlo : lo ≤ t)
    (ht : t < lo + scoreSum l) :
    ∃ j < l.length, searchSym t l lo n = some (n + j) ∧
      lo + scoreSum (l.take j) ≤ t ∧ t < lo + scoreSum (l.take (j + 1)) := by
  induction l generalizing lo n with
  | nil => exact absurd hlo (by simpa [scoreSum] using ht)
  | cons c l ih =>
    have hcons : ∀ m : List (BitVec 22), scoreSum (c :: m) = c.toNat + scoreSum m := fun m => by simp [scoreSum]
    by_cases hc : t < lo + c.toNat
    · exact ⟨0, by simp, by simp [searchSym, hc], by simpa [scoreSum] using hlo, by simpa [scoreSum] using hc⟩
    · obtain ⟨j, hj, hfound, hge, hlt⟩ := ih (n + 1) (Nat.not_lt.mp hc) (by rwa [hcons, ← Nat.add_assoc] at ht)
      refine ⟨j + 1, by simpa using hj, ?_, ?_, ?_⟩
      · rw [searchSym, if_neg hc, hfound, Nat.add_right_comm, Nat.add_assoc]
      · rwa [List.take_succ_cons, hcons, ← Nat.add_assoc]
      · rwa [List.take_succ_cons, hcons, ← Nat.add_assoc]

/-- The symbol found is the one whose cumulative range holds the target. -/
theorem symbolAt_range {p : State} {t : Nat} (ht : t < scoreSum p.score.toList) :
    cum p (symbolAt p t) ≤ t ∧ t < cum p (symbolAt p t) + freq p (symbolAt p t) := by
  obtain ⟨j, hj, hfound, hge, hlt⟩ := searchSym_eq_some 0 (Nat.zero_le t) (by rwa [Nat.zero_add])
  have hsym : (symbolAt p t).toNat = j := by
    rw [Vector.length_toList] at hj
    simpa [symbolAt, hfound] using hj
  rw [cum_add_freq, cum, hsym]
  simpa using And.intro hge hlt

/-- Cumulative ranges that hold one number belong to one symbol. -/
theorem le_of_cum_le_of_lt {p : State} {t : Nat} {x y : Byte} (hx : cum p x ≤ t) (hy : t < cum p y + freq p y) :
    x ≤ y := by
  by_contra hlt
  rw [cum_add_freq] at hy
  have hmono := scoreSum_take_mono p.score.toList (Nat.succ_le_of_lt (BitVec.not_le.mp hlt))
  exact absurd (hy.trans_le hmono) (Nat.not_lt.mpr hx)

/-- Settles O37: the search finds the range that holds the target, and no two symbols' ranges hold one number. -/
theorem decodedSymbolIsUnique : Obligations.DecodedSymbolIsUnique := by
  intro p t ht
  obtain ⟨hge, hlt⟩ := symbolAt_range ht
  exact ⟨hge, hlt, fun y hy hy' => BitVec.le_antisymm (le_of_cum_le_of_lt hy hlt) (le_of_cum_le_of_lt hge hy')⟩

/-! ## CODE inside the interval (R164) -/

/-- A symbol's range ends at or below TOTAL (40_predictor.md R103). -/
theorem cum_add_freq_le_total (s : State) (x : Byte) :
    cum (predict s) x + freq (predict s) x ≤ (predict s).total.toNat := by
  rw [cum_add_freq, total_predict]
  conv_rhs => rw [← List.take_append_drop (x.toNat + 1) (predict s).score.toList, scoreSum_append]
  exact Nat.le_add_right _ _

/-- With `c` the place of CODE in an interval of `r` values, the target's range scaled to the interval holds `c`. -/
theorem scaled_range_holds {c r t lc hc : Nat} (ht : 1 ≤ t) (hr : 1 ≤ r) (hlc : lc ≤ ((c + 1) * t - 1) / r)
    (hhc : ((c + 1) * t - 1) / r < hc) : r * lc / t ≤ c ∧ c + 1 ≤ r * hc / t := by
  have hpos : 0 < (c + 1) * t := Nat.mul_pos (Nat.succ_pos c) ht
  rw [Nat.le_div_iff_mul_le hr, Nat.mul_comm] at hlc
  rw [Nat.div_lt_iff_lt_mul hr, Nat.mul_comm hc] at hhc
  exact ⟨Nat.le_of_lt_add_one (Nat.div_lt_of_lt_mul (by rw [Nat.mul_comm t]; omega)),
    (Nat.le_div_iff_mul_le ht).mpr (by omega)⟩

/-- Narrowing a renormalized interval to the decoded symbol keeps CODE inside. -/
theorem encNarrow_symbolAt_holds {s : State} (htables : TablesOk s) (hrenorm : Renormalized s.low s.high)
    (hlow : s.low.toNat ≤ s.code.toNat) (hhigh : s.code.toNat ≤ s.high.toNat) (h0 : (predict s).total ≠ 0) :
    (encNarrow (predict s) (symbolAt (predict s) (target (predict s)))).1.toNat ≤ s.code.toNat ∧
      s.code.toNat ≤ (encNarrow (predict s) (symbolAt (predict s) (target (predict s)))).2.toNat := by
  have htotal : 1 ≤ (predict s).total.toNat := by bv_omega
  obtain ⟨htarget, hlt⟩ := targetLiesBelowTotal (predict s) hlow hhigh htotal
  obtain ⟨hcum, hfreq⟩ := symbolAt_range (total_predict s ▸ hlt)
  generalize symbolAt (predict s) (target (predict s)) = x at *
  rw [htarget] at hcum hfreq
  obtain ⟨hlo, hhi⟩ := scaled_range_holds htotal (by omega) hcum hfreq
  have hfloor : (predict s).total.toNat ≤ 65280 * freq (predict s) x := by
    obtain ⟨-, -, hfloor⟩ := distributionFloor s htables
    exact freq_predict s x ▸ hfloor x.toFin
  obtain ⟨hlt31, hge31, hquarter⟩ := hrenorm
  rw [half_eq] at hlt31 hge31
  rw [quarter_eq, threeq_eq] at hquarter
  obtain ⟨h1, h2, -⟩ := narrowingStaysInsideUnclamped s.low s.high (cum (predict s) x) (freq (predict s) x)
    (predict s).total.toNat (by omega) (by omega) htotal hfloor (cum_add_freq_le_total s x)
  show (narrow s.low s.high _ _ _).1.toNat ≤ _ ∧ _ ≤ (narrow s.low s.high _ _ _).2.toNat
  simp only [predict_low, predict_high, predict_code] at hlo hhi
  omega

theorem decPass_inside {s : State} (hlow : s.low.toNat ≤ s.code.toNat) (hhigh : s.code.toNat ≤ s.high.toNat)
    {c : RenormCase} (hc : renormCase s.low s.high = c) (hne : c ≠ .done) :
    (decPass c s).low.toNat ≤ (decPass c s).code.toNat ∧ (decPass c s).code.toNat ≤ (decPass c s).high.toNat :=
  decPass_holds hlow hhigh hc hne

/-- The decoder's renormalization keeps CODE inside the interval. -/
theorem renormDec_holds {n : Nat} {s : State} (hlow : s.low.toNat ≤ s.code.toNat) (hhigh : s.code.toNat ≤ s.high.toNat) :
    (renormDec n s).low.toNat ≤ (renormDec n s).code.toNat ∧
      (renormDec n s).code.toNat ≤ (renormDec n s).high.toNat := by
  induction n generalizing s with
  | zero => exact ⟨hlow, hhigh⟩
  | succ n ih =>
    by_cases hd : renormCase s.low s.high = .done
    · rw [renormDec_of_done _ hd]
      exact ⟨hlow, hhigh⟩
    · obtain ⟨hlow', hhigh'⟩ := decPass_inside hlow hhigh rfl hd
      rw [renormDec_of_pass n rfl hd]
      exact ih hlow' hhigh'

/-! ## The interval through commands, accesses and steps -/

/-- A DEC_SYM that runs has a nonempty distribution and narrows to the symbol that the target selects (R159). -/
theorem decPlan_run_symbol {p : State} {x : Byte} {lo hi : Word} (h : decPlan p = .run x lo hi) :
    p.total ≠ 0 ∧ x = symbolAt p (target p) ∧ (lo, hi) = encNarrow p x := by
  unfold decPlan at h
  split at h
  · cases h
  · next h0 =>
    dsimp only at h
    split at h <;> cases h
    exact ⟨h0, rfl, rfl⟩

/-- Only an open stream asks anything of the interval. -/
theorem coderOk_of_closed {s : State} (h : s.mode = .idle ∨ s.mode = .fault) : CoderOk s := by
  rcases h with h | h <;> simp [CoderOk, h]

theorem coderOk_of_enc {s : State} (h : s.mode = .enc) (hr : Renormalized s.low s.high) : CoderOk s :=
  ⟨fun _ => hr, by simp [h]⟩

/-- The interval is a matter of MODE, LOW, HIGH and CODE. -/
theorem CoderOk.congr {s t : State} (hs : CoderOk s) (hmode : t.mode = s.mode) (hlow : t.low = s.low)
    (hhigh : t.high = s.high) (hcode : t.code = s.code) : CoderOk t := by
  rwa [CoderOk, hmode, hlow, hhigh, hcode]

/-- The whole range of code values is renormalized. -/
theorem renormalized_full : Renormalized 0 Config.top := by decide

/-- A DEC_SYM that runs leaves a renormalized interval that holds CODE. -/
theorem decRun_coderOk {s : State} {x : Byte} {lo hi : Word} (htables : TablesOk s) (hs : CoderOk s)
    (hmode : s.mode = .dec) (h : decPlan (predict s) = .run x lo hi) : CoderOk (decRun (predict s) x lo hi) := by
  obtain ⟨h0, rfl, hb⟩ := decPlan_run_symbol h
  obtain ⟨hrenorm, hcode⟩ := hs
  obtain ⟨hlow, hhigh⟩ := hcode hmode
  obtain ⟨hlo, hhi⟩ := encNarrow_symbolAt_holds htables (hrenorm (.inr hmode)) hlow hhigh h0
  rw [← hb] at hlo hhi
  have hdec : CoderOk (renormDec Config.renormPasses { predict s with low := lo, high := hi }) :=
    ⟨fun _ => (renormalizationEnds _).2, fun _ => renormDec_holds hlo hhi⟩
  exact hdec.congr (by simp [decRun]) (by simp [decRun]) (by simp [decRun]) (by simp [decRun])

/-- Every command keeps the interval, if MODE allows it. -/
theorem commandRan_coderOk {s u : State} {i : Instr} (hm : modeAllows i s.mode = true) (htables : TablesOk s)
    (hs : CoderOk s) (hu : CommandRan s i u) : CoderOk u := by
  cases hu with
  | nop | tblClear | ctxClear | refresh | predict => exact hs
  | learn x => exact hs.congr (tail_mode s x) (tail_low s x) (tail_high s x) (tail_code s x)
  | abort | encFlush | decEnd => exact coderOk_of_closed (.inl rfl)
  | encInvalid | encOverflow | decStartTruncated | decInvalid | decTruncated => exact coderOk_of_closed (.inr rfl)
  | encStart => exact coderOk_of_enc rfl renormalized_full
  | encSym x v _ hv =>
    obtain rfl : (renormEnc Config.renormPasses (encNarrowed (predict s) x)).1 = v := by rw [hv]
    have hmode : s.mode = .enc := by simpa [modeAllows] using hm
    have hrenorm := (renormalizationEnds (encNarrowed (predict s) x)).1 (by rw [hv])
    exact coderOk_of_enc (by simpa using hmode) (by simpa using hrenorm)
  | decStart _ =>
    refine ⟨fun _ => by simpa [decLoad] using renormalized_full, fun _ => ?_⟩
    have hlt := (decLoad s).code.isLt
    simp only [decLoad, shiftCodeMany_low, shiftCodeMany_high, Config.top] at hlt ⊢
    exact ⟨Nat.zero_le _, Nat.le_of_lt_succ hlt⟩
  | decSym x lo hi hp => exact decRun_coderOk htables hs (by simpa [modeAllows] using hm) hp

/-- No host access touches the interval; a SOFT_RESET word closes the stream. -/
theorem access_coderOk {a : Access} {i : Instr} {s t : State} (hs : CoderOk s) (hd : decodeAccess a = .ok i)
    (h : exec i s = .next t) : CoderOk t := by
  refine access_keeps CoderOk hd h (here := hs) (read := fun _ _ hu => hu) (draw := hs) (pop := fun _ _ _ => hs)
    (rejected := fun _ => hs) (reset := coderOk_of_closed (.inl rfl)) (accepted := fun _ _ _ _ _ _ => hs)
    (queued := fun _ _ => hs) (errors := fun _ => hs) (status := fun _ _ => hs) (enable := fun _ => hs) (ended := hs)
    (score := fun _ => hs) (diag := fun _ => hs) (config := fun u _ _ hu => ?_)
  cases hu <;> exact hs

/-- Settles O59: a stream opens on the full interval, and narrowing to the decoded symbol and each renormalization pass keep
CODE inside. -/
theorem stepKeepsCodeInsideInterval : Obligations.StepKeepsCodeInsideInterval := by
  intro s t hs h
  exact step_keeps CoderOk h (here := hs.coder) (environment := fun _ _ _ hu => hu)
    (reset := coderOk_of_closed (.inl rfl))
    (command := fun _ _ u hw hi hu => show CoderOk u from
      commandRan_coderOk (pendOk_decode hs.pend hw hi).2 hs.tables hs.coder hu)
    (access := fun rest _ _ _ hd hx => access_coderOk (s := { s with hostq := rest }) hs.coder hd hx)

end Sys2Proof.Machine
end

section
/-! SUPPORT. The decoder's input as one sequence of bits: ReadBit, reading many bits, DEC_START and the decoder's
renormalization (42_decoder.md R151, R152, R155, R158). -/

namespace Sys2Proof.Machine

/-! ## The enabling table (R152) -/

/-- Settles O32: the model's check, branch by branch. -/
theorem enablingTable : Obligations.EnablingTable := by
  intro n a phantom
  refine ⟨fun h eoi => if_pos h, fun h => ?_, fun h hp => ?_, fun h hp => ?_⟩ <;>
    rw [inputCheck, if_neg (Nat.not_le.mpr h)]
  · rfl
  · exact if_pos hp
  · exact if_neg (Nat.not_le.mpr hp)

/-! ## ReadBit (R151) -/

theorem readerBits_of_rcnt_zero {s : State} (h : s.rcnt = 0) : readerBits s = [] := by simp [readerBits, h]

theorem rcnt_sub_one_toNat {s : State} (h : s.rcnt ≠ 0) : (s.rcnt - 1).toNat + 1 = s.rcnt.toNat := by bv_omega

/-- A loaded reader gives its bits one by one. -/
theorem readerBits_takeBit {s : State} (h : s.rcnt ≠ 0) :
    readerBits s = (takeBit s).1 :: readerBits (takeBit s).2 := by
  have hcnt := rcnt_sub_one_toNat h
  simp only [readerBits, takeBit, ← hcnt, List.range_succ_eq_map, List.map_cons, List.map_map, Nat.add_sub_cancel,
    Nat.sub_zero, List.cons.injEq, true_and]
  refine List.map_congr_left fun j _ => ?_
  simp only [Function.comp_apply, Nat.succ_eq_add_one, Nat.sub_sub, Nat.add_comm]

theorem inputBits_takeBit {s : State} (h : s.rcnt ≠ 0) : inputBits s = (takeBit s).1 :: inputBits (takeBit s).2 := by
  rw [inputBits, readerBits_takeBit h, List.cons_append, inputBits, takeBit_inq]

/-- An empty reader takes the next byte of INQ. -/
def loadByte (b : Byte) (rest : List Byte) (s : State) : State := { s with rbuf := b, rcnt := 8, inq := rest }

theorem inputBits_loadByte {s : State} {b : Byte} {rest : List Byte} (h : s.rcnt = 0) (hq : s.inq = b :: rest) :
    inputBits (loadByte b rest s) = inputBits s := by
  rw [inputBits, inputBits, readerBits_of_rcnt_zero h, hq]
  rfl

/-- ReadBit takes a bit of the reader, which it loads if it must, or finds no input. -/
theorem readBit_cases (s : State) :
    (s.rcnt ≠ 0 ∧ readBit s = takeBit s) ∨
    (s.rcnt = 0 ∧ ∃ b rest, s.inq = b :: rest ∧ readBit s = takeBit (loadByte b rest s)) ∨
    (s.rcnt = 0 ∧ s.inq = [] ∧ readBit s = (false, { s with phantom := s.phantom + 1, bitcnt := s.bitcnt + 1 })) := by
  unfold readBit
  split
  · next h =>
    split
    · next b rest hq => exact .inr (.inl ⟨h, b, rest, hq, rfl⟩)
    · next hq => exact .inr (.inr ⟨h, hq, rfl⟩)
  · next h => exact .inl ⟨h, rfl⟩

/-- ReadBit on the sequence of input bits: the head, or a phantom 0. -/
theorem readBit_inputBits (s : State) :
    (inputBits s = (readBit s).1 :: inputBits (readBit s).2 ∧ (readBit s).2.phantom = s.phantom) ∨
    (inputBits s = [] ∧ (readBit s).1 = false ∧ inputBits (readBit s).2 = [] ∧
      (readBit s).2.phantom = s.phantom + 1) := by
  rcases readBit_cases s with ⟨h, he⟩ | ⟨h, b, rest, hq, he⟩ | ⟨h, hq, he⟩ <;> rw [he]
  · exact .inl ⟨inputBits_takeBit h, rfl⟩
  · refine .inl ⟨?_, rfl⟩
    rw [← inputBits_loadByte h hq]
    exact inputBits_takeBit (by simp [loadByte])
  · have hnil : inputBits s = [] := by simp [inputBits, readerBits_of_rcnt_zero h, hq]
    exact .inr ⟨hnil, rfl, hnil, rfl⟩

theorem readBit_bitcnt (s : State) : (readBit s).2.bitcnt = s.bitcnt + 1 := by
  rcases readBit_cases s with ⟨_, he⟩ | ⟨_, b, rest, _, he⟩ | ⟨_, _, he⟩ <;> rw [he] <;> rfl

theorem readBit_rcnt_le {s : State} (h : s.rcnt.toNat ≤ 8) : (readBit s).2.rcnt.toNat ≤ 8 := by
  rcases readBit_cases s with ⟨h0, he⟩ | ⟨_, b, rest, _, he⟩ | ⟨_, _, he⟩ <;> rw [he]
  · have := rcnt_sub_one_toNat h0
    simp only [takeBit]
    omega
  · simp [takeBit, loadByte]
  · exact h

/-- Settles O31: the head of the input bits is taken, or there is none. -/
theorem readBitTakesTheNextInputBit : Obligations.ReadBitTakesTheNextInputBit := by
  intro s h
  refine ⟨readBit_bitcnt s, readBit_rcnt_le h, fun b rest hb => ?_, fun hnil => ?_, readBit_frame s⟩
  · rcases readBit_inputBits s with ⟨hcons, hp⟩ | ⟨hnil, _⟩
    · obtain ⟨rfl, rfl⟩ := List.cons.inj (hcons.symm.trans hb)
      exact ⟨rfl, rfl, hp⟩
    · exact absurd (hb.symm.trans hnil) (List.cons_ne_nil _ _)
  · rcases readBit_inputBits s with ⟨hcons, _⟩ | ⟨_, hread⟩
    · exact absurd (hcons.symm.trans hnil) (List.cons_ne_nil _ _)
    · exact hread

/-! ## Reading many bits -/

theorem bitsAvailable_eq_length (s : State) : bitsAvailable s = (inputBits s).length := by
  have hbyte : ∀ b : Byte, (byteBits b).length = 8 := fun b => by simp [byteBits]
  simp [bitsAvailable, inputBits, readerBits, List.length_flatMap, hbyte, Nat.mul_comm]

/-- From `s` to `t` the reader gives `n` bits: the real ones first, the missing ones counted in PHANTOM (R151). -/
def ReadsBits (n : Nat) (s t : State) : Prop :=
  inputBits t = (inputBits s).drop n ∧ t.bitcnt = s.bitcnt + BitVec.ofNat 32 n ∧
    t.phantom = s.phantom + BitVec.ofNat 5 (n - bitsAvailable s)

theorem ReadsBits.refl (s : State) : ReadsBits 0 s s := by simp [ReadsBits]

theorem ReadsBits.trans {m n : Nat} {s t u : State} (h : ReadsBits m s t) (h' : ReadsBits n t u) :
    ReadsBits (m + n) s u := by
  obtain ⟨hbits, hcnt, hph⟩ := h
  obtain ⟨hbits', hcnt', hph'⟩ := h'
  refine ⟨by rw [hbits', hbits, List.drop_drop], by rw [hcnt', hcnt, BitVec.add_assoc, BitVec.ofNat_add], ?_⟩
  rw [hph', hph, BitVec.add_assoc, ← BitVec.ofNat_add, bitsAvailable_eq_length t, hbits, List.length_drop,
    ← bitsAvailable_eq_length]
  congr 2
  omega

/-- The `n` bits that a read of `n` bits finds in a sequence, the missing ones being 0. -/
def paddedBits (n : Nat) (l : List Bool) : List Bool := (l ++ List.replicate n false).take n

theorem paddedBits_length (n : Nat) (l : List Bool) : (paddedBits n l).length = n := by simp [paddedBits]

theorem paddedBits_succ (n : Nat) (l : List Bool) : paddedBits (n + 1) l = l.headD false :: paddedBits n l.tail := by
  cases l with
  | nil => simp [paddedBits, List.replicate_succ]
  | cons b l => simp [paddedBits, List.replicate_succ', ← List.append_assoc, List.take_append]

theorem bitsValue_cons (b : Bool) (l : List Bool) : bitsValue (b :: l) = b.toNat * 2 ^ l.length + bitsValue l := by
  rw [← List.singleton_append, bitsValue_append, bitsValue_singleton]

theorem bitsValue_lt (l : List Bool) : bitsValue l < 2 ^ l.length := by
  induction l with
  | nil => decide
  | cons b l ih =>
    have hb : b.toNat * 2 ^ l.length ≤ 1 * 2 ^ l.length := Nat.mul_le_mul_right _ (Bool.toNat_le b)
    rw [bitsValue_cons, List.length_cons, Nat.pow_succ]
    omega

/-- The number of `n + 1` bits read, from the first bit and the number of the others. -/
theorem bitsValue_paddedBits_succ (n : Nat) (l : List Bool) :
    bitsValue (paddedBits (n + 1) l) = (l.headD false).toNat * 2 ^ n + bitsValue (paddedBits n l.tail) := by
  rw [paddedBits_succ, bitsValue_cons, paddedBits_length]

theorem readBit_fst (s : State) : (readBit s).1 = (inputBits s).headD false := by
  rcases readBit_inputBits s with ⟨h, _⟩ | ⟨h, hfalse, _⟩ <;> rw [h]
  · rfl
  · exact hfalse

theorem readBit_readsBits (s : State) : ReadsBits 1 s (readBit s).2 := by
  refine ⟨?_, readBit_bitcnt s, ?_⟩ <;> rcases readBit_inputBits s with ⟨h, hp⟩ | ⟨h, _, hnil, hp⟩
  · rw [h]; rfl
  · rw [h, hnil]; rfl
  · rw [hp, bitsAvailable_eq_length, h]; simp
  · rw [hp, bitsAvailable_eq_length, h]; rfl

/-- Shifting a bit into CODE reads it. -/
theorem shiftCode_readsBits (s : State) : ReadsBits 1 s (shiftCode s) := readBit_readsBits s

theorem inputBits_shiftCode (s : State) : inputBits (shiftCode s) = (inputBits s).tail := by
  rw [(shiftCode_readsBits s).1, List.drop_one]

/-! ## DEC_START (R158) -/

theorem shiftCodeMany_readsBits (n : Nat) (s : State) : ReadsBits n s (shiftCodeMany n s) := by
  induction n generalizing s with
  | zero => exact .refl s
  | succ n ih =>
    rw [shiftCodeMany, Nat.add_comm]
    exact (shiftCode_readsBits s).trans (ih (shiftCode s))

/-- Shifting `n` bits into CODE, modulo its width. -/
theorem shiftCodeMany_code (n : Nat) (s : State) :
    (shiftCodeMany n s).code.toNat ≡ s.code.toNat * 2 ^ n + bitsValue (paddedBits n (inputBits s)) [MOD 2 ^ 32] := by
  induction n generalizing s with
  | zero => simp [shiftCodeMany, paddedBits, bitsValue, Nat.ModEq]
  | succ n ih =>
    have hbit : (shiftCode s).code.toNat ≡ 2 * s.code.toNat + ((inputBits s).headD false).toNat [MOD 2 ^ 32] := by
      rw [shiftCode_code, readBit_fst]
      exact (Nat.mod_modEq _ _).add_right _
    rw [bitsValue_paddedBits_succ, ← inputBits_shiftCode]
    refine (ih (shiftCode s)).trans (((hbit.mul_right _).add_right _).trans (congrArg (· % 2 ^ 32) ?_))
    ring

/-- Reading all the bits of a reader empties it. -/
theorem shiftCodeMany_rcnt {n : Nat} {s : State} (h : s.rcnt.toNat = n) :
    (shiftCodeMany n s).rcnt = 0 ∧ (shiftCodeMany n s).inq = s.inq := by
  induction n generalizing s with
  | zero => exact ⟨BitVec.eq_of_toNat_eq h, rfl⟩
  | succ n ih =>
    have h0 : s.rcnt ≠ 0 := by rintro h0; simp [h0] at h
    have hcnt := rcnt_sub_one_toNat h0
    have hread : readBit s = takeBit s := if_neg h0
    have hshift : (shiftCode s).rcnt = s.rcnt - 1 ∧ (shiftCode s).inq = s.inq := by simp [shiftCode, hread, takeBit]
    obtain ⟨hr, hq⟩ := hshift
    exact hq ▸ ih (by rw [hr]; omega)

theorem shiftCodeMany_add (m n : Nat) (s : State) : shiftCodeMany (m + n) s = shiftCodeMany n (shiftCodeMany m s) := by
  induction m generalizing s with
  | zero => rw [Nat.zero_add, shiftCodeMany]
  | succ m ih => rw [Nat.add_right_comm, shiftCodeMany, shiftCodeMany, ih]

/-- With nothing left to read, phantom bits leave it so. -/
theorem shiftCodeMany_of_empty (n : Nat) {s : State} (h : s.rcnt = 0) (hq : s.inq = []) :
    (shiftCodeMany n s).rcnt = 0 ∧ (shiftCodeMany n s).inq = [] := by
  induction n generalizing s with
  | zero => exact ⟨h, hq⟩
  | succ n ih => exact ih (by simp [shiftCode, readBit, h, hq]) (by simp [shiftCode, readBit, h, hq])

/-- From an empty reader, eight bits are a byte of INQ. -/
theorem shiftCodeMany_byte {s : State} (h : s.rcnt = 0) :
    (shiftCodeMany 8 s).rcnt = 0 ∧ (shiftCodeMany 8 s).inq = s.inq.drop 1 := by
  rcases hq : s.inq with _ | ⟨b, rest⟩
  · exact shiftCodeMany_of_empty 8 h hq
  · have hload : (shiftCode s).rcnt = 7 ∧ (shiftCode s).inq = rest := by simp [shiftCode, readBit, takeBit, h, hq]
    obtain ⟨hr, hi⟩ := hload
    obtain ⟨hr', hi'⟩ := shiftCodeMany_rcnt (n := 7) (s := shiftCode s) (by rw [hr]; rfl)
    exact ⟨hr', hi'.trans hi⟩

/-- From an empty reader, `8 * k` bits are `k` bytes of INQ. -/
theorem shiftCodeMany_bytes (k : Nat) {s : State} (h : s.rcnt = 0) :
    (shiftCodeMany (8 * k) s).rcnt = 0 ∧ (shiftCodeMany (8 * k) s).inq = s.inq.drop k := by
  induction k generalizing s with
  | zero => exact ⟨h, rfl⟩
  | succ k ih =>
    obtain ⟨hr, hq⟩ := shiftCodeMany_byte h
    rw [Nat.mul_succ, Nat.add_comm, shiftCodeMany_add, Nat.add_comm k, ← List.drop_drop, ← hq]
    exact ih hr

/-- The state in which DEC_START reads its 32 bits (R158). -/
def decStartReader (s : State) : State :=
  { clearReader s with low := 0, high := Config.top, bitcnt := 0, code := 0 }

theorem decLoad_eq (s : State) : ∃ u, u = shiftCodeMany 32 (decStartReader s) ∧
    decLoad s = { u with streamSyms := 0, rsym := 0, rvalid := false, mode := .dec } := ⟨_, rfl, rfl⟩

/-- The bits read by DEC_START are the bits of INQ. -/
theorem inputBits_decStartReader (s : State) : inputBits (decStartReader s) = s.inq.flatMap byteBits := rfl

theorem bitsAvailable_decStartReader (s : State) : bitsAvailable (decStartReader s) = 8 * s.inq.length :=
  Nat.zero_add _

/-- CODE becomes the first 32 input bits. -/
theorem decLoad_code (s : State) : (decLoad s).code.toNat = bitsValue (paddedBits 32 (s.inq.flatMap byteBits)) := by
  obtain ⟨u, hu, he⟩ := decLoad_eq s
  have hcode := shiftCodeMany_code 32 (decStartReader s)
  have hlt := bitsValue_lt (paddedBits 32 (s.inq.flatMap byteBits))
  rw [paddedBits_length] at hlt
  rw [← hu, inputBits_decStartReader, show (decStartReader s).code.toNat = 0 from rfl, Nat.zero_mul, Nat.zero_add]
    at hcode
  rw [he]
  exact hcode.eq_of_lt_of_lt u.code.isLt hlt

/-- DEC_START consumes the first four bytes and leaves the reader empty. -/
theorem decLoad_inq (s : State) : (decLoad s).rcnt = 0 ∧ (decLoad s).inq = s.inq.drop 4 := by
  obtain ⟨u, hu, he⟩ := decLoad_eq s
  have hread := shiftCodeMany_bytes 4 (s := decStartReader s) rfl
  rw [← hu] at hread
  rw [he]
  exact hread

theorem decLoad_phantom (s : State) : (decLoad s).phantom = BitVec.ofNat 5 (32 - 8 * s.inq.length) := by
  obtain ⟨u, hu, he⟩ := decLoad_eq s
  obtain ⟨-, -, hphantom⟩ := hu ▸ shiftCodeMany_readsBits 32 (decStartReader s)
  rw [bitsAvailable_decStartReader, show (decStartReader s).phantom = 0#5 from rfl, BitVec.zero_add] at hphantom
  rw [he]
  exact hphantom

/-- What DEC_START writes when it loads the coder, and that it writes nothing else. -/
theorem decLoad_frame (s : State) :
    decLoad s = { s with
      rbuf := (decLoad s).rbuf, rcnt := (decLoad s).rcnt, phantom := (decLoad s).phantom, inq := (decLoad s).inq
      low := 0, high := 0xFFFFFFFF#32, code := (decLoad s).code, bitcnt := 32, streamSyms := 0, rsym := 0
      rvalid := false, mode := .dec } := by
  obtain ⟨u, hu, he⟩ := decLoad_eq s
  obtain ⟨-, hbitcnt, -⟩ := hu ▸ shiftCodeMany_readsBits 32 (decStartReader s)
  have hframe := shiftCodeMany_frame 32 (decStartReader s)
  rw [← hu] at hframe
  rw [he, hframe, hbitcnt]
  rfl

theorem decStartCheck_of_held {s : State} (hlt : 8 * s.inq.length < 32) (he : s.eoi = false) :
    decStartCheck s = .held := by
  obtain ⟨-, hheld, -, -⟩ := enablingTable 32 (8 * s.inq.length) 0
  rw [decStartCheck, he, hheld hlt]

theorem decStartCheck_of_ended {s : State} (hq : s.inq = []) (he : s.eoi = true) : decStartCheck s = .truncated := by
  rw [decStartCheck, hq, he]
  rfl

/-- One byte leaves 24 bits missing, which the phantom allowance covers. -/
theorem decStartCheck_of_enough {s : State} (h : 32 ≤ 8 * s.inq.length ∨ (s.eoi = true ∧ s.inq ≠ [])) :
    decStartCheck s = .enough := by
  obtain ⟨hreal, -, hphantom, -⟩ := enablingTable 32 (8 * s.inq.length) 0
  by_cases hle : 32 ≤ 8 * s.inq.length
  · exact hreal hle _
  · obtain ⟨he, hq⟩ := h.resolve_left hle
    have hpos := List.length_pos_iff.mpr hq
    rw [decStartCheck, he, hphantom (by omega) (by omega)]

/-- Settles O33: the check of R152 for 32 bits, then 32 bits read from an empty reader. -/
theorem decStartLoadsTheCode : Obligations.DecStartLoadsTheCode := by
  intro s
  have hexec : exec .decStart s = execDecStart s := rfl
  rw [hexec, execDecStart]
  refine ⟨fun hlt he => by rw [decStartCheck_of_held hlt he], fun hq he => ?_, fun h => ?_⟩
  · rw [decStartCheck_of_ended hq he]
    rfl
  · obtain ⟨hrcnt, hinq⟩ := decLoad_inq s
    have hphantom : (decLoad s).phantom.toNat = 32 - 8 * s.inq.length := by
      have hpos : 1 ≤ s.inq.length := by
        rcases h with h | ⟨-, hq⟩
        · omega
        · exact List.length_pos_iff.mpr hq
      rw [decLoad_phantom, BitVec.toNat_ofNat, Nat.mod_eq_of_lt (by omega)]
    rw [decStartCheck_of_enough h]
    exact ⟨decLoad s, rfl, decLoad_code s, hinq, hrcnt, hphantom, decLoad_frame s⟩

/-! ## Renormalization (R155, R156) -/

/-- A decoder pass reads one bit. -/
theorem decPass_readsBits (c : RenormCase) (s : State) : ReadsBits 1 s (decPass c s) :=
  shiftCode_readsBits (shiftBounds c { s with code := s.code - renormOffset c })

theorem renormDec_readsBits (n : Nat) (s : State) : ReadsBits (renormSteps n s.low s.high) s (renormDec n s) := by
  induction n generalizing s with
  | zero => exact .refl s
  | succ n ih =>
    by_cases hd : renormCase s.low s.high = .done
    · rw [renormDec_of_done _ hd, renormSteps_of_done _ hd]
      exact .refl s
    · rw [renormDec_of_pass n rfl hd, renormSteps_of_pass n rfl hd, Nat.add_comm]
      have hrest := ih (decPass (renormCase s.low s.high) s)
      rw [decPass_low, decPass_high] at hrest
      exact (decPass_readsBits _ s).trans hrest

/-- A decoder pass on an interval that holds CODE doubles the distance from LOW and adds the bit read. -/
theorem decPass_code_sub_low {s : State} (hlow : s.low.toNat ≤ s.code.toNat) (hhigh : s.code.toNat ≤ s.high.toNat)
    {c : RenormCase} (hc : renormCase s.low s.high = c) (hne : c ≠ .done) :
    (decPass c s).code.toNat - (decPass c s).low.toNat =
      2 * (s.code.toNat - s.low.toNat) + ((inputBits s).headD false).toNat := by
  obtain ⟨hoff, hlt, hlow', -⟩ := pass_toNat (hlow.trans hhigh) hc hne
  have hcode : (s.code - renormOffset c).toNat = s.code.toNat - (renormOffset c).toNat :=
    BitVec.toNat_sub_of_le (hoff.trans hlow)
  have hbit : (readBit (shiftBounds c { s with code := s.code - renormOffset c })).1 = (inputBits s).headD false :=
    readBit_fst _
  rw [decPass_low, hlow', decPass, shiftCode_code, hbit, shiftBounds_code, hcode]
  omega

/-- The decoder's renormalization shifts the bits that it reads into CODE - LOW. -/
theorem renormDec_code_sub_low (n : Nat) {s : State} (hlow : s.low.toNat ≤ s.code.toNat)
    (hhigh : s.code.toNat ≤ s.high.toNat) :
    (renormDec n s).code.toNat - (renormDec n s).low.toNat =
      (s.code.toNat - s.low.toNat) * 2 ^ renormSteps n s.low s.high +
        bitsValue (paddedBits (renormSteps n s.low s.high) (inputBits s)) := by
  induction n generalizing s with
  | zero => simp [renormDec, renormSteps, paddedBits, bitsValue]
  | succ n ih =>
    by_cases hd : renormCase s.low s.high = .done
    · simp [renormDec_of_done _ hd, renormSteps_of_done _ hd, paddedBits, bitsValue]
    · obtain ⟨hlow', hhigh'⟩ := decPass_inside hlow hhigh rfl hd
      have hbits : inputBits (decPass (renormCase s.low s.high) s) = (inputBits s).tail := by
        rw [(decPass_readsBits _ s).1, List.drop_one]
      rw [renormDec_of_pass n rfl hd, renormSteps_of_pass n rfl hd, ih hlow' hhigh', decPass_code_sub_low hlow hhigh rfl hd,
        decPass_low, decPass_high, hbits, bitsValue_paddedBits_succ]
      ring

/-- Settles O34: one bit read in each pass, shifted into CODE - LOW. -/
theorem renormDecReadsStepCountBits : Obligations.RenormDecReadsStepCountBits := by
  rintro s n - rfl
  obtain ⟨hbits, hcnt, hph⟩ := renormDec_readsBits Config.renormPasses s
  refine ⟨hbits, hcnt, fun hle => ?_, fun hlow hhigh =>
    ⟨(renormDec_holds hlow hhigh).1, renormDec_code_sub_low _ hlow hhigh⟩⟩
  rw [hph, BitVec.toNat_add, BitVec.toNat_ofNat]
  omega

/-- Settles O35: both loops reach the same bounds. -/
theorem decoderRenormalizesAsTheEncoder : Obligations.DecoderRenormalizesAsTheEncoder := by
  intro s u v hlow hhigh h
  have hbounds := (renormEnc_runs h).bounds
  rw [hlow, hhigh, ← renormDec_bounds, Prod.mk.injEq] at hbounds
  exact ⟨hbounds.1.symm, hbounds.2.symm⟩

end Sys2Proof.Machine
end

section
/-! SUPPORT. The ways DEC_SYM ends, and a decoder that stays in step with an encoder (42_decoder.md R159, R163). -/

namespace Sys2Proof.Machine

/-! ## The ways DEC_SYM ends (R159) -/

/-- What the answer of the enabling table makes of DEC_SYM (R152, R159). -/
def planOfCheck (x : Byte) (lo hi : Word) : InputCheck → DecPlan
  | .held => .held
  | .truncated => .truncated
  | .enough => .run x lo hi

/-- On a nonempty distribution the enabling table decides. -/
theorem decPlan_of_total_ne {p : State} {x : Byte} {lo hi : Word} (h0 : p.total ≠ 0) (hx : x = symbolAt p (target p))
    (hb : (lo, hi) = encNarrow p x) : decPlan p = planOfCheck x lo hi
      (inputCheck (renormSteps Config.renormPasses lo hi) (bitsAvailable p) p.phantom.toNat p.eoi) := by
  subst hx
  rw [decPlan, if_neg h0]
  dsimp only
  rw [← hb]
  dsimp only
  cases inputCheck (renormSteps Config.renormPasses lo hi) (bitsAvailable p) p.phantom.toNat p.eoi <;> rfl

/-- The next state of DEC_SYM, from its decision (R159). -/
def decSymNext (s : State) : DecPlan → State
  | .invalidDist => complete (raiseFault .invalidDist (predict s))
  | .held => s
  | .truncated => complete (raiseFault .truncated (predict s))
  | .run x lo hi => complete (decRun (predict s) x lo hi)

theorem exec_decSym (s : State) : exec .decSym s = .next (decSymNext s (decPlan (predict s))) := by
  have hexec : exec .decSym s = execDecSym s := rfl
  rw [hexec, execDecSym]
  cases decPlan (predict s) <;> rfl

/-- DEC_SYM's last steps: RESULT, Tail and the symbol count. -/
theorem decRun_eq (s : State) (x : Byte) (lo hi : Word) :
    decRun (predict s) x lo hi =
      { tail { renormDec Config.renormPasses { predict s with low := lo, high := hi } with rsym := x, rvalid := true } x
        with streamSyms := s.streamSyms + 1 } := by
  have hsyms : (renormDec Config.renormPasses { predict s with low := lo, high := hi }).streamSyms = s.streamSyms := by
    rw [renormDec_frame]
    rfl
  simp only [decRun, tail_streamSyms, hsyms]

/-- Settles O38: the decision on TOTAL and the enabling table, then what each decision does. -/
theorem decSymOutcomes : Obligations.DecSymOutcomes := by
  rintro s p x lo hi n rfl hx hb rfl
  rw [exec_decSym]
  have hplan : (predict s).total ≠ 0 → decPlan (predict s) = planOfCheck x lo hi
      (inputCheck (renormSteps Config.renormPasses lo hi) (bitsAvailable s) s.phantom.toNat s.eoi) :=
    fun h0 => decPlan_of_total_ne h0 hx hb
  refine ⟨fun h0 => ?_, fun h0 h => ?_, fun h0 h => ?_, fun h0 h => ⟨_, rfl, ?_⟩⟩
  · rw [decPlan, if_pos h0, decSymNext]
  · rw [hplan h0, h, planOfCheck, decSymNext]
  · rw [hplan h0, h, planOfCheck, decSymNext]
  · rw [hplan h0, h, planOfCheck, decSymNext, decRun_eq]

/-! ## Blocks that agree in everything the predictor reads -/

theorem SamePredictor.symm {s d : State} (h : SamePredictor s d) : SamePredictor d s := by
  simp only [SamePredictor] at h ⊢
  simp only [h, and_self]

theorem SamePredictor.trans {s d e : State} (h : SamePredictor s d) (h' : SamePredictor d e) : SamePredictor s e := by
  simp only [SamePredictor] at h h' ⊢
  simp only [h, h', and_self]

/-- Such states mix the same entries with the same weights (40_predictor.md R103). -/
theorem SamePredictor.mixRows_eq {s d : State} (h : SamePredictor s d) : mixRows s = mixRows d := by
  have hindex := h.indexOf_eq
  obtain ⟨-, hnord, -, -, -, hweight, hmem, -⟩ := h
  simp only [mixRows, activeSlots, slotKey, hindex, hnord, hweight, hmem]

theorem SamePredictor.score_predict {s d : State} (h : SamePredictor s d) : (predict s).score = (predict d).score := by
  simp only [predict, h.mixRows_eq]

theorem SamePredictor.total_predict {s d : State} (h : SamePredictor s d) : (predict s).total = (predict d).total := by
  simp only [predict, h.mixRows_eq]

/-- With the same interval, they narrow it to the same bounds. -/
theorem SamePredictor.encNarrow_predict {s d : State} (h : SamePredictor s d) (hlow : s.low = d.low)
    (hhigh : s.high = d.high) (x : Byte) : encNarrow (predict s) x = encNarrow (predict d) x := by
  simp only [encNarrow, cum, freq, h.score_predict, h.total_predict, predict_low, predict_high, hlow, hhigh]

/-- Tail on the same symbol keeps them in agreement (40_predictor.md R110). -/
theorem SamePredictor.tail {s d : State} (h : SamePredictor s d) (x : Byte) :
    SamePredictor (Machine.tail s x) (Machine.tail d x) := by
  cases s
  cases d
  simp only [SamePredictor] at h
  obtain ⟨rfl, rfl, rfl, rfl, rfl, rfl, rfl, rfl, rfl, rfl⟩ := h
  exact ⟨rfl, rfl, rfl, rfl, rfl, rfl, rfl, rfl, rfl, rfl⟩

theorem samePredictor_renormEnc (n : Nat) (s : State) : SamePredictor (renormEnc n s).1 s := by
  rw [renormEnc_frame]
  simp [SamePredictor]

theorem samePredictor_renormDec (n : Nat) (s : State) : SamePredictor (renormDec n s) s := by
  rw [renormDec_frame]
  simp [SamePredictor]

@[simp] theorem renormEnc_total (n : Nat) (s : State) : (renormEnc n s).1.total = s.total := by rw [renormEnc_frame]
@[simp] theorem renormDec_total (n : Nat) (s : State) : (renormDec n s).total = s.total := by rw [renormDec_frame]

/-! ## The decoder mirrors the encoder (R163) -/

/-- An ENC_SYM that leaves the stream open renormalized without overflow, and then counted the symbol (41_encoder.md
R137). -/
theorem encSym_of_mode_enc {s u : State} {x : Byte} (h : CommandRan s (.encSym x) u) (hmode : u.mode = .enc) :
    ∃ v, u = { tail v x with streamSyms := (tail v x).streamSyms + 1 } ∧
      renormEnc Config.renormPasses (encNarrowed (predict s) x) = (v, false) ∧
      SamePredictor v s ∧ v.total = (predict s).total := by
  cases h with
  | encInvalid | encOverflow => simp at hmode
  | encSym _ v _ hv =>
    refine ⟨v, rfl, hv, ?_⟩
    obtain rfl : (renormEnc Config.renormPasses (encNarrowed (predict s) x)).1 = v := by rw [hv]
    exact ⟨(samePredictor_renormEnc _ _).trans (by simp [SamePredictor]), by simp⟩

/-- A DEC_SYM that runs renormalizes, sets RESULT and then counts the symbol (R159). -/
theorem decRun_counts (d : State) (x : Byte) (lo hi : Word) :
    ∃ w r, decRun (predict d) x lo hi = { tail w x with streamSyms := (tail w x).streamSyms + 1 } ∧
      r = renormDec Config.renormPasses { predict d with low := lo, high := hi } ∧ w.low = r.low ∧ w.high = r.high ∧
      SamePredictor w d ∧ w.total = (predict d).total ∧ w.rsym = x ∧ w.rvalid = true := by
  refine ⟨_, _, rfl, rfl, rfl, rfl, ?_, ?_, rfl, rfl⟩
  · exact (samePredictor_renormDec Config.renormPasses { predict d with low := lo, high := hi }).trans
      (by simp [SamePredictor])
  · exact renormDec_total _ _

/-- Counting the symbol and completing leave the predictor as Tail left it. -/
theorem samePredictor_complete (s : State) (n : Word) : SamePredictor (complete { s with streamSyms := n }) s := by
  simp [SamePredictor]

/-- Settles O39: the same distribution narrows the same interval to the same bounds, both loops renormalize them alike, and
Tail counts the same symbol. -/
theorem decoderMirrorsEncoder : Obligations.DecoderMirrorsEncoder := by
  intro s d s' d' x lo hi hsame hlow hhigh _ hplan hdec henc hmode
  rw [exec_decSym, hplan] at hdec
  obtain rfl : complete (decRun (predict d) x lo hi) = d' := Host.Outcome.next.inj hdec
  obtain ⟨u, hu, rfl⟩ := execEncSym_ran henc
  obtain ⟨v, rfl, hv, hvs, hvtotal⟩ := encSym_of_mode_enc hu hmode
  obtain ⟨w, r, hrun, hr, hwlow, hwhigh, hwd, hwtotal, hsym, hvalid⟩ := decRun_counts d x lo hi
  obtain ⟨-, -, hnarrow⟩ := decPlan_run_symbol hplan
  have hb : encNarrow (predict s) x = (lo, hi) := (hsame.encNarrow_predict hlow hhigh x).trans hnarrow.symm
  have ⟨hlow', hhigh'⟩ := decoderRenormalizesAsTheEncoder { predict d with low := lo, high := hi } _ v
    (congrArg Prod.fst hb) (congrArg Prod.snd hb) hv
  rw [← hr, ← hwlow] at hlow'
  rw [← hr, ← hwhigh] at hhigh'
  have htail := ((hvs.trans hsame).trans hwd.symm).tail x
  rw [hrun]
  refine ⟨((samePredictor_complete _ _).trans htail).trans (samePredictor_complete _ _).symm, ?_⟩
  simp only [complete_low, complete_high, complete_total, complete_rsym, complete_rvalid, tail_low, tail_high, tail_total,
    tail_rsym, tail_rvalid]
  exact ⟨hlow'.symm, hhigh'.symm, by rw [hvtotal, hwtotal, hsame.total_predict], hsym, hvalid⟩

end Sys2Proof.Machine
end

section
/-! SUPPORT. The acceptance of a CMD write, the completion of a command, and what a step keeps of PEND, BUSY and DONE
(43_control.md R170 to R176). -/

namespace Sys2Proof.Machine

/-! ## The acceptance of a command (43_control.md R170) -/

/-- SOFT_RESET has one word (30_encoding.md R83). -/
theorem decodeCmd_eq_softReset_iff {w : Word} : decodeCmd w = .ok .softReset ↔ w = 0x01000000#32 := by
  constructor
  · intro h
    obtain ⟨hw, _⟩ := encodeOfDecode (.command w) .softReset h
    exact (Packet.command.inj hw).symm
  · rintro rfl
    rfl

theorem exec_wrCmd (w : Word) (s : State) : exec (.wrCmd w) s = .next (cmdWrite w s) := rfl

theorem cmdWrite_of_softReset (s : State) : cmdWrite 0x01000000#32 s = resetBlock s := rfl

section
variable {w : Word} {s : State}

theorem cmdWrite_of_busy (hw : w ≠ 0x01000000#32) (hb : busy s = true) : cmdWrite w s = reject .cmdOverrun s := by
  simp [cmdWrite, hw, hb]

theorem cmdWrite_of_illegal {e : DecodeError} (hb : busy s = false) (hd : decodeCmd w = .error e) :
    cmdWrite w s = reject .illegalCmd s := by
  have hw : w ≠ 0x01000000#32 := by
    rintro rfl
    cases hd
  simp [cmdWrite, hw, hb, hd]

theorem cmdWrite_of_mode {i : Instr} (hw : w ≠ 0x01000000#32) (hb : busy s = false) (hd : decodeCmd w = .ok i)
    (hm : modeAllows i s.mode = false) : cmdWrite w s = reject .modeErr s := by
  simp [cmdWrite, hw, hb, hd, hm]

theorem cmdWrite_of_allowed {i : Instr} (hw : w ≠ 0x01000000#32) (hb : busy s = false) (hd : decodeCmd w = .ok i)
    (hm : modeAllows i s.mode = true) : cmdWrite w s = { s with pend := some w } := by
  simp [cmdWrite, hw, hb, hd, hm]

end

/-- Settles O5: the branches of CmdWrite, in their order. -/
theorem commandAcceptanceOrder : Obligations.CommandAcceptanceOrder := by
  refine ⟨fun s => rfl, fun w s hw => ⟨fun hb => ?_, fun hb e hd => ?_, fun hb i hd hm => ?_, fun hb i hd hm => ?_⟩⟩ <;>
    rw [exec_wrCmd]
  · rw [cmdWrite_of_busy hw hb]
    rfl
  · rw [cmdWrite_of_illegal hb hd]
    rfl
  · rw [cmdWrite_of_mode hw hb hd hm]
    rfl
  · rw [cmdWrite_of_allowed hw hb hd hm]

/-! ## FAULT (43_control.md R175) -/

/-- In FAULT only three commands are allowed (30_encoding.md R89). -/
theorem eq_of_modeAllows_fault {i : Instr} (h : modeAllows i .fault = true) : i = .nop ∨ i = .softReset ∨ i = .abort := by
  cases i with
  | nop => exact .inl rfl
  | softReset => exact .inr (.inl rfl)
  | abort => exact .inr (.inr rfl)
  | _ => exact absurd h Bool.false_ne_true

/-- Outside IDLE every configuration write is rejected (44_host_access.md R205). -/
theorem cfgWrite_of_mode_ne_idle {s : State} (h : s.mode ≠ .idle) (legal : Bool) (u : State) :
    cfgWrite legal u s = reject .cfgErr s := if_pos (.inl h)

/-- A DIN write before EOI queues a byte while INQ has room (44_host_access.md R197). -/
theorem dinWrite_of_room {s : State} (he : s.eoi = false) (hq : s.inq.length < s.params.inDepth) (v : Word) :
    dinWrite v s = { s with inq := s.inq ++ [v.extractLsb' 0 8] } := by
  simp [dinWrite, he, Nat.not_le.mpr hq]

/-- A DOUT read pops the oldest byte (44_host_access.md R199). -/
theorem doutRead_outq {s : State} {b : Byte} {rest : List Byte} (h : s.outq = b :: rest) :
    (doutRead s).outq = rest := by
  simp [doutRead, h]

/-- Settles O10: CmdWrite and the configuration writes by MODE, the input and output accesses without it. -/
theorem faultModeAcceptsOnlyThreeCommands : Obligations.FaultModeAcceptsOnlyThreeCommands := by
  intro s hfault
  have hidle : s.mode ≠ .idle := by rw [hfault]; nofun
  refine ⟨fun hb w i hd hnop hsoft habort => ?rejected, fun hb => ⟨?nop, ?abort⟩, fun i hi => ?config,
    fun v he hq => ?din, fun v => rfl, fun b rest hq => ⟨doutRead s, rfl, doutRead_outq hq⟩⟩
  case rejected =>
    have hw : w ≠ 0x01000000#32 := fun hw => hsoft (Except.ok.inj (hd.symm.trans (decodeCmd_eq_softReset_iff.mpr hw)))
    have hm : modeAllows i s.mode = false := by
      rw [hfault, Bool.eq_false_iff]
      intro h
      rcases eq_of_modeAllows_fault h with h | h | h
      · exact hnop h
      · exact hsoft h
      · exact habort h
    rw [exec_wrCmd, cmdWrite_of_mode hw hb hd hm]
    rfl
  case nop => rw [exec_wrCmd, cmdWrite_of_allowed (i := .nop) (by decide) hb rfl rfl]
  case abort => rw [exec_wrCmd, cmdWrite_of_allowed (i := .abort) (by decide) hb rfl rfl]
  case config =>
    have hrej := cfgWrite_of_mode_ne_idle hidle
    obtain ⟨v, rfl | rfl | rfl | ⟨k, rfl | rfl⟩⟩ := hi
    · exact congrArg Host.Outcome.next (hrej (legalNord v) _)
    · exact congrArg Host.Outcome.next (hrej (legalCeil v) _)
    · exact congrArg Host.Outcome.next (hrej (legalRint v) _)
    · exact congrArg Host.Outcome.next (hrej (legalOrder v) _)
    · exact congrArg Host.Outcome.next (hrej (legalWeight v) _)
  case din => exact congrArg Host.Outcome.next (dinWrite_of_room he hq v)

/-! ## The control commands and their completion (43_control.md R171 to R174) -/

/-- BUSY is 0 exactly if PEND is empty and the output fits the physical FIFO (10_state.md R47). -/
theorem busy_eq_false_iff (s : State) : busy s = false ↔ s.pend = none ∧ s.outq.length ≤ s.params.outDepth := by
  simp [busy]

theorem busy_of_pend {s : State} {w : Word} (h : s.pend = some w) : busy s = true := by
  simp [busy, h]

/-- Completion keeps DONE or sets it, by BUSY after it. -/
theorem complete_done (s : State) : (complete s).done = (s.done || !busy (complete s)) := rfl

/-- Settles O6: with PEND empty, BUSY is whether the output exceeds the physical FIFO. -/
theorem completionEmptiesPendAndSetsDone : Obligations.CompletionEmptiesPendAndSetsDone := by
  intro s
  have hdone : (complete s).done = if s.outq.length ≤ s.params.outDepth then true else s.done := by
    rw [complete_done]
    by_cases h : s.outq.length ≤ s.params.outDepth
    · simp [h, (busy_eq_false_iff (complete s)).mpr ⟨rfl, h⟩]
    · simp [h, busy, Nat.not_le.mp h]
  rw [← hdone]
  rfl

/-- Settles O7: each command is its rule's record update, completed. -/
theorem controlCommandEffects : Obligations.ControlCommandEffects := fun _ => ⟨rfl, rfl, rfl, rfl⟩

/-! ## The turns of the block and of the host (43_control.md R176, 20_memory.md R69) -/

theorem step_of_fetch_run {s t : State} {i : Instr} (h : fetch s = .run i t) : step s = exec i t := by
  simp [step, h]

theorem step_of_fetch_quiet {s t : State} (h : fetch s = .quiet t) : step s = .next t := by
  simp [step, h]

/-- On the block's turn the word in PEND is what runs. -/
theorem fetch_of_blockTurn {s : State} {w : Word} (hw : s.pend = some w) (hb : blockTurn s = true) :
    fetch s = fetchBlock s w := by
  simp [fetch, hb, hw]

theorem fetchBlock_of_decode {s : State} {w : Word} {i : Instr} (h : decodeCmd w = .ok i) :
    fetchBlock s w = .run i s := by
  simp [fetchBlock, h]

theorem fetchHost_access_of_decode {a : Access} {i : Instr} {s : State} (hpin : s.resetPin = false)
    (h : decodeAccess a = .ok i) : fetchHost (.access a) s = .run i s := by
  simp [fetchHost, hpin, h]

/-- A command in PEND has the turn when no host event is left, or when it is not held and the next event does not come
before it. -/
theorem blockTurn_of_pend {s : State} {w : Word} (hpin : s.resetPin = false) (hw : s.pend = some w)
    (h : s.hostq = [] ∨ (holdIn s = false ∧ ∃ act rest, s.hostq = ⟨false, act⟩ :: rest)) : blockTurn s = true := by
  rcases h with hq | ⟨hh, act, rest, hq⟩
  · simp [blockTurn, hpin, hw, hq]
  · simp [blockTurn, hpin, hw, hq, hh]

/-- The next host event has the turn when PEND is empty, its command is held, or the event comes before it. -/
theorem blockTurn_of_event {s : State} {ev : HostEvent} {rest : List HostEvent} (hq : s.hostq = ev :: rest)
    (h : s.pend = none ∨ holdIn s = true ∨ ev.early = true) : blockTurn s = false := by
  rcases h with hp | hh | he
  · simp [blockTurn, hp]
  · simp [blockTurn, hq, hh]
  · exact blockTurn_of_early hq he

/-- Settles O50: whose turn it is, what is fetched on it, and the operation that this decodes to. -/
theorem stepRunsTheDecodedOperation : Obligations.StepRunsTheDecodedOperation := by
  constructor
  · intro s w i hpin hw hd hturn
    refine step_of_fetch_run ?_
    rw [fetch_of_blockTurn hw (blockTurn_of_pend hpin hw hturn), fetchBlock_of_decode hd]
  · intro s ev rest a i hpin hq ha hd hturn
    refine step_of_fetch_run ?_
    rw [fetch_of_hostTurn hq (blockTurn_of_event hq hturn), ha]
    exact fetchHost_access_of_decode hpin hd

/-- Settles O2: the CMD write and the command reset the block, and so does the event of the reset input, which raises the
pin. -/
theorem resetsReachTheResetState : Obligations.ResetsReachTheResetState := by
  refine ⟨fun s => ?_, fun s => rfl, fun s rest hq => ?_⟩
  · rw [exec_wrCmd, cmdWrite_of_softReset]
    rfl
  · refine step_of_fetch_quiet ?_
    rw [fetch_of_hostTurn hq (blockTurn_of_early hq rfl)]
    rfl

/-! ## PEND (43_control.md R170, R176) -/

/-- An empty PEND is legal. -/
theorem pendOk_of_pend_none {s : State} (h : s.pend = none) : PendOk s := by
  simp [PendOk, h]

/-- The word of a command other than SOFT_RESET that MODE allows is legal in PEND. -/
theorem pendOk_of_decode {s : State} {w : Word} {i : Instr} (hw : s.pend = some w) (hd : decodeCmd w = .ok i)
    (hi : i ≠ .softReset) (hm : modeAllows i s.mode = true) : PendOk s := by
  intro v hv
  obtain rfl : w = v := Option.some.inj (hw.symm.trans hv)
  exact ⟨i, by simp [hd, Except.toOption], hi, hm⟩

/-- An access leaves PEND and MODE, resets the block, or puts an accepted word into PEND. -/
theorem access_pendOk {a : Access} {i : Instr} {s t : State} (hs : PendOk s) (hd : decodeAccess a = .ok i)
    (h : exec i s = .next t) : PendOk t := by
  refine access_keeps PendOk hd h (here := hs) (read := fun _ _ hu => hu) (draw := hs) (pop := fun _ _ _ => hs)
    (rejected := fun _ => hs) (reset := pendOk_of_pend_none rfl) (accepted := fun w i hw _ hi hm => ?_)
    (queued := fun _ _ => hs) (errors := fun _ => hs) (status := fun _ _ => hs) (enable := fun _ => hs) (ended := hs)
    (score := fun _ => hs) (diag := fun _ => hs) (config := fun u _ _ hu => ?_)
  · refine pendOk_of_decode rfl hi ?_ hm
    rintro rfl
    exact hw (decodeCmd_eq_softReset_iff.mp hi)
  · cases hu <;> exact hs

/-- Settles O57: a completed command and a reset leave PEND empty, and an access accepts legal words only. -/
theorem stepKeepsPendLegal : Obligations.StepKeepsPendLegal := by
  intro s t hs h
  exact step_keeps PendOk h (here := hs) (environment := fun _ _ _ hu => hu) (reset := pendOk_of_pend_none rfl)
    (command := fun _ _ u _ _ _ => pendOk_of_pend_none (complete_pend u))
    (access := fun rest _ _ _ hd hx => access_pendOk (s := { s with hostq := rest }) hs hd hx)

/-! ## DONE (43_control.md R171) -/

/-- From `s` to `t` DONE follows BUSY: a fall of BUSY leaves DONE = 1, unless `t` is the reset state but for the reset pin
and the model's own fields; and DONE rises only where BUSY falls. -/
def DoneFollowsBusy (s t : State) : Prop :=
  (busy s = true → busy t = false → t.done = true ∨
    t = { State.resetWith s.params with
      resetPin := t.resetPin, hostq := t.hostq, reads := t.reads, draws := t.draws }) ∧
  (s.done = false → t.done = true → busy s = true ∧ busy t = false)

/-- Where BUSY does not fall and DONE does not rise there is nothing to show. -/
theorem doneFollowsBusy_of_not_falling {s t : State} (hb : busy s = true → busy t = true)
    (hd : t.done = true → s.done = true) : DoneFollowsBusy s t := by
  refine ⟨fun h h' => ?_, fun h h' => ?_⟩
  · rw [hb h] at h'
    cases h'
  · rw [hd h'] at h
    cases h

theorem doneFollowsBusy_resetBlock (s : State) : DoneFollowsBusy s (resetBlock s) :=
  ⟨fun _ _ => .inr rfl, fun _ h => absurd h Bool.false_ne_true⟩

/-- The model's own fields and the reset pin are no part of it. -/
theorem DoneFollowsBusy.environment {s u : State} (h : DoneFollowsBusy s u) (pin : Bool) (q : List HostEvent)
    (r : List Word) (n : Nat) : DoneFollowsBusy s { u with resetPin := pin, hostq := q, reads := r, draws := n } := by
  obtain ⟨hfall, hrise⟩ := h
  refine ⟨fun hs hu => (hfall hs hu).imp id fun he => ?_, hrise⟩
  rw [he]

@[simp] theorem renormEnc_done (n : Nat) (s : State) : (renormEnc n s).1.done = s.done := by rw [renormEnc_frame]
@[simp] theorem renormDec_done (n : Nat) (s : State) : (renormDec n s).done = s.done := by rw [renormDec_frame]

/-- No command writes DONE before it completes. -/
theorem commandRan_done {s u : State} {i : Instr} (hu : CommandRan s i u) : u.done = s.done := by
  cases hu with
  | encSym x v _ hv | encOverflow x v _ hv =>
    obtain rfl : (renormEnc Config.renormPasses (encNarrowed (predict s) x)).1 = v := by rw [hv]
    simp
  | learn x => exact tail_done s x
  | encFlush => simp
  | decStart _ => simp [decLoad]
  | decSym x lo hi _ => simp [decRun]
  | nop | tblClear | ctxClear | refresh | abort | predict | encStart | encInvalid | decStartTruncated | decInvalid
  | decTruncated | decEnd => rfl

/-- A completed command sets DONE exactly if it leaves BUSY = 0. -/
theorem doneFollowsBusy_complete {s u : State} {w : Word} (hw : s.pend = some w) (hd : u.done = s.done) :
    DoneFollowsBusy s (complete u) := by
  refine ⟨fun _ hb => .inl ?_, fun hs h => ⟨busy_of_pend hw, ?_⟩⟩
  · simp [complete_done, hb]
  · simpa [complete_done, hd, hs] using h

/-- The pop of a byte sets DONE exactly if it makes BUSY fall (44_host_access.md R199). -/
theorem doneFollowsBusy_pop {s : State} {b : Byte} {rest : List Byte} (hq : s.outq = b :: rest) :
    DoneFollowsBusy s
      { s with outq := rest, done := s.done || (s.pend.isNone && rest.length == s.params.outDepth) } := by
  refine ⟨fun hb hb' => .inl ?_, fun hs h => ?_⟩
  · obtain ⟨hp, hle⟩ : s.pend = none ∧ rest.length ≤ s.params.outDepth := (busy_eq_false_iff _).mp hb'
    have hlt : s.params.outDepth < rest.length + 1 := by simpa [busy, hp, hq] using hb
    have he : rest.length = s.params.outDepth := by omega
    simp [hp, he]
  · obtain ⟨hp, he⟩ : s.pend = none ∧ rest.length = s.params.outDepth := by simpa [hs] using h
    exact ⟨by simp [busy, hq, he], (busy_eq_false_iff _).mpr ⟨hp, he.le⟩⟩

/-- Only a SOFT_RESET word and a DOUT read make BUSY fall at an access, and only the read sets DONE. -/
theorem access_doneFollowsBusy {a : Access} {i : Instr} {s t : State} (hd : decodeAccess a = .ok i)
    (h : exec i s = .next t) : DoneFollowsBusy s t := by
  have here : DoneFollowsBusy s s := doneFollowsBusy_of_not_falling id id
  refine access_keeps (DoneFollowsBusy s) hd h (here := here) (read := fun u _ hu => hu.environment _ _ _ _)
    (draw := here.environment _ _ _ _) (pop := fun _ _ hq => doneFollowsBusy_pop hq)
    (rejected := fun _ => doneFollowsBusy_of_not_falling id id) (reset := doneFollowsBusy_resetBlock s)
    (accepted := fun _ _ _ _ _ _ => doneFollowsBusy_of_not_falling (fun _ => rfl) id)
    (queued := fun _ _ => doneFollowsBusy_of_not_falling id id)
    (errors := fun _ => doneFollowsBusy_of_not_falling id id)
    (status := fun _ _ => doneFollowsBusy_of_not_falling id fun h => (Bool.and_eq_true_iff.mp h).1)
    (enable := fun _ => doneFollowsBusy_of_not_falling id id) (ended := doneFollowsBusy_of_not_falling id id)
    (score := fun _ => doneFollowsBusy_of_not_falling id id) (diag := fun _ => doneFollowsBusy_of_not_falling id id)
    (config := fun u _ _ hu => ?_)
  cases hu <;> exact doneFollowsBusy_of_not_falling id id

/-- Settles O11: DONE follows BUSY through a reset, the completion of a command and every access. -/
theorem doneIsSetExactlyWhenBusyFalls : Obligations.DoneIsSetExactlyWhenBusyFalls := by
  intro s t _ h
  exact step_keeps (DoneFollowsBusy s) h (here := doneFollowsBusy_of_not_falling id id)
    (environment := fun _ _ _ hu => hu.environment _ _ _ _) (reset := doneFollowsBusy_resetBlock s)
    (command := fun _ _ _ hw _ hu => doneFollowsBusy_complete hw (commandRan_done hu))
    (access := fun rest _ _ _ hd hx => access_doneFollowsBusy (s := { s with hostq := rest }) hd hx)

end Sys2Proof.Machine
end

section
/-! SUPPORT. Which operations leave the table memory, and the configuration's legality through every command, access and
step (44_host_access.md R204, R205, 20_memory.md R61). -/

namespace Sys2Proof.Machine

/-! ## The table memory changes by commands only (44_host_access.md R204, 20_memory.md R61) -/

/-- DEC_START leaves the tables, held or not (42_decoder.md R158). -/
theorem execDecStart_mem {s t : State} (h : exec .decStart s = .next t) : t.mem = s.mem := by
  have h1 : execDecStart s = .next t := h
  unfold execDecStart at h1
  split at h1 <;> obtain rfl := Host.Outcome.next.inj h1
  · rfl
  · rfl
  · simp [decLoad]

/-- A command leaves the tables, unless it is one of these six. -/
theorem exec_command_mem {w : Word} {i : Instr} {s t : State} (hd : decodeCmd w = .ok i) (h : exec i s = .next t) :
    t.mem = s.mem ∨ i = .tblClear ∨ i = .refresh ∨ (∃ x, i = .learn x) ∨ (∃ x, i = .encSym x) ∨ i = .decSym ∨
      i = .softReset := by
  cases i with
  | tblClear | refresh | learn | encSym | decSym | softReset => simp
  | nop | ctxClear | abort | predict | encStart | decEnd =>
    obtain rfl := Host.Outcome.next.inj h
    exact .inl rfl
  | encFlush =>
    obtain rfl := Host.Outcome.next.inj h
    exact .inl (by simp)
  | decStart => exact .inl (execDecStart_mem h)
  | _ => simpa using decodeCmd_cases hd

/-- No read changes the tables. -/
theorem exec_readOf_mem {r : Reg} {s t : State} (h : exec (readOf r) s = .next t) : t.mem = s.mem := by
  rcases read_cases h with ⟨v, rfl⟩ | ⟨v, rfl⟩ | ⟨-, b, rest, v, -, rfl⟩ <;> rfl

/-- No write changes the tables, a SOFT_RESET word excepted. -/
theorem exec_writeOf_mem {v : Word} {r : Reg} {s t : State} (h : exec (writeOf v r) s = .next t) :
    t.mem = s.mem ∨ (r = .cmd ∧ v = 0x01000000#32) := by
  rcases write_cases h with rfl | ⟨hr, rfl⟩ | ⟨e, rfl⟩ | ⟨-, -, b, rfl⟩ | ⟨e, rfl⟩ | ⟨d, e, rfl⟩ | ⟨e, rfl⟩ | rfl |
    ⟨x, rfl⟩ | rfl | ⟨-, -, hc⟩
  case inr.inl =>
    rcases cmdWrite_cases v s with ⟨hv, -⟩ | ⟨-, e, he⟩ | ⟨j, -, -, -, -, he⟩
    · exact .inr ⟨hr, hv⟩
    · exact .inl (by rw [he]; rfl)
    · exact .inl (by rw [he])
  case inr.inr.inr.inr.inr.inr.inr.inr.inr.inr => cases hc <;> exact .inl rfl
  all_goals exact .inl rfl

/-- Settles O20: of the commands the six named, of the writes a SOFT_RESET word; the other accesses leave the tables. -/
theorem tablesChangeOnlyByCommands : Obligations.TablesChangeOnlyByCommands := by
  intro i s t h hne
  rcases instr_cases i with ⟨w, hd⟩ | ⟨r, rfl⟩ | ⟨r, v, rfl⟩ | ⟨off, k, rfl⟩
  · have hcmd := (exec_command_mem hd h).resolve_left hne
    simp only [← or_assoc] at hcmd ⊢
    exact .inl hcmd
  · exact absurd (exec_readOf_mem h) hne
  · obtain ⟨rfl, rfl⟩ := (exec_writeOf_mem h).resolve_left hne
    simp [writeOf]
  · rcases unmapped_cases h with rfl | rfl <;> exact absurd rfl hne

/-! ## The configuration's legality (44_host_access.md R205) -/

/-- What a step keeps of a block built with the parameters `p`: them, and a legal configuration. -/
abbrev ConfigKept (p : Params) (s : State) : Prop := ConfigOk s ∧ s.params = p

/-- Only the parameters and the configuration registers bear on the configuration's legality. -/
theorem ConfigKept.congr {p : Params} {s t : State} (hs : ConfigKept p s)
    (h : t.config = s.config ∧ t.params = s.params) : ConfigKept p t := by
  obtain ⟨hc, hp⟩ := h
  simp only [State.config, Prod.mk.injEq] at hc
  obtain ⟨hn, hce, hr, ho, -⟩ := hc
  unfold ConfigKept ConfigOk
  rwa [hp, hn, hce, hr, ho]

/-- A reset gives a legal configuration (10_state.md R54). -/
theorem resetBlock_configKept {p : Params} {s : State} (hs : ConfigKept p s) : ConfigKept p (resetBlock s) :=
  ⟨(resetStateIsSafe s.params hs.1.1).config, hs.2⟩

/-- No command but SOFT_RESET changes the configuration or the parameters (40_predictor.md R117, 00_scope.md R8). -/
theorem commandRan_config_params {s u : State} {i : Instr} (hu : CommandRan s i u) :
    u.config = s.config ∧ u.params = s.params := by
  cases i with
  | encSym x =>
    rw [encSym_frame hu]
    exact ⟨rfl, rfl⟩
  | decSym =>
    rw [decSym_frame hu]
    exact ⟨rfl, rfl⟩
  | learn x =>
    cases hu
    exact ⟨tail_config s x, tail_params s x⟩
  | encFlush =>
    cases hu
    exact ⟨padByte_flushBits_config s, by simp⟩
  | decStart =>
    cases hu with
    | decStartTruncated => exact ⟨rfl, rfl⟩
    | decStart => exact ⟨decLoad_config s, by simp [decLoad]⟩
  | nop | tblClear | ctxClear | refresh | abort | predict | encStart | decEnd =>
    cases hu
    exact ⟨rfl, rfl⟩
  | _ => cases hu

theorem toNat_setWidth_of_lt {n : Nat} {v : Word} (h : v.toNat < 2 ^ n) : (v.setWidth n).toNat = v.toNat := by
  rw [BitVec.toNat_setWidth, Nat.mod_eq_of_lt h]

/-- A legal value is stored unchanged in every register that has a bound beyond its width. -/
theorem configWritten_configOk {s t : State} (hs : ConfigOk s) (ht : ConfigWritten s t) : ConfigOk t := by
  obtain ⟨hp, hn1, hn8, hc, hr, ho⟩ := hs
  cases ht with
  | nord v h =>
    have ⟨h1, h8⟩ : 1 ≤ v.toNat ∧ v.toNat ≤ 8 := by simpa [legalNord] using h
    have hv : (v.setWidth 4).toNat = v.toNat := toNat_setWidth_of_lt (by omega)
    exact ⟨hp, hv ▸ h1, hv ▸ h8, hc, hr, ho⟩
  | ceil v h =>
    have ⟨h1, h2⟩ : 1 ≤ v.toNat ∧ v.toNat ≤ 32767 := by simpa [legalCeil] using h
    have hv : (v.setWidth 15).toNat = v.toNat := toNat_setWidth_of_lt (by omega)
    exact ⟨hp, hn1, hn8, hv ▸ h1, hr, ho⟩
  | rint v h =>
    have ⟨h1, h2⟩ : 1 ≤ v.toNat ∧ v.toNat ≤ 65535 := by simpa [legalRint] using h
    have hv : (v.setWidth 16).toNat = v.toNat := toNat_setWidth_of_lt (by omega)
    exact ⟨hp, hn1, hn8, hc, hv ▸ h1, ho⟩
  | order k v h =>
    have ⟨h1, h32⟩ : 1 ≤ v.toNat ∧ v.toNat ≤ 32 := by simpa [legalOrder] using h
    have hv : (v.setWidth 6).toNat = v.toNat := toNat_setWidth_of_lt (by omega)
    refine ⟨hp, hn1, hn8, hc, hr, fun o hmem => ?_⟩
    rcases Vector.mem_or_eq_of_mem_set (hi := k.isLt) (Vector.mem_toList_iff.mp hmem) with hold | rfl
    · exact ho o (Vector.mem_toList_iff.mpr hold)
    · exact hv ▸ ⟨h1, h32⟩
  | weight k v _ => exact ⟨hp, hn1, hn8, hc, hr, ho⟩

theorem configWritten_params {s t : State} (ht : ConfigWritten s t) : t.params = s.params := by
  cases ht <;> rfl

/-- An access leaves the configuration, resets the block, or stores a legal value. -/
theorem access_configKept {p : Params} {a : Access} {i : Instr} {s t : State} (hs : ConfigKept p s)
    (hd : decodeAccess a = .ok i) (h : exec i s = .next t) : ConfigKept p t :=
  access_keeps (ConfigKept p) hd h (here := hs) (read := fun _ _ hu => hu) (draw := hs) (pop := fun _ _ _ => hs)
    (rejected := fun _ => hs) (reset := resetBlock_configKept hs) (accepted := fun _ _ _ _ _ _ => hs)
    (queued := fun _ _ => hs) (errors := fun _ => hs) (status := fun _ _ => hs) (enable := fun _ => hs) (ended := hs)
    (score := fun _ => hs) (diag := fun _ => hs)
    (config := fun _ _ _ hu => ⟨configWritten_configOk hs.1 hu, (configWritten_params hu).trans hs.2⟩)

/-- Settles O55: the configuration stays legal through a reset, every command and every access. -/
theorem stepKeepsConfigurationLegal : Obligations.StepKeepsConfigurationLegal := by
  intro s t hs h
  have here : ConfigKept s.params s := ⟨hs, rfl⟩
  exact step_keeps (ConfigKept s.params) h (here := here) (environment := fun _ _ _ hu => hu)
    (reset := resetBlock_configKept here)
    (command := fun _ _ u _ _ hu => show ConfigKept s.params u from here.congr (commandRan_config_params hu))
    (access := fun rest _ _ _ hd hx => access_configKept (s := { s with hostq := rest }) here hd hx)

end Sys2Proof.Machine
end

section
/-! SUPPORT. What the host accesses read and write: the reads that no pending command leaves open, the writes of the
status and select registers, DIN, DOUT and the configuration writes (44_host_access.md R194 to R205). -/

namespace Sys2Proof.Machine

/-! ## Reads of registers that the pending command does not write (44_host_access.md R200 to R204, R206) -/

/-- A register that the pending command does not write reads as its value, and the read changes nothing else. -/
theorem exec_readOf_of_not_open {s : State} {k : Fin 8} {r : Reg} {v : Word} (hd : r ≠ .dout)
    (hk : ∀ j, r = .hist j ∨ r = .idx j → j = k) (hv : regValue s r = v)
    (h : ∀ i, pendCmd s = some i → ∀ rd ∈ openReads s.params.tableBits k i, rd.1 ≠ readOf r) :
    exec (readOf r) s = .next { s with reads := v :: s.reads } := by
  rw [exec_readOf hd]
  simp [readReg, readOpen_eq_false hk h, hv, hostRead]

/-- A one-bit flag as a number. -/
theorem ofBool_toNat_mul (b : Bool) (n : Nat) : (BitVec.ofBool b).toNat * n = if b then n else 0 := by
  cases b <;> simp

/-- RESULT as a number: RVALID in bit 8 above RSYM (10_state.md R42). -/
theorem regValue_result (s : State) :
    regValue s .result = BitVec.ofNat 32 ((if s.rvalid then 256 else 0) + s.rsym.toNat) := by
  apply BitVec.eq_of_toNat_eq
  simp only [regValue, zext32, BitVec.toNat_setWidth, BitVec.toNat_ofNat, append_toNat, ofBool_toNat_mul,
    Nat.reducePow]

/-- SCORE_DATA is the score that SCORE_IDX selects (R203). -/
theorem regValue_scoreData (s : State) : regValue s .scoreData = s.score[s.scoreIdx.toNat].setWidth 32 := by
  simp [regValue, zext32, Vector.getElem?_eq_getElem s.scoreIdx.isLt]

/-- DIAG_DATA as a number: the selected symbol's count above its probability (R204). -/
theorem regValue_diagData (s : State) : regValue s .diagData = BitVec.ofNat 32
    ((diagEntry s).cnt[(s.diagSel.extractLsb' 0 8).toNat].toNat * 256 +
      (diagEntry s).prob[(s.diagSel.extractLsb' 0 8).toNat].toNat) := by
  have hsym := (s.diagSel.extractLsb' 0 8).isLt
  apply BitVec.eq_of_toNat_eq
  simp only [regValue, diagSym, Vector.getElem?_eq_getElem hsym, Option.getD_some, append_toNat, BitVec.toNat_ofNat]
  omega

/-- DIAG_TOTAL as a number: `hot` in bit 16 above `tot` (R204). -/
theorem regValue_diagTotal (s : State) : regValue s .diagTotal = BitVec.ofNat 32
    ((if (diagEntry s).hot then 65536 else 0) + (diagEntry s).tot.toNat) := by
  apply BitVec.eq_of_toNat_eq
  simp only [regValue, append_toNat, BitVec.toNat_ofNat, ofBool_toNat_mul, Nat.reducePow]
  have htot := (diagEntry s).tot.isLt
  split <;> omega

/-- HIST[j] as a number: four history bytes, the newest lowest (R201). -/
theorem regValue_hist (s : State) (j : Fin 8) : regValue s (.hist j) = BitVec.ofNat 32
    (s.hist[4 * j.val + 3].toNat * 2 ^ 24 + s.hist[4 * j.val + 2].toNat * 2 ^ 16 + s.hist[4 * j.val + 1].toNat * 2 ^ 8 +
      s.hist[4 * j.val].toNat) := by
  have hbyte : ∀ n (hn : n < 32), histByte s n = s.hist[n] := fun n hn => by
    simp [histByte, Vector.getElem?_eq_getElem hn]
  apply BitVec.eq_of_toNat_eq
  simp only [regValue, histWord, append_toNat, BitVec.toNat_ofNat, hbyte (4 * j.val) (by omega),
    hbyte (4 * j.val + 1) (by omega), hbyte (4 * j.val + 2) (by omega), hbyte (4 * j.val + 3) (by omega)]
  omega

/-- Settles O41: each row is the read of one register, whose value is the one its rule gives. -/
theorem readsWithoutPendingCommand : Obligations.ReadsWithoutPendingCommand := by
  intro s k row hrow h
  simp only [List.mem_cons, List.not_mem_nil, or_false] at hrow
  rcases hrow with rfl | rfl | rfl | rfl | rfl | rfl | rfl | rfl | rfl | rfl | rfl | rfl | rfl | rfl | rfl | rfl
  · exact exec_readOf_of_not_open (r := .result) nofun nofun (regValue_result s) h
  · exact exec_readOf_of_not_open (r := .total) nofun nofun rfl h
  · exact exec_readOf_of_not_open (r := .symcnt) nofun nofun rfl h
  · exact exec_readOf_of_not_open (r := .streamSyms) nofun nofun rfl h
  · exact exec_readOf_of_not_open (r := .bitcnt) nofun nofun rfl h
  · exact exec_readOf_of_not_open (r := .low) nofun nofun rfl h
  · exact exec_readOf_of_not_open (r := .high) nofun nofun rfl h
  · exact exec_readOf_of_not_open (r := .code) nofun nofun rfl h
  · exact exec_readOf_of_not_open (r := .pending) nofun nofun rfl h
  · exact exec_readOf_of_not_open (r := .histValid) nofun nofun rfl h
  · exact exec_readOf_of_not_open (r := .phantom) nofun nofun rfl h
  · exact exec_readOf_of_not_open (r := .scoreData) nofun nofun (regValue_scoreData s) h
  · exact exec_readOf_of_not_open (r := .diagData) nofun nofun (regValue_diagData s) h
  · exact exec_readOf_of_not_open (r := .diagTotal) nofun nofun (regValue_diagTotal s) h
  · exact exec_readOf_of_not_open (r := .hist k) nofun (by simp) (regValue_hist s k) h
  · exact exec_readOf_of_not_open (r := .idx k) nofun (by simp) rfl h

/-! ## The writes of the status and select registers (44_host_access.md R194 to R198, R203, R204) -/

/-- DIAG_SEL stores the slot, the low TABLE_BITS bits of the index and the symbol (R204). -/
theorem diagStored_getLsbD (tb : Nat) (v : Word) (b : Nat) : (diagStored tb v).getLsbD b =
    (v.getLsbD b && (decide (b < 8) || (decide (8 ≤ b) && decide (b < 8 + tb) && decide (b < 28)) ||
      (decide (28 ≤ b) && decide (b < 31)))) := by
  have hindex : ∀ j, (diagIndex v % 2 ^ tb).testBit j = (decide (j < tb) && (decide (j < 20) && v.getLsbD (8 + j))) := by
    intro j
    rw [Nat.testBit_mod_two_pow, diagIndex, BitVec.testBit_toNat, BitVec.getLsbD_extractLsb']
  unfold diagStored
  simp only [BitVec.getLsbD_append, BitVec.getLsbD_extractLsb', BitVec.getLsbD_ofNat, hindex]
  split_ifs with h31 h28 h8
  · simp [h8]
  · simp [h8, h28, show 8 ≤ b by omega, show 8 + (b - 8) = b by omega, show b - 8 < 20 by omega,
      show b - 8 < tb ↔ b < 8 + tb by omega, show ¬ 28 ≤ b by omega, Bool.and_comm]
  · simp [h28, h31, show ¬ b < 8 by omega, show 28 ≤ b by omega, show 28 + (b - 28) = b by omega,
      show b - 28 < 3 by omega]
  · simp [h31, show ¬ b < 8 by omega, show ¬ b < 28 by omega]

/-- Settles O44: the bits of ERR and DIAG_SEL one by one, the other registers as they are stored. -/
theorem statusAndSelectWrites : Obligations.StatusAndSelectWrites := by
  intro s v
  refine ⟨⟨s.err &&& ~~~(v.extractLsb' 0 9), rfl, fun b hb => ?err⟩, ?intStatus, ?intEnable, rfl, ?scoreIdx,
    ⟨diagStored s.params.tableBits v, rfl, fun b _ => diagStored_getLsbD _ v b⟩⟩
  case err => simp [hb]
  case intStatus =>
    have hdone : (s.done && !v.getLsbD 0) = if v.getLsbD 0 then false else s.done := by cases v.getLsbD 0 <;> simp
    have herror : (s.error && !v.getLsbD 1) = if v.getLsbD 1 then false else s.error := by cases v.getLsbD 1 <;> simp
    rw [← hdone, ← herror]
    rfl
  case intEnable =>
    rw [BitVec.setWidth_eq_extractLsb' (by decide)]
    rfl
  case scoreIdx =>
    rw [BitVec.setWidth_eq_extractLsb' (by decide)]
    rfl

/-! ## DIN and DOUT (44_host_access.md R197, R199) -/

/-- After EOI a byte is dropped with DIN_AFTER_EOI. -/
theorem dinWrite_of_eoi {s : State} (he : s.eoi = true) (v : Word) : dinWrite v s = reject .dinAfterEoi s := if_pos he

/-- Before EOI a byte for a full INQ is dropped with DIN_OVF. -/
theorem dinWrite_of_full {s : State} (he : s.eoi = false) (hq : s.params.inDepth ≤ s.inq.length) (v : Word) :
    dinWrite v s = reject .dinOvf s := by
  simp [dinWrite, he, hq]

/-- Settles O45: the three branches of a DIN write. -/
theorem dinWriteQueuesOrRejects : Obligations.DinWriteQueuesOrRejects := by
  intro s v
  refine ⟨fun he => ?_, fun he hq => ?_, fun he hq => ?_⟩
  · exact congrArg Host.Outcome.next (dinWrite_of_eoi he v)
  · exact congrArg Host.Outcome.next (dinWrite_of_full he hq.ge v)
  · rw [BitVec.setWidth_eq_extractLsb' (by decide)]
    exact congrArg Host.Outcome.next (dinWrite_of_room he hq v)

theorem doutRead_of_nil {s : State} (h : s.outq = []) : doutRead s = hostRead 0 s := by
  simp [doutRead, h]

theorem doutRead_of_cons {s : State} {b : Byte} {rest : List Byte} (h : s.outq = b :: rest) :
    doutRead s = hostRead (0x100#32 ||| zext32 b)
      { s with outq := rest, done := s.done || (s.pend.isNone && rest.length == s.params.outDepth) } := by
  simp [doutRead, h]

/-- A byte below the flag in bit 8, as a number. -/
theorem flag_or_zext32 (b : Byte) : 0x100#32 ||| zext32 b = BitVec.ofNat 32 (256 + b.toNat) := by
  apply BitVec.eq_of_toNat_eq
  have hb := b.isLt
  have hadd : 2 ^ 8 * 1 + b.toNat = 2 ^ 8 * 1 ||| b.toNat := Nat.two_pow_add_eq_or_of_lt hb 1
  simp only [BitVec.toNat_or, zext32, BitVec.toNat_setWidth, BitVec.toNat_ofNat]
  rw [Nat.mod_eq_of_lt (show b.toNat < 2 ^ 32 by omega), Nat.mod_eq_of_lt (show 256 + b.toNat < 2 ^ 32 by omega)]
  exact hadd.symm

/-- Settles O46: the two branches of a DOUT read. -/
theorem doutReadPops : Obligations.DoutReadPops := by
  intro s
  refine ⟨fun v => rfl, fun h => congrArg Host.Outcome.next (doutRead_of_nil h), fun b rest h => ?_⟩
  have hdone : (s.done || (s.pend.isNone && rest.length == s.params.outDepth)) =
      if s.pend = none ∧ rest.length = s.params.outDepth then true else s.done := by
    split <;> simp_all
  rw [← hdone, ← flag_or_zext32]
  exact congrArg Host.Outcome.next (doutRead_of_cons h)

/-! ## Configuration writes (44_host_access.md R205) -/

/-- A configuration write whose legal values are `lo` to `hi`, by MODE, BUSY and the value. -/
theorem cfgWrite_of_range {legal : Bool} {v : Word} {lo hi : Nat} {s : State} (u : State)
    (hl : legal = true ↔ lo ≤ v.toNat ∧ v.toNat ≤ hi) :
    ((s.mode ≠ .idle ∨ busy s = true ∨ v.toNat < lo ∨ hi < v.toNat) → cfgWrite legal u s = reject .cfgErr s) ∧
      (s.mode = .idle → busy s = false → lo ≤ v.toNat → v.toNat ≤ hi → cfgWrite legal u s = u) := by
  refine ⟨fun h => if_pos ?_, fun hm hb h1 h2 => if_neg ?_⟩
  · rcases h with h | h | h
    · exact .inl h
    · exact .inr (.inl h)
    · have hout : ¬ (lo ≤ v.toNat ∧ v.toNat ≤ hi) := by omega
      exact .inr (.inr (Bool.eq_false_iff.mpr (mt hl.mp hout)))
  · simp [hm, hb, hl.mpr ⟨h1, h2⟩]

/-- An operation that is a configuration write with legal values `lo` to `hi` stores its value or is rejected. -/
theorem exec_cfgWrite {i : Instr} {legal : Bool} {v : Word} {lo hi : Nat} {s u : State}
    (hx : exec i s = .next (cfgWrite legal u s)) (hl : legal = true ↔ lo ≤ v.toNat ∧ v.toNat ≤ hi) :
    ((s.mode ≠ .idle ∨ busy s = true ∨ v.toNat < lo ∨ hi < v.toNat) →
      exec i s = .next { s with err := s.err ||| 0x008#9, error := true }) ∧
    (s.mode = .idle → busy s = false → lo ≤ v.toNat → v.toNat ≤ hi → exec i s = .next u) := by
  obtain ⟨hrej, hstore⟩ := cfgWrite_of_range u hl
  refine ⟨fun h => ?_, fun hm hb h1 h2 => ?_⟩
  · rw [hx, hrej h]
    rfl
  · rw [hx, hstore hm hb h1 h2]

/-- Settles O47: each row is a configuration write with the range of its register. -/
theorem configWriteStoresOrRejects : Obligations.ConfigWriteStoresOrRejects := by
  intro s v k row hrow
  simp only [List.mem_cons, List.not_mem_nil, or_false] at hrow
  rcases hrow with rfl | rfl | rfl | rfl | rfl
  · exact exec_cfgWrite (legal := legalNord v) rfl (by simp [legalNord])
  · exact exec_cfgWrite (legal := legalCeil v) rfl (by simp [legalCeil])
  · exact exec_cfgWrite (legal := legalRint v) rfl (by simp [legalRint])
  · exact exec_cfgWrite (legal := legalOrder v) rfl (by simp [legalOrder])
  · exact exec_cfgWrite (legal := legalWeight v) rfl (by simp [legalWeight])

end Sys2Proof.Machine
end

section
/-! SUPPORT. What a fault and a reject write, and the fault of ENC_SYM and DEC_SYM on a distribution without weight
(60_exceptions.md R220, R221, R226, R227). -/

namespace Sys2Proof.Machine

/-! ## Faults and rejects (60_exceptions.md R220, R226, R227) -/

/-- A fault and a reject are record updates with the cause's ERR bit `m`. -/
theorem reject_and_raiseFault_eq {e : ErrCause} {m : BitVec 9} (hm : BitVec.twoPow 9 e.code = m) (s : State) :
    reject e s = { s with err := s.err ||| m, error := true } ∧
      raiseFault e s = { s with err := s.err ||| m, error := true, mode := .fault } := by
  subst hm
  exact ⟨rfl, rfl⟩

/-- Settles O8: the nine causes have the ERR bits of R220, and each is written as R226 and R227 say. -/
theorem faultAndRejectWrites : Obligations.FaultAndRejectWrites := by
  intro s row hrow
  have hbit : BitVec.twoPow 9 row.1.code = row.2 := by
    revert row
    decide
  exact reject_and_raiseFault_eq hbit s

/-! ## Without active weight (40_predictor.md R116, 60_exceptions.md R221) -/

section
variable {s : State} (h : activeWeight s = 0)
include h

/-- Without active weight TOTAL, at most 65280 times it, is 0. -/
theorem predict_total_of_activeWeight_zero : (predict s).total = 0 := by
  have hle := predict_total_le s
  apply BitVec.eq_of_toNat_eq
  simpa [h] using hle

/-- Without active weight every score, at most 255 times it, is 0. -/
theorem predict_score_of_activeWeight_zero : (predict s).score = Vector.replicate 256 0 := by
  apply Vector.ext
  intro j hj
  apply BitVec.eq_of_toNat_eq
  have hle := mixedScore_le_activeWeight s ⟨j, hj⟩
  rw [← predict_score, h] at hle
  simpa using hle

/-- Without active weight Predict clears SCORE and TOTAL. -/
theorem predict_of_activeWeight_zero : predict s = { s with score := Vector.replicate 256 0, total := 0 } := by
  rw [← predict_score_of_activeWeight_zero h, ← predict_total_of_activeWeight_zero h]
  rfl

end

theorem execDecSym_of_total_zero {s : State} (h : (predict s).total = 0) :
    exec .decSym s = .next (complete (raiseFault .invalidDist (predict s))) := by
  rw [exec_decSym, decPlan, if_pos h, decSymNext]

/-- Settles O24: TOTAL is 0, so both commands fault INVALID_DIST on the cleared distribution. -/
theorem noWeightFaultsInvalidDist : Obligations.NoWeightFaultsInvalidDist := by
  intro x s h
  have htotal := predict_total_of_activeWeight_zero h
  rw [execEncSym_of_total_zero x htotal, execDecSym_of_total_zero htotal, predict_of_activeWeight_zero h]
  exact ⟨rfl, rfl⟩

end Sys2Proof.Machine
end

section
/-! SUPPORT. The reads that the pending command leaves open (70_reset_and_hazards.md R255). -/

namespace Sys2Proof.Machine

/-- A register that the pending command may write is open to be read as any value. -/
theorem readOpen_of_mayWrite {s : State} {i : Instr} {r : Reg} (hp : pendCmd s = some i) (hm : mayWrite i r = true) :
    readOpen s r = true := by
  simpa [readOpen, hp] using hm

/-- A read of an open register returns the next free value, its reserved bits 0, and draws it; nothing else changes. -/
theorem readReg_of_open {s : State} {r : Reg} (h : readOpen s r = true) :
    readReg r s = { s with
      reads := BitVec.ofNat 32 ((Config.freeWord s.draws).toNat % 2 ^ regWidth s.params.tableBits r) :: s.reads
      draws := s.draws + 1 } :=
  if_pos h

/-- Settles O42: each listed read is the read of a register that the pending command may write, and so an open one. -/
theorem readsOfPendingWritesAreFree : Obligations.ReadsOfPendingWritesAreFree := by
  intro s k i hp row hrow
  obtain ⟨r, rfl, hm, hread⟩ := openReads_cases hrow
  rw [hread, readReg_of_open (readOpen_of_mayWrite hp hm)]

end Sys2Proof.Machine
end
